-- ==== Sys2Proof/Word.lean ====
section
/-! DEFINITION. The machine's word types (00_scope.md R7): bytes, and 16-bit addresses. -/

namespace Sys2Proof

/-- A u8: A, X, Y, SP, an opcode, a memory byte (R7). -/
abbrev Byte := BitVec 8

/-- A u16: PC and every address (R7, R50). -/
abbrev Word := BitVec 16

end Sys2Proof
end

