-- ==== Sys2Proof/Config.lean ====
section
/-! DEFINITION. What an implementation fixes: the parameters of 00_scope.md R8 as one plain record that State
carries unchanged (so that every claim over all states is a claim over all parameter values), their reference
values, and the one free value of the model, the peer's answers. -/

namespace Sys2Proof

/-- The named parameters of R8 that the machine consults while it runs. -/
structure Config where
  /-- `RAM_BASE` (D17). -/
  ramBase : Nat
  /-- `RAM_SIZE` (D17). -/
  ramSize : Nat
  /-- `ROM_BASE` (D17). -/
  romBase : Nat
  /-- `ROM_SIZE` (D17). -/
  romSize : Nat
  /-- `VIDEO_WINDOWS`, each as its first and last address (D17). -/
  videoWindows : List (Word × Word)
  /-- `FORWARD_BUS_WINDOW_WRITES` (D16). -/
  forwardBusWindowWrites : Bool
  /-- `BRK_SETS_I` (D8). -/
  brkSetsI : Bool
  /-- `OP_EXTRA`: the opcodes with a non-zero operation-stage increment; an unlisted opcode has 0 (D12, log 18). -/
  opExtra : List (Byte × Int)
  /-- `BATCH` (D26). -/
  batch : Nat
  deriving DecidableEq, Repr

/-- The memory read-modify-write opcodes, increment +2 (R123, R190). -/
def Config.rmwExtra : List (Byte × Int) :=
  [(0x06, 2), (0x16, 2), (0x0E, 2), (0x1E, 2), (0x26, 2), (0x36, 2), (0x2E, 2), (0x3E, 2)] ++
  [(0x46, 2), (0x56, 2), (0x4E, 2), (0x5E, 2), (0x66, 2), (0x76, 2), (0x6E, 2), (0x7E, 2)] ++
  [(0xC6, 2), (0xD6, 2), (0xCE, 2), (0xDE, 2), (0xE6, 2), (0xF6, 2), (0xEE, 2), (0xFE, 2)]

/-- The default `OP_EXTRA`, the non-zero entries of the op_extra column of R96. -/
def Config.referenceExtra : List (Byte × Int) :=
  [(0x00, 5), (0x08, 1), (0x48, 1), (0x28, 2), (0x68, 2)] ++
  [(0x20, 2), (0x40, 4), (0x60, 4), (0x4C, -1), (0x6C, 1)] ++ Config.rmwExtra

/-- The reference configuration of R8. PRESUMED map (log 2), DESIGN CHOICE `BATCH` = 1 (log 14). -/
def Config.reference : Config where
  ramBase := 0x0000
  ramSize := 0xC000
  romBase := 0xD000
  romSize := 0x3000
  videoWindows := [(0x0400, 0x07FF), (0x0800, 0x0BFF), (0x2000, 0x3FFF), (0x4000, 0x5FFF)]
  forwardBusWindowWrites := false
  brkSetsI := false
  opExtra := Config.referenceExtra
  batch := 1

/-- How one bus exchange ends (R67 to R69): the peer answers with a byte (a write frame gets no reply, and the
byte is not used), or the exchange fails. -/
inductive Exchange where
  | ok (reply : Byte)
  | fail
  deriving DecidableEq, Repr, Inhabited

/-- FREE VALUE (U5, D25; log 7): how the bus exchange after the first `n` of a run ends, where the state lists no
answer for it. It has no body: nothing can be proved of its value. -/
opaque Config.peerAnswer (n : Nat) : Exchange

end Sys2Proof
end

