-- ==== Sys2Proof/Syntax.lean ====
section
/-! DEFINITION. The instruction set as syntax: the 56 mnemonics, the 13 addressing modes, the operand forms, and
`Instr`, one constructor per row of spec/opcode_table.json (30_encoding.md R95, R96). -/

namespace Sys2Proof

/-- The mnemonics of the decode table (R96). -/
inductive Mnemonic where
  | adc | sbc | and | ora | eor | cmp | cpx | cpy
  | bit | lda | ldx | ldy | sta | stx | sty | asl
  | lsr | rol | ror | inc | dec | inx | iny | dex
  | dey | tax | tay | txa | tya | tsx | txs | pha
  | php | pla | plp | bcc | bcs | beq | bmi | bne
  | bpl | bvc | bvs | jmp | jsr | rts | brk | rti
  | clc | cld | cli | clv | sec | sed | sei | nop
  deriving DecidableEq, Repr

/-- The eleven resolver modes, and implied and accumulator, which call no resolver (R91, R112, C7). -/
inductive Mode where
  | imp | acc | imm | zp | zpx | zpy | abs | absx | absy | ind | indx | indy | rel
  deriving DecidableEq, Repr

/-- How many operand bytes follow the opcode (R91). -/
def Mode.operandBytes : Mode → Nat
  | .imp | .acc => 0
  | .imm | .zp | .zpx | .zpy | .indx | .indy | .rel => 1
  | .abs | .absx | .absy | .ind => 2

/-- An operand of one of the eleven resolver modes, as it stands in the instruction (R93). -/
inductive Operand where
  /-- `#$nn`: the operand value. -/
  | imm (v : Byte)
  /-- `$nn`: a zero-page address. -/
  | zp (b : Byte)
  /-- `$nn,X`: a zero-page base. -/
  | zpx (b : Byte)
  /-- `$nn,Y`: a zero-page base. -/
  | zpy (b : Byte)
  /-- `$nnnn`: an address. -/
  | abs (w : Word)
  /-- `$nnnn,X`: a base. -/
  | absx (w : Word)
  /-- `$nnnn,Y`: a base. -/
  | absy (w : Word)
  /-- `($nnnn)`: a pointer. -/
  | ind (p : Word)
  /-- `($nn,X)`: a zero-page pointer base. -/
  | indx (b : Byte)
  /-- `($nn),Y`: a zero-page pointer. -/
  | indy (b : Byte)
  /-- a signed branch offset. -/
  | rel (o : Byte)
  deriving DecidableEq, Repr

/-- The mode of an operand. -/
def Operand.mode : Operand → Mode
  | .imm _ => .imm
  | .zp _ => .zp
  | .zpx _ => .zpx
  | .zpy _ => .zpy
  | .abs _ => .abs
  | .absx _ => .absx
  | .absy _ => .absy
  | .ind _ => .ind
  | .indx _ => .indx
  | .indy _ => .indy
  | .rel _ => .rel

/-- An instruction: one constructor per row of the decode table (R96), with its operand. -/
inductive Instr where
  /-- ADC #$nn (0x69), R143. -/
  | adcImm (v : Byte)
  /-- ADC $nn (0x65), R143. -/
  | adcZp (b : Byte)
  /-- ADC $nn,X (0x75), R143. -/
  | adcZpx (b : Byte)
  /-- ADC $nnnn (0x6D), R143. -/
  | adcAbs (w : Word)
  /-- ADC $nnnn,X (0x7D), R143. -/
  | adcAbsx (w : Word)
  /-- ADC $nnnn,Y (0x79), R143. -/
  | adcAbsy (w : Word)
  /-- ADC ($nn,X) (0x61), R143. -/
  | adcIndx (b : Byte)
  /-- ADC ($nn),Y (0x71), R143. -/
  | adcIndy (b : Byte)
  /-- SBC #$nn (0xE9), R144. -/
  | sbcImm (v : Byte)
  /-- SBC $nn (0xE5), R144. -/
  | sbcZp (b : Byte)
  /-- SBC $nn,X (0xF5), R144. -/
  | sbcZpx (b : Byte)
  /-- SBC $nnnn (0xED), R144. -/
  | sbcAbs (w : Word)
  /-- SBC $nnnn,X (0xFD), R144. -/
  | sbcAbsx (w : Word)
  /-- SBC $nnnn,Y (0xF9), R144. -/
  | sbcAbsy (w : Word)
  /-- SBC ($nn,X) (0xE1), R144. -/
  | sbcIndx (b : Byte)
  /-- SBC ($nn),Y (0xF1), R144. -/
  | sbcIndy (b : Byte)
  /-- AND #$nn (0x29), R145. -/
  | andImm (v : Byte)
  /-- AND $nn (0x25), R145. -/
  | andZp (b : Byte)
  /-- AND $nn,X (0x35), R145. -/
  | andZpx (b : Byte)
  /-- AND $nnnn (0x2D), R145. -/
  | andAbs (w : Word)
  /-- AND $nnnn,X (0x3D), R145. -/
  | andAbsx (w : Word)
  /-- AND $nnnn,Y (0x39), R145. -/
  | andAbsy (w : Word)
  /-- AND ($nn,X) (0x21), R145. -/
  | andIndx (b : Byte)
  /-- AND ($nn),Y (0x31), R145. -/
  | andIndy (b : Byte)
  /-- ORA #$nn (0x09), R146. -/
  | oraImm (v : Byte)
  /-- ORA $nn (0x05), R146. -/
  | oraZp (b : Byte)
  /-- ORA $nn,X (0x15), R146. -/
  | oraZpx (b : Byte)
  /-- ORA $nnnn (0x0D), R146. -/
  | oraAbs (w : Word)
  /-- ORA $nnnn,X (0x1D), R146. -/
  | oraAbsx (w : Word)
  /-- ORA $nnnn,Y (0x19), R146. -/
  | oraAbsy (w : Word)
  /-- ORA ($nn,X) (0x01), R146. -/
  | oraIndx (b : Byte)
  /-- ORA ($nn),Y (0x11), R146. -/
  | oraIndy (b : Byte)
  /-- EOR #$nn (0x49), R147. -/
  | eorImm (v : Byte)
  /-- EOR $nn (0x45), R147. -/
  | eorZp (b : Byte)
  /-- EOR $nn,X (0x55), R147. -/
  | eorZpx (b : Byte)
  /-- EOR $nnnn (0x4D), R147. -/
  | eorAbs (w : Word)
  /-- EOR $nnnn,X (0x5D), R147. -/
  | eorAbsx (w : Word)
  /-- EOR $nnnn,Y (0x59), R147. -/
  | eorAbsy (w : Word)
  /-- EOR ($nn,X) (0x41), R147. -/
  | eorIndx (b : Byte)
  /-- EOR ($nn),Y (0x51), R147. -/
  | eorIndy (b : Byte)
  /-- CMP #$nn (0xC9), R148. -/
  | cmpImm (v : Byte)
  /-- CMP $nn (0xC5), R148. -/
  | cmpZp (b : Byte)
  /-- CMP $nn,X (0xD5), R148. -/
  | cmpZpx (b : Byte)
  /-- CMP $nnnn (0xCD), R148. -/
  | cmpAbs (w : Word)
  /-- CMP $nnnn,X (0xDD), R148. -/
  | cmpAbsx (w : Word)
  /-- CMP $nnnn,Y (0xD9), R148. -/
  | cmpAbsy (w : Word)
  /-- CMP ($nn,X) (0xC1), R148. -/
  | cmpIndx (b : Byte)
  /-- CMP ($nn),Y (0xD1), R148. -/
  | cmpIndy (b : Byte)
  /-- CPX #$nn (0xE0), R149. -/
  | cpxImm (v : Byte)
  /-- CPX $nn (0xE4), R149. -/
  | cpxZp (b : Byte)
  /-- CPX $nnnn (0xEC), R149. -/
  | cpxAbs (w : Word)
  /-- CPY #$nn (0xC0), R150. -/
  | cpyImm (v : Byte)
  /-- CPY $nn (0xC4), R150. -/
  | cpyZp (b : Byte)
  /-- CPY $nnnn (0xCC), R150. -/
  | cpyAbs (w : Word)
  /-- BIT $nn (0x24), R151. -/
  | bitZp (b : Byte)
  /-- BIT $nnnn (0x2C), R151. -/
  | bitAbs (w : Word)
  /-- LDA #$nn (0xA9), R170. -/
  | ldaImm (v : Byte)
  /-- LDA $nn (0xA5), R170. -/
  | ldaZp (b : Byte)
  /-- LDA $nn,X (0xB5), R170. -/
  | ldaZpx (b : Byte)
  /-- LDA $nnnn (0xAD), R170. -/
  | ldaAbs (w : Word)
  /-- LDA $nnnn,X (0xBD), R170. -/
  | ldaAbsx (w : Word)
  /-- LDA $nnnn,Y (0xB9), R170. -/
  | ldaAbsy (w : Word)
  /-- LDA ($nn,X) (0xA1), R170. -/
  | ldaIndx (b : Byte)
  /-- LDA ($nn),Y (0xB1), R170. -/
  | ldaIndy (b : Byte)
  /-- LDX #$nn (0xA2), R171. -/
  | ldxImm (v : Byte)
  /-- LDX $nn (0xA6), R171. -/
  | ldxZp (b : Byte)
  /-- LDX $nn,Y (0xB6), R171. -/
  | ldxZpy (b : Byte)
  /-- LDX $nnnn (0xAE), R171. -/
  | ldxAbs (w : Word)
  /-- LDX $nnnn,Y (0xBE), R171. -/
  | ldxAbsy (w : Word)
  /-- LDY #$nn (0xA0), R172. -/
  | ldyImm (v : Byte)
  /-- LDY $nn (0xA4), R172. -/
  | ldyZp (b : Byte)
  /-- LDY $nn,X (0xB4), R172. -/
  | ldyZpx (b : Byte)
  /-- LDY $nnnn (0xAC), R172. -/
  | ldyAbs (w : Word)
  /-- LDY $nnnn,X (0xBC), R172. -/
  | ldyAbsx (w : Word)
  /-- STA $nn (0x85), R173. -/
  | staZp (b : Byte)
  /-- STA $nn,X (0x95), R173. -/
  | staZpx (b : Byte)
  /-- STA $nnnn (0x8D), R173. -/
  | staAbs (w : Word)
  /-- STA $nnnn,X (0x9D), R173. -/
  | staAbsx (w : Word)
  /-- STA $nnnn,Y (0x99), R173. -/
  | staAbsy (w : Word)
  /-- STA ($nn,X) (0x81), R173. -/
  | staIndx (b : Byte)
  /-- STA ($nn),Y (0x91), R173. -/
  | staIndy (b : Byte)
  /-- STX $nn (0x86), R174. -/
  | stxZp (b : Byte)
  /-- STX $nn,Y (0x96), R174. -/
  | stxZpy (b : Byte)
  /-- STX $nnnn (0x8E), R174. -/
  | stxAbs (w : Word)
  /-- STY $nn (0x84), R175. -/
  | styZp (b : Byte)
  /-- STY $nn,X (0x94), R175. -/
  | styZpx (b : Byte)
  /-- STY $nnnn (0x8C), R175. -/
  | styAbs (w : Word)
  /-- ASL A (0x0A), R191. -/
  | aslAcc
  /-- ASL $nn (0x06), R191. -/
  | aslZp (b : Byte)
  /-- ASL $nn,X (0x16), R191. -/
  | aslZpx (b : Byte)
  /-- ASL $nnnn (0x0E), R191. -/
  | aslAbs (w : Word)
  /-- ASL $nnnn,X (0x1E), R191. -/
  | aslAbsx (w : Word)
  /-- LSR A (0x4A), R192. -/
  | lsrAcc
  /-- LSR $nn (0x46), R192. -/
  | lsrZp (b : Byte)
  /-- LSR $nn,X (0x56), R192. -/
  | lsrZpx (b : Byte)
  /-- LSR $nnnn (0x4E), R192. -/
  | lsrAbs (w : Word)
  /-- LSR $nnnn,X (0x5E), R192. -/
  | lsrAbsx (w : Word)
  /-- ROL A (0x2A), R193. -/
  | rolAcc
  /-- ROL $nn (0x26), R193. -/
  | rolZp (b : Byte)
  /-- ROL $nn,X (0x36), R193. -/
  | rolZpx (b : Byte)
  /-- ROL $nnnn (0x2E), R193. -/
  | rolAbs (w : Word)
  /-- ROL $nnnn,X (0x3E), R193. -/
  | rolAbsx (w : Word)
  /-- ROR A (0x6A), R194. -/
  | rorAcc
  /-- ROR $nn (0x66), R194. -/
  | rorZp (b : Byte)
  /-- ROR $nn,X (0x76), R194. -/
  | rorZpx (b : Byte)
  /-- ROR $nnnn (0x6E), R194. -/
  | rorAbs (w : Word)
  /-- ROR $nnnn,X (0x7E), R194. -/
  | rorAbsx (w : Word)
  /-- INC $nn (0xE6), R195. -/
  | incZp (b : Byte)
  /-- INC $nn,X (0xF6), R195. -/
  | incZpx (b : Byte)
  /-- INC $nnnn (0xEE), R195. -/
  | incAbs (w : Word)
  /-- INC $nnnn,X (0xFE), R195. -/
  | incAbsx (w : Word)
  /-- DEC $nn (0xC6), R196. -/
  | decZp (b : Byte)
  /-- DEC $nn,X (0xD6), R196. -/
  | decZpx (b : Byte)
  /-- DEC $nnnn (0xCE), R196. -/
  | decAbs (w : Word)
  /-- DEC $nnnn,X (0xDE), R196. -/
  | decAbsx (w : Word)
  /-- INX (0xE8), R197. -/
  | inx
  /-- INY (0xC8), R198. -/
  | iny
  /-- DEX (0xCA), R199. -/
  | dex
  /-- DEY (0x88), R200. -/
  | dey
  /-- TAX (0xAA), R210. -/
  | tax
  /-- TAY (0xA8), R211. -/
  | tay
  /-- TXA (0x8A), R212. -/
  | txa
  /-- TYA (0x98), R213. -/
  | tya
  /-- TSX (0xBA), R214. -/
  | tsx
  /-- TXS (0x9A), R215. -/
  | txs
  /-- PHA (0x48), R216. -/
  | pha
  /-- PHP (0x08), R217. -/
  | php
  /-- PLA (0x68), R218. -/
  | pla
  /-- PLP (0x28), R219. -/
  | plp
  /-- BCC $tttt (0x90), R231. -/
  | bcc (o : Byte)
  /-- BCS $tttt (0xB0), R232. -/
  | bcs (o : Byte)
  /-- BEQ $tttt (0xF0), R233. -/
  | beq (o : Byte)
  /-- BMI $tttt (0x30), R234. -/
  | bmi (o : Byte)
  /-- BNE $tttt (0xD0), R235. -/
  | bne (o : Byte)
  /-- BPL $tttt (0x10), R236. -/
  | bpl (o : Byte)
  /-- BVC $tttt (0x50), R237. -/
  | bvc (o : Byte)
  /-- BVS $tttt (0x70), R238. -/
  | bvs (o : Byte)
  /-- JMP $nnnn (0x4C), R239. -/
  | jmpAbs (w : Word)
  /-- JMP ($nnnn) (0x6C), R239. -/
  | jmpInd (p : Word)
  /-- JSR $nnnn (0x20), R240. -/
  | jsr (w : Word)
  /-- RTS (0x60), R241. -/
  | rts
  /-- BRK (0x00), R242. -/
  | brk
  /-- RTI (0x40), R243. -/
  | rti
  /-- CLC (0x18), R260. -/
  | clc
  /-- CLD (0xD8), R261. -/
  | cld
  /-- CLI (0x58), R262. -/
  | cli
  /-- CLV (0xB8), R263. -/
  | clv
  /-- SEC (0x38), R264. -/
  | sec
  /-- SED (0xF8), R265. -/
  | sed
  /-- SEI (0x78), R266. -/
  | sei
  /-- NOP (0xEA), R267. -/
  | nop
  deriving DecidableEq, Repr

/-- The mnemonic of an instruction. -/
def Instr.mnemonic : Instr → Mnemonic
  | .adcImm _ | .adcZp _ | .adcZpx _ | .adcAbs _ | .adcAbsx _ | .adcAbsy _ | .adcIndx _ | .adcIndy _ => .adc
  | .sbcImm _ | .sbcZp _ | .sbcZpx _ | .sbcAbs _ | .sbcAbsx _ | .sbcAbsy _ | .sbcIndx _ | .sbcIndy _ => .sbc
  | .andImm _ | .andZp _ | .andZpx _ | .andAbs _ | .andAbsx _ | .andAbsy _ | .andIndx _ | .andIndy _ => .and
  | .oraImm _ | .oraZp _ | .oraZpx _ | .oraAbs _ | .oraAbsx _ | .oraAbsy _ | .oraIndx _ | .oraIndy _ => .ora
  | .eorImm _ | .eorZp _ | .eorZpx _ | .eorAbs _ | .eorAbsx _ | .eorAbsy _ | .eorIndx _ | .eorIndy _ => .eor
  | .cmpImm _ | .cmpZp _ | .cmpZpx _ | .cmpAbs _ | .cmpAbsx _ | .cmpAbsy _ | .cmpIndx _ | .cmpIndy _ => .cmp
  | .cpxImm _ | .cpxZp _ | .cpxAbs _ => .cpx
  | .cpyImm _ | .cpyZp _ | .cpyAbs _ => .cpy
  | .bitZp _ | .bitAbs _ => .bit
  | .ldaImm _ | .ldaZp _ | .ldaZpx _ | .ldaAbs _ | .ldaAbsx _ | .ldaAbsy _ | .ldaIndx _ | .ldaIndy _ => .lda
  | .ldxImm _ | .ldxZp _ | .ldxZpy _ | .ldxAbs _ | .ldxAbsy _ => .ldx
  | .ldyImm _ | .ldyZp _ | .ldyZpx _ | .ldyAbs _ | .ldyAbsx _ => .ldy
  | .staZp _ | .staZpx _ | .staAbs _ | .staAbsx _ | .staAbsy _ | .staIndx _ | .staIndy _ => .sta
  | .stxZp _ | .stxZpy _ | .stxAbs _ => .stx
  | .styZp _ | .styZpx _ | .styAbs _ => .sty
  | .aslAcc | .aslZp _ | .aslZpx _ | .aslAbs _ | .aslAbsx _ => .asl
  | .lsrAcc | .lsrZp _ | .lsrZpx _ | .lsrAbs _ | .lsrAbsx _ => .lsr
  | .rolAcc | .rolZp _ | .rolZpx _ | .rolAbs _ | .rolAbsx _ => .rol
  | .rorAcc | .rorZp _ | .rorZpx _ | .rorAbs _ | .rorAbsx _ => .ror
  | .incZp _ | .incZpx _ | .incAbs _ | .incAbsx _ => .inc
  | .decZp _ | .decZpx _ | .decAbs _ | .decAbsx _ => .dec
  | .inx => .inx
  | .iny => .iny
  | .dex => .dex
  | .dey => .dey
  | .tax => .tax
  | .tay => .tay
  | .txa => .txa
  | .tya => .tya
  | .tsx => .tsx
  | .txs => .txs
  | .pha => .pha
  | .php => .php
  | .pla => .pla
  | .plp => .plp
  | .bcc _ => .bcc
  | .bcs _ => .bcs
  | .beq _ => .beq
  | .bmi _ => .bmi
  | .bne _ => .bne
  | .bpl _ => .bpl
  | .bvc _ => .bvc
  | .bvs _ => .bvs
  | .jmpAbs _ | .jmpInd _ => .jmp
  | .jsr _ => .jsr
  | .rts => .rts
  | .brk => .brk
  | .rti => .rti
  | .clc => .clc
  | .cld => .cld
  | .cli => .cli
  | .clv => .clv
  | .sec => .sec
  | .sed => .sed
  | .sei => .sei
  | .nop => .nop

/-- The operand of an instruction; none for the implied and accumulator forms (R112). -/
def Instr.operand : Instr → Option Operand
  | .adcImm v => some (.imm v)
  | .adcZp b => some (.zp b)
  | .adcZpx b => some (.zpx b)
  | .adcAbs w => some (.abs w)
  | .adcAbsx w => some (.absx w)
  | .adcAbsy w => some (.absy w)
  | .adcIndx b => some (.indx b)
  | .adcIndy b => some (.indy b)
  | .sbcImm v => some (.imm v)
  | .sbcZp b => some (.zp b)
  | .sbcZpx b => some (.zpx b)
  | .sbcAbs w => some (.abs w)
  | .sbcAbsx w => some (.absx w)
  | .sbcAbsy w => some (.absy w)
  | .sbcIndx b => some (.indx b)
  | .sbcIndy b => some (.indy b)
  | .andImm v => some (.imm v)
  | .andZp b => some (.zp b)
  | .andZpx b => some (.zpx b)
  | .andAbs w => some (.abs w)
  | .andAbsx w => some (.absx w)
  | .andAbsy w => some (.absy w)
  | .andIndx b => some (.indx b)
  | .andIndy b => some (.indy b)
  | .oraImm v => some (.imm v)
  | .oraZp b => some (.zp b)
  | .oraZpx b => some (.zpx b)
  | .oraAbs w => some (.abs w)
  | .oraAbsx w => some (.absx w)
  | .oraAbsy w => some (.absy w)
  | .oraIndx b => some (.indx b)
  | .oraIndy b => some (.indy b)
  | .eorImm v => some (.imm v)
  | .eorZp b => some (.zp b)
  | .eorZpx b => some (.zpx b)
  | .eorAbs w => some (.abs w)
  | .eorAbsx w => some (.absx w)
  | .eorAbsy w => some (.absy w)
  | .eorIndx b => some (.indx b)
  | .eorIndy b => some (.indy b)
  | .cmpImm v => some (.imm v)
  | .cmpZp b => some (.zp b)
  | .cmpZpx b => some (.zpx b)
  | .cmpAbs w => some (.abs w)
  | .cmpAbsx w => some (.absx w)
  | .cmpAbsy w => some (.absy w)
  | .cmpIndx b => some (.indx b)
  | .cmpIndy b => some (.indy b)
  | .cpxImm v => some (.imm v)
  | .cpxZp b => some (.zp b)
  | .cpxAbs w => some (.abs w)
  | .cpyImm v => some (.imm v)
  | .cpyZp b => some (.zp b)
  | .cpyAbs w => some (.abs w)
  | .bitZp b => some (.zp b)
  | .bitAbs w => some (.abs w)
  | .ldaImm v => some (.imm v)
  | .ldaZp b => some (.zp b)
  | .ldaZpx b => some (.zpx b)
  | .ldaAbs w => some (.abs w)
  | .ldaAbsx w => some (.absx w)
  | .ldaAbsy w => some (.absy w)
  | .ldaIndx b => some (.indx b)
  | .ldaIndy b => some (.indy b)
  | .ldxImm v => some (.imm v)
  | .ldxZp b => some (.zp b)
  | .ldxZpy b => some (.zpy b)
  | .ldxAbs w => some (.abs w)
  | .ldxAbsy w => some (.absy w)
  | .ldyImm v => some (.imm v)
  | .ldyZp b => some (.zp b)
  | .ldyZpx b => some (.zpx b)
  | .ldyAbs w => some (.abs w)
  | .ldyAbsx w => some (.absx w)
  | .staZp b => some (.zp b)
  | .staZpx b => some (.zpx b)
  | .staAbs w => some (.abs w)
  | .staAbsx w => some (.absx w)
  | .staAbsy w => some (.absy w)
  | .staIndx b => some (.indx b)
  | .staIndy b => some (.indy b)
  | .stxZp b => some (.zp b)
  | .stxZpy b => some (.zpy b)
  | .stxAbs w => some (.abs w)
  | .styZp b => some (.zp b)
  | .styZpx b => some (.zpx b)
  | .styAbs w => some (.abs w)
  | .aslZp b => some (.zp b)
  | .aslZpx b => some (.zpx b)
  | .aslAbs w => some (.abs w)
  | .aslAbsx w => some (.absx w)
  | .lsrZp b => some (.zp b)
  | .lsrZpx b => some (.zpx b)
  | .lsrAbs w => some (.abs w)
  | .lsrAbsx w => some (.absx w)
  | .rolZp b => some (.zp b)
  | .rolZpx b => some (.zpx b)
  | .rolAbs w => some (.abs w)
  | .rolAbsx w => some (.absx w)
  | .rorZp b => some (.zp b)
  | .rorZpx b => some (.zpx b)
  | .rorAbs w => some (.abs w)
  | .rorAbsx w => some (.absx w)
  | .incZp b => some (.zp b)
  | .incZpx b => some (.zpx b)
  | .incAbs w => some (.abs w)
  | .incAbsx w => some (.absx w)
  | .decZp b => some (.zp b)
  | .decZpx b => some (.zpx b)
  | .decAbs w => some (.abs w)
  | .decAbsx w => some (.absx w)
  | .bcc o => some (.rel o)
  | .bcs o => some (.rel o)
  | .beq o => some (.rel o)
  | .bmi o => some (.rel o)
  | .bne o => some (.rel o)
  | .bpl o => some (.rel o)
  | .bvc o => some (.rel o)
  | .bvs o => some (.rel o)
  | .jmpAbs w => some (.abs w)
  | .jmpInd p => some (.ind p)
  | .jsr w => some (.abs w)
  | .aslAcc | .lsrAcc | .rolAcc | .rorAcc | .inx | .iny | .dex | .dey | .tax
  | .tay | .txa | .tya | .tsx | .txs | .pha | .php | .pla | .plp
  | .rts | .brk | .rti | .clc | .cld | .cli | .clv | .sec | .sed
  | .sei | .nop => none

/-- The mnemonics that have an accumulator form (R91, 42_rmw.md). -/
def Mnemonic.isShift (m : Mnemonic) : Bool :=
  m = .asl || m = .lsr || m = .rol || m = .ror

/-- The addressing mode of an instruction: its operand's, else accumulator for a shift and implied for the rest. -/
def Instr.mode (i : Instr) : Mode :=
  match i.operand with
  | some o => o.mode
  | none => if i.mnemonic.isShift then .acc else .imp

end Sys2Proof
end

