-- ==== Sys2Proof/WellFormed.lean ====
section
/-! DEFINITION. The checks on what is given to the machine: which (mnemonic, mode) forms the decode table has
(30_encoding.md R95), and when a configuration is well formed (00_scope.md R9). An `Instr` cannot be ill formed: its
operands are typed by their widths, and it has a constructor for each listed form only. -/

namespace Sys2Proof

/-- The addressing modes the opcode map gives a mnemonic (R95). -/
def Mnemonic.modes : Mnemonic → List Mode
  | .adc | .sbc | .and | .ora | .eor | .cmp | .lda => [.imm, .zp, .zpx, .abs, .absx, .absy, .indx, .indy]
  | .sta => [.zp, .zpx, .abs, .absx, .absy, .indx, .indy]
  | .cpx | .cpy => [.imm, .zp, .abs]
  | .bit => [.zp, .abs]
  | .ldx => [.imm, .zp, .zpy, .abs, .absy]
  | .ldy => [.imm, .zp, .zpx, .abs, .absx]
  | .stx => [.zp, .zpy, .abs]
  | .sty => [.zp, .zpx, .abs]
  | .asl | .lsr | .rol | .ror => [.acc, .zp, .zpx, .abs, .absx]
  | .inc | .dec => [.zp, .zpx, .abs, .absx]
  | .bcc | .bcs | .beq | .bmi | .bne | .bpl | .bvc | .bvs => [.rel]
  | .jmp => [.abs, .ind]
  | .jsr => [.abs]
  | .inx | .iny | .dex | .dey | .tax | .tay | .txa | .tya | .tsx | .txs | .pha | .php | .pla | .plp | .rts | .brk
  | .rti | .clc | .cld | .cli | .clv | .sec | .sed | .sei | .nop => [.imp]

/-- The decode table has a row of this mnemonic in this mode. -/
def formExists (m : Mnemonic) (mode : Mode) : Bool :=
  m.modes.contains mode

/-- An instruction is well formed: its form is one the decode table has. -/
def Instr.wf (i : Instr) : Bool :=
  formExists i.mnemonic i.mode

/-- The RAM window ends at or below the ROM (R9). -/
def Config.ramBelowRom (c : Config) : Bool :=
  c.ramBase + c.ramSize ≤ c.romBase

/-- The ROM ends inside the address space (R9). -/
def Config.romFits (c : Config) : Bool :=
  c.romBase + c.romSize ≤ 0x10000

/-- A batch has at least one instruction (R9). -/
def Config.batchPositive (c : Config) : Bool :=
  1 ≤ c.batch

/-- A ROM image has exactly the ROM's size (R9). -/
def Config.romImageFits (c : Config) (image : List Byte) : Bool :=
  image.length = c.romSize

/-- Well-formedness of a configuration (R9), less the ROM image, whose check is `Config.romImageFits`. -/
def Config.wf (c : Config) : Bool :=
  c.ramBelowRom && c.romFits && c.batchPositive

end Sys2Proof
end

