-- ==== Sys2Proof/Decode.lean ====
section
/-! DEFINITION. The decode table (30_encoding.md R94 to R98, spec/opcode_table.json), the decoder, total on any
bytes, the cycle columns of the table, the encoder, and the host's `decodeTableWord`. -/

namespace Sys2Proof

/-- One row of the decode table: an opcode byte with its mnemonic, its mode, and the instruction it makes of its
operand bytes (R94). -/
structure Row where
  opcode : Byte
  mnemonic : Mnemonic
  mode : Mode
  build : Byte → Byte → Instr

/-- A 16-bit operand from its two bytes, low byte first (R58, R93). -/
def word (lo hi : Byte) : Word :=
  hi ++ lo

/-- `lo(w)` (R10). -/
def loByte (w : Word) : Byte :=
  w.setWidth 8

/-- `hi(w)` (R10). -/
def hiByte (w : Word) : Byte :=
  (w >>> 8).setWidth 8

/-- Rows 0x and 1x of the opcode map (R95). -/
def decodeTable01 : List Row :=
  [⟨0x00, .brk, .imp, fun _ _ => .brk⟩,
   ⟨0x01, .ora, .indx, fun lo _ => .oraIndx lo⟩,
   ⟨0x05, .ora, .zp, fun lo _ => .oraZp lo⟩,
   ⟨0x06, .asl, .zp, fun lo _ => .aslZp lo⟩,
   ⟨0x08, .php, .imp, fun _ _ => .php⟩,
   ⟨0x09, .ora, .imm, fun lo _ => .oraImm lo⟩,
   ⟨0x0A, .asl, .acc, fun _ _ => .aslAcc⟩,
   ⟨0x0D, .ora, .abs, fun lo hi => .oraAbs (word lo hi)⟩,
   ⟨0x0E, .asl, .abs, fun lo hi => .aslAbs (word lo hi)⟩,
   ⟨0x10, .bpl, .rel, fun lo _ => .bpl lo⟩,
   ⟨0x11, .ora, .indy, fun lo _ => .oraIndy lo⟩,
   ⟨0x15, .ora, .zpx, fun lo _ => .oraZpx lo⟩,
   ⟨0x16, .asl, .zpx, fun lo _ => .aslZpx lo⟩,
   ⟨0x18, .clc, .imp, fun _ _ => .clc⟩,
   ⟨0x19, .ora, .absy, fun lo hi => .oraAbsy (word lo hi)⟩,
   ⟨0x1D, .ora, .absx, fun lo hi => .oraAbsx (word lo hi)⟩,
   ⟨0x1E, .asl, .absx, fun lo hi => .aslAbsx (word lo hi)⟩]

/-- Rows 2x and 3x of the opcode map (R95). -/
def decodeTable23 : List Row :=
  [⟨0x20, .jsr, .abs, fun lo hi => .jsr (word lo hi)⟩,
   ⟨0x21, .and, .indx, fun lo _ => .andIndx lo⟩,
   ⟨0x24, .bit, .zp, fun lo _ => .bitZp lo⟩,
   ⟨0x25, .and, .zp, fun lo _ => .andZp lo⟩,
   ⟨0x26, .rol, .zp, fun lo _ => .rolZp lo⟩,
   ⟨0x28, .plp, .imp, fun _ _ => .plp⟩,
   ⟨0x29, .and, .imm, fun lo _ => .andImm lo⟩,
   ⟨0x2A, .rol, .acc, fun _ _ => .rolAcc⟩,
   ⟨0x2C, .bit, .abs, fun lo hi => .bitAbs (word lo hi)⟩,
   ⟨0x2D, .and, .abs, fun lo hi => .andAbs (word lo hi)⟩,
   ⟨0x2E, .rol, .abs, fun lo hi => .rolAbs (word lo hi)⟩,
   ⟨0x30, .bmi, .rel, fun lo _ => .bmi lo⟩,
   ⟨0x31, .and, .indy, fun lo _ => .andIndy lo⟩,
   ⟨0x35, .and, .zpx, fun lo _ => .andZpx lo⟩,
   ⟨0x36, .rol, .zpx, fun lo _ => .rolZpx lo⟩,
   ⟨0x38, .sec, .imp, fun _ _ => .sec⟩,
   ⟨0x39, .and, .absy, fun lo hi => .andAbsy (word lo hi)⟩,
   ⟨0x3D, .and, .absx, fun lo hi => .andAbsx (word lo hi)⟩,
   ⟨0x3E, .rol, .absx, fun lo hi => .rolAbsx (word lo hi)⟩]

/-- Rows 4x and 5x of the opcode map (R95). -/
def decodeTable45 : List Row :=
  [⟨0x40, .rti, .imp, fun _ _ => .rti⟩,
   ⟨0x41, .eor, .indx, fun lo _ => .eorIndx lo⟩,
   ⟨0x45, .eor, .zp, fun lo _ => .eorZp lo⟩,
   ⟨0x46, .lsr, .zp, fun lo _ => .lsrZp lo⟩,
   ⟨0x48, .pha, .imp, fun _ _ => .pha⟩,
   ⟨0x49, .eor, .imm, fun lo _ => .eorImm lo⟩,
   ⟨0x4A, .lsr, .acc, fun _ _ => .lsrAcc⟩,
   ⟨0x4C, .jmp, .abs, fun lo hi => .jmpAbs (word lo hi)⟩,
   ⟨0x4D, .eor, .abs, fun lo hi => .eorAbs (word lo hi)⟩,
   ⟨0x4E, .lsr, .abs, fun lo hi => .lsrAbs (word lo hi)⟩,
   ⟨0x50, .bvc, .rel, fun lo _ => .bvc lo⟩,
   ⟨0x51, .eor, .indy, fun lo _ => .eorIndy lo⟩,
   ⟨0x55, .eor, .zpx, fun lo _ => .eorZpx lo⟩,
   ⟨0x56, .lsr, .zpx, fun lo _ => .lsrZpx lo⟩,
   ⟨0x58, .cli, .imp, fun _ _ => .cli⟩,
   ⟨0x59, .eor, .absy, fun lo hi => .eorAbsy (word lo hi)⟩,
   ⟨0x5D, .eor, .absx, fun lo hi => .eorAbsx (word lo hi)⟩,
   ⟨0x5E, .lsr, .absx, fun lo hi => .lsrAbsx (word lo hi)⟩]

/-- Rows 6x and 7x of the opcode map (R95). -/
def decodeTable67 : List Row :=
  [⟨0x60, .rts, .imp, fun _ _ => .rts⟩,
   ⟨0x61, .adc, .indx, fun lo _ => .adcIndx lo⟩,
   ⟨0x65, .adc, .zp, fun lo _ => .adcZp lo⟩,
   ⟨0x66, .ror, .zp, fun lo _ => .rorZp lo⟩,
   ⟨0x68, .pla, .imp, fun _ _ => .pla⟩,
   ⟨0x69, .adc, .imm, fun lo _ => .adcImm lo⟩,
   ⟨0x6A, .ror, .acc, fun _ _ => .rorAcc⟩,
   ⟨0x6C, .jmp, .ind, fun lo hi => .jmpInd (word lo hi)⟩,
   ⟨0x6D, .adc, .abs, fun lo hi => .adcAbs (word lo hi)⟩,
   ⟨0x6E, .ror, .abs, fun lo hi => .rorAbs (word lo hi)⟩,
   ⟨0x70, .bvs, .rel, fun lo _ => .bvs lo⟩,
   ⟨0x71, .adc, .indy, fun lo _ => .adcIndy lo⟩,
   ⟨0x75, .adc, .zpx, fun lo _ => .adcZpx lo⟩,
   ⟨0x76, .ror, .zpx, fun lo _ => .rorZpx lo⟩,
   ⟨0x78, .sei, .imp, fun _ _ => .sei⟩,
   ⟨0x79, .adc, .absy, fun lo hi => .adcAbsy (word lo hi)⟩,
   ⟨0x7D, .adc, .absx, fun lo hi => .adcAbsx (word lo hi)⟩,
   ⟨0x7E, .ror, .absx, fun lo hi => .rorAbsx (word lo hi)⟩]

/-- Rows 8x and 9x of the opcode map (R95). -/
def decodeTable89 : List Row :=
  [⟨0x81, .sta, .indx, fun lo _ => .staIndx lo⟩,
   ⟨0x84, .sty, .zp, fun lo _ => .styZp lo⟩,
   ⟨0x85, .sta, .zp, fun lo _ => .staZp lo⟩,
   ⟨0x86, .stx, .zp, fun lo _ => .stxZp lo⟩,
   ⟨0x88, .dey, .imp, fun _ _ => .dey⟩,
   ⟨0x8A, .txa, .imp, fun _ _ => .txa⟩,
   ⟨0x8C, .sty, .abs, fun lo hi => .styAbs (word lo hi)⟩,
   ⟨0x8D, .sta, .abs, fun lo hi => .staAbs (word lo hi)⟩,
   ⟨0x8E, .stx, .abs, fun lo hi => .stxAbs (word lo hi)⟩,
   ⟨0x90, .bcc, .rel, fun lo _ => .bcc lo⟩,
   ⟨0x91, .sta, .indy, fun lo _ => .staIndy lo⟩,
   ⟨0x94, .sty, .zpx, fun lo _ => .styZpx lo⟩,
   ⟨0x95, .sta, .zpx, fun lo _ => .staZpx lo⟩,
   ⟨0x96, .stx, .zpy, fun lo _ => .stxZpy lo⟩,
   ⟨0x98, .tya, .imp, fun _ _ => .tya⟩,
   ⟨0x99, .sta, .absy, fun lo hi => .staAbsy (word lo hi)⟩,
   ⟨0x9A, .txs, .imp, fun _ _ => .txs⟩,
   ⟨0x9D, .sta, .absx, fun lo hi => .staAbsx (word lo hi)⟩]

/-- Rows Ax and Bx of the opcode map (R95). -/
def decodeTableAB : List Row :=
  [⟨0xA0, .ldy, .imm, fun lo _ => .ldyImm lo⟩,
   ⟨0xA1, .lda, .indx, fun lo _ => .ldaIndx lo⟩,
   ⟨0xA2, .ldx, .imm, fun lo _ => .ldxImm lo⟩,
   ⟨0xA4, .ldy, .zp, fun lo _ => .ldyZp lo⟩,
   ⟨0xA5, .lda, .zp, fun lo _ => .ldaZp lo⟩,
   ⟨0xA6, .ldx, .zp, fun lo _ => .ldxZp lo⟩,
   ⟨0xA8, .tay, .imp, fun _ _ => .tay⟩,
   ⟨0xA9, .lda, .imm, fun lo _ => .ldaImm lo⟩,
   ⟨0xAA, .tax, .imp, fun _ _ => .tax⟩,
   ⟨0xAC, .ldy, .abs, fun lo hi => .ldyAbs (word lo hi)⟩,
   ⟨0xAD, .lda, .abs, fun lo hi => .ldaAbs (word lo hi)⟩,
   ⟨0xAE, .ldx, .abs, fun lo hi => .ldxAbs (word lo hi)⟩,
   ⟨0xB0, .bcs, .rel, fun lo _ => .bcs lo⟩,
   ⟨0xB1, .lda, .indy, fun lo _ => .ldaIndy lo⟩,
   ⟨0xB4, .ldy, .zpx, fun lo _ => .ldyZpx lo⟩,
   ⟨0xB5, .lda, .zpx, fun lo _ => .ldaZpx lo⟩,
   ⟨0xB6, .ldx, .zpy, fun lo _ => .ldxZpy lo⟩,
   ⟨0xB8, .clv, .imp, fun _ _ => .clv⟩,
   ⟨0xB9, .lda, .absy, fun lo hi => .ldaAbsy (word lo hi)⟩,
   ⟨0xBA, .tsx, .imp, fun _ _ => .tsx⟩,
   ⟨0xBC, .ldy, .absx, fun lo hi => .ldyAbsx (word lo hi)⟩,
   ⟨0xBD, .lda, .absx, fun lo hi => .ldaAbsx (word lo hi)⟩,
   ⟨0xBE, .ldx, .absy, fun lo hi => .ldxAbsy (word lo hi)⟩]

/-- Rows Cx and Dx of the opcode map (R95). -/
def decodeTableCD : List Row :=
  [⟨0xC0, .cpy, .imm, fun lo _ => .cpyImm lo⟩,
   ⟨0xC1, .cmp, .indx, fun lo _ => .cmpIndx lo⟩,
   ⟨0xC4, .cpy, .zp, fun lo _ => .cpyZp lo⟩,
   ⟨0xC5, .cmp, .zp, fun lo _ => .cmpZp lo⟩,
   ⟨0xC6, .dec, .zp, fun lo _ => .decZp lo⟩,
   ⟨0xC8, .iny, .imp, fun _ _ => .iny⟩,
   ⟨0xC9, .cmp, .imm, fun lo _ => .cmpImm lo⟩,
   ⟨0xCA, .dex, .imp, fun _ _ => .dex⟩,
   ⟨0xCC, .cpy, .abs, fun lo hi => .cpyAbs (word lo hi)⟩,
   ⟨0xCD, .cmp, .abs, fun lo hi => .cmpAbs (word lo hi)⟩,
   ⟨0xCE, .dec, .abs, fun lo hi => .decAbs (word lo hi)⟩,
   ⟨0xD0, .bne, .rel, fun lo _ => .bne lo⟩,
   ⟨0xD1, .cmp, .indy, fun lo _ => .cmpIndy lo⟩,
   ⟨0xD5, .cmp, .zpx, fun lo _ => .cmpZpx lo⟩,
   ⟨0xD6, .dec, .zpx, fun lo _ => .decZpx lo⟩,
   ⟨0xD8, .cld, .imp, fun _ _ => .cld⟩,
   ⟨0xD9, .cmp, .absy, fun lo hi => .cmpAbsy (word lo hi)⟩,
   ⟨0xDD, .cmp, .absx, fun lo hi => .cmpAbsx (word lo hi)⟩,
   ⟨0xDE, .dec, .absx, fun lo hi => .decAbsx (word lo hi)⟩]

/-- Rows Ex and Fx of the opcode map (R95). -/
def decodeTableEF : List Row :=
  [⟨0xE0, .cpx, .imm, fun lo _ => .cpxImm lo⟩,
   ⟨0xE1, .sbc, .indx, fun lo _ => .sbcIndx lo⟩,
   ⟨0xE4, .cpx, .zp, fun lo _ => .cpxZp lo⟩,
   ⟨0xE5, .sbc, .zp, fun lo _ => .sbcZp lo⟩,
   ⟨0xE6, .inc, .zp, fun lo _ => .incZp lo⟩,
   ⟨0xE8, .inx, .imp, fun _ _ => .inx⟩,
   ⟨0xE9, .sbc, .imm, fun lo _ => .sbcImm lo⟩,
   ⟨0xEA, .nop, .imp, fun _ _ => .nop⟩,
   ⟨0xEC, .cpx, .abs, fun lo hi => .cpxAbs (word lo hi)⟩,
   ⟨0xED, .sbc, .abs, fun lo hi => .sbcAbs (word lo hi)⟩,
   ⟨0xEE, .inc, .abs, fun lo hi => .incAbs (word lo hi)⟩,
   ⟨0xF0, .beq, .rel, fun lo _ => .beq lo⟩,
   ⟨0xF1, .sbc, .indy, fun lo _ => .sbcIndy lo⟩,
   ⟨0xF5, .sbc, .zpx, fun lo _ => .sbcZpx lo⟩,
   ⟨0xF6, .inc, .zpx, fun lo _ => .incZpx lo⟩,
   ⟨0xF8, .sed, .imp, fun _ _ => .sed⟩,
   ⟨0xF9, .sbc, .absy, fun lo hi => .sbcAbsy (word lo hi)⟩,
   ⟨0xFD, .sbc, .absx, fun lo hi => .sbcAbsx (word lo hi)⟩,
   ⟨0xFE, .inc, .absx, fun lo hi => .incAbsx (word lo hi)⟩]

/-- The decode table: the 151 defined opcodes (R94, R96). -/
def decodeTable : List Row :=
  decodeTable01 ++ decodeTable23 ++ decodeTable45 ++ decodeTable67 ++
  decodeTable89 ++ decodeTableAB ++ decodeTableCD ++ decodeTableEF

/-- `Decode(op)`: the opcode's row, or none where the opcode is Absent (R94, R97). -/
def lookup (op : Byte) : Option Row :=
  decodeTable.find? (fun r => r.opcode == op)

/-- Why bytes are no instruction. -/
inductive DecodeError where
  /-- There is no opcode byte. -/
  | empty
  /-- The opcode is one of the 105 Absent values (R97). -/
  | absentOpcode (op : Byte)
  /-- An operand byte is missing (R91). -/
  | truncated (op : Byte)
  deriving DecidableEq, Repr

/-- The instruction a row makes of the bytes after its opcode, with the rest of the bytes. -/
def Row.assemble (r : Row) (bytes : List Byte) : Except DecodeError (Instr × List Byte) :=
  match r.mode.operandBytes, bytes with
  | 0, rest => .ok (r.build 0 0, rest)
  | 1, lo :: rest => .ok (r.build lo 0, rest)
  | 2, lo :: hi :: rest => .ok (r.build lo hi, rest)
  | _, _ => .error (.truncated r.opcode)

/-- The decoder: the first instruction of a list of bytes, and the bytes after it (R90, R94, R98). -/
def decode : List Byte → Except DecodeError (Instr × List Byte)
  | [] => .error .empty
  | op :: rest =>
    match lookup op with
    | none => .error (.absentOpcode op)
    | some r => r.assemble rest

/-- `Length(op)`; none for an Absent opcode (R98). -/
def opcodeLength (op : Byte) : Option Nat :=
  (lookup op).map (fun r => 1 + r.mode.operandBytes)

/-- The indexed-write flag `iw`: the memory shifts, INC and DEC in absx, and STA in absx, absy and indy (R92, D13). -/
def indexedWrite (m : Mnemonic) (mode : Mode) : Bool :=
  match mode with
  | .absx => m.isShift || m = .inc || m = .dec || m = .sta
  | .absy | .indy => m = .sta
  | _ => false

/-- The mode delta: what the mode stage adds to `cycles` (R92). -/
def modeDelta (mode : Mode) (iw : Bool) : Int :=
  match mode with
  | .imp | .acc | .imm | .rel => 0
  | .zp => 1
  | .zpx | .zpy | .abs | .ind => 2
  | .absx | .absy => if iw then 3 else 2
  | .indx => 4
  | .indy => if iw then 4 else 3

/-- The mode delta of a row of the table. -/
def Row.delta (r : Row) : Int :=
  modeDelta r.mode (indexedWrite r.mnemonic r.mode)

/-- `OP_EXTRA(op)`: 0 for an opcode the parameter does not list (R123). -/
def Config.extra (c : Config) (op : Byte) : Int :=
  (c.opExtra.lookup op).getD 0

/-- The cycles an instruction of this row costs when no branch is taken (R126). -/
def Row.cycles (r : Row) (c : Config) : Int :=
  2 + r.delta + c.extra r.opcode

/-! The encoder. -/

/-- The opcode byte of an instruction (R96). -/
def Instr.opcode : Instr → Byte
  | .adcImm _ => 0x69
  | .adcZp _ => 0x65
  | .adcZpx _ => 0x75
  | .adcAbs _ => 0x6D
  | .adcAbsx _ => 0x7D
  | .adcAbsy _ => 0x79
  | .adcIndx _ => 0x61
  | .adcIndy _ => 0x71
  | .sbcImm _ => 0xE9
  | .sbcZp _ => 0xE5
  | .sbcZpx _ => 0xF5
  | .sbcAbs _ => 0xED
  | .sbcAbsx _ => 0xFD
  | .sbcAbsy _ => 0xF9
  | .sbcIndx _ => 0xE1
  | .sbcIndy _ => 0xF1
  | .andImm _ => 0x29
  | .andZp _ => 0x25
  | .andZpx _ => 0x35
  | .andAbs _ => 0x2D
  | .andAbsx _ => 0x3D
  | .andAbsy _ => 0x39
  | .andIndx _ => 0x21
  | .andIndy _ => 0x31
  | .oraImm _ => 0x09
  | .oraZp _ => 0x05
  | .oraZpx _ => 0x15
  | .oraAbs _ => 0x0D
  | .oraAbsx _ => 0x1D
  | .oraAbsy _ => 0x19
  | .oraIndx _ => 0x01
  | .oraIndy _ => 0x11
  | .eorImm _ => 0x49
  | .eorZp _ => 0x45
  | .eorZpx _ => 0x55
  | .eorAbs _ => 0x4D
  | .eorAbsx _ => 0x5D
  | .eorAbsy _ => 0x59
  | .eorIndx _ => 0x41
  | .eorIndy _ => 0x51
  | .cmpImm _ => 0xC9
  | .cmpZp _ => 0xC5
  | .cmpZpx _ => 0xD5
  | .cmpAbs _ => 0xCD
  | .cmpAbsx _ => 0xDD
  | .cmpAbsy _ => 0xD9
  | .cmpIndx _ => 0xC1
  | .cmpIndy _ => 0xD1
  | .cpxImm _ => 0xE0
  | .cpxZp _ => 0xE4
  | .cpxAbs _ => 0xEC
  | .cpyImm _ => 0xC0
  | .cpyZp _ => 0xC4
  | .cpyAbs _ => 0xCC
  | .bitZp _ => 0x24
  | .bitAbs _ => 0x2C
  | .ldaImm _ => 0xA9
  | .ldaZp _ => 0xA5
  | .ldaZpx _ => 0xB5
  | .ldaAbs _ => 0xAD
  | .ldaAbsx _ => 0xBD
  | .ldaAbsy _ => 0xB9
  | .ldaIndx _ => 0xA1
  | .ldaIndy _ => 0xB1
  | .ldxImm _ => 0xA2
  | .ldxZp _ => 0xA6
  | .ldxZpy _ => 0xB6
  | .ldxAbs _ => 0xAE
  | .ldxAbsy _ => 0xBE
  | .ldyImm _ => 0xA0
  | .ldyZp _ => 0xA4
  | .ldyZpx _ => 0xB4
  | .ldyAbs _ => 0xAC
  | .ldyAbsx _ => 0xBC
  | .staZp _ => 0x85
  | .staZpx _ => 0x95
  | .staAbs _ => 0x8D
  | .staAbsx _ => 0x9D
  | .staAbsy _ => 0x99
  | .staIndx _ => 0x81
  | .staIndy _ => 0x91
  | .stxZp _ => 0x86
  | .stxZpy _ => 0x96
  | .stxAbs _ => 0x8E
  | .styZp _ => 0x84
  | .styZpx _ => 0x94
  | .styAbs _ => 0x8C
  | .aslAcc => 0x0A
  | .aslZp _ => 0x06
  | .aslZpx _ => 0x16
  | .aslAbs _ => 0x0E
  | .aslAbsx _ => 0x1E
  | .lsrAcc => 0x4A
  | .lsrZp _ => 0x46
  | .lsrZpx _ => 0x56
  | .lsrAbs _ => 0x4E
  | .lsrAbsx _ => 0x5E
  | .rolAcc => 0x2A
  | .rolZp _ => 0x26
  | .rolZpx _ => 0x36
  | .rolAbs _ => 0x2E
  | .rolAbsx _ => 0x3E
  | .rorAcc => 0x6A
  | .rorZp _ => 0x66
  | .rorZpx _ => 0x76
  | .rorAbs _ => 0x6E
  | .rorAbsx _ => 0x7E
  | .incZp _ => 0xE6
  | .incZpx _ => 0xF6
  | .incAbs _ => 0xEE
  | .incAbsx _ => 0xFE
  | .decZp _ => 0xC6
  | .decZpx _ => 0xD6
  | .decAbs _ => 0xCE
  | .decAbsx _ => 0xDE
  | .inx => 0xE8
  | .iny => 0xC8
  | .dex => 0xCA
  | .dey => 0x88
  | .tax => 0xAA
  | .tay => 0xA8
  | .txa => 0x8A
  | .tya => 0x98
  | .tsx => 0xBA
  | .txs => 0x9A
  | .pha => 0x48
  | .php => 0x08
  | .pla => 0x68
  | .plp => 0x28
  | .bcc _ => 0x90
  | .bcs _ => 0xB0
  | .beq _ => 0xF0
  | .bmi _ => 0x30
  | .bne _ => 0xD0
  | .bpl _ => 0x10
  | .bvc _ => 0x50
  | .bvs _ => 0x70
  | .jmpAbs _ => 0x4C
  | .jmpInd _ => 0x6C
  | .jsr _ => 0x20
  | .rts => 0x60
  | .brk => 0x00
  | .rti => 0x40
  | .clc => 0x18
  | .cld => 0xD8
  | .cli => 0x58
  | .clv => 0xB8
  | .sec => 0x38
  | .sed => 0xF8
  | .sei => 0x78
  | .nop => 0xEA

/-- The operand bytes after the opcode, low byte first (R91). -/
def Operand.bytes : Operand → List Byte
  | .imm b | .zp b | .zpx b | .zpy b | .indx b | .indy b | .rel b => [b]
  | .abs w | .absx w | .absy w | .ind w => [loByte w, hiByte w]

/-- The bytes of an instruction after its opcode. -/
def Instr.operandBytes (i : Instr) : List Byte :=
  match i.operand with
  | none => []
  | some o => o.bytes

/-- The bytes of an instruction, in memory order (R90, R91). -/
def encode (i : Instr) : List Byte :=
  i.opcode :: i.operandBytes

/-- The length of an instruction in bytes (R91). -/
def Instr.length (i : Instr) : Nat :=
  1 + i.mode.operandBytes

/-- The three bytes of a word the opcode table numbers, the first byte lowest, the bits above `nbits` zero. -/
def tableWordBytes (nbits w : Nat) : List Byte :=
  let v := w % 2 ^ nbits
  [BitVec.ofNat 8 v, BitVec.ofNat 8 (v / 256), BitVec.ofNat 8 (v / 65536)]

/-- The host's question: the instruction the decoder reads from the table's numbering of its bits. -/
def decodeTableWord (nbits w : Nat) : Option Instr :=
  match decode (tableWordBytes nbits w) with
  | .ok (i, _) => some i
  | .error _ => none

end Sys2Proof
end

