-- ==== Sys2Proof/Machine/State.lean ====
section
/-! DEFINITION. The machine's state as plain data (10_state.md R20 to R35), the bus frames (20_memory.md R66, R77),
the fault records (60_exceptions.md R271), the host's commands and their answers (R285), and the state at
construction. -/

namespace Sys2Proof.Machine

/-- The seven stored flags (R24). -/
structure Flags where
  /-- carry -/
  c : Bool
  /-- zero -/
  z : Bool
  /-- interrupt_disable -/
  i : Bool
  /-- decimal_mode -/
  d : Bool
  /-- break -/
  b : Bool
  /-- overflow -/
  v : Bool
  /-- sign -/
  n : Bool
  deriving DecidableEq, Repr

/-- Whether an access or a frame reads or writes (R56, R66). -/
inductive Access where
  | read
  | write
  deriving DecidableEq, Repr

/-- A bus frame (R66): the cycle stamp modulo 2^32, the direction, the address, the value. -/
structure Frame where
  cycle : BitVec 32
  direction : Access
  address : Word
  value : Byte
  deriving DecidableEq, Repr

/-- One entry of the bus trace: a frame that was exchanged, a read with its reply byte (R77). -/
structure BusEvent where
  frame : Frame
  reply : Option Byte
  deriving DecidableEq, Repr

/-- The fatal faults and what each records (R29, R271). -/
inductive FaultRecord where
  /-- Code 2: ADC or SBC at `a0`, opcode `op`, with D = 1 (R142). -/
  | decimalMode (a0 : Word) (op : Byte)
  /-- Code 3: an access to an address in no region (R56). -/
  | decodeViolation (a : Word) (access : Access)
  /-- Code 4: the bus exchange of this frame failed (R69). -/
  | transportFailure (frame : Frame)
  deriving DecidableEq, Repr

/-- A command of the host (R285). -/
inductive HostCommand where
  /-- "get CPU status": all registers, flags and `cycles`. -/
  | status
  /-- `MemRead` of each address from `first` to `last`, ascending. -/
  | readMemory (first last : Word)
  /-- `MemWrite` of each byte, ascending from `first`. -/
  | writeMemory (first : Word) (bytes : List Byte)
  /-- Decode `count` instructions from `first`, their bytes read with `MemRead`. -/
  | disassemble (first : Word) (count : Nat)
  /-- The reset command (R302). -/
  | reset
  /-- The quit command (R288). -/
  | quit
  deriving DecidableEq, Repr

/-- What a host command returns (R285, D26). -/
inductive HostResponse where
  /-- A, X, Y, SP, PC, `StatusByte()` (R25), which packs the seven flags, and `cycles`. -/
  | status (a x y sp : Byte) (pc : Word) (p : Byte) (cycles : Nat)
  /-- The bytes of a memory read, ascending. -/
  | memory (bytes : List Byte)
  /-- Each address with the instruction there, none for an Absent opcode. -/
  | disassembly (lines : List (Word × Option Instr))
  deriving DecidableEq, Repr

/-- The machine's state. -/
structure State where
  /-- accumulator (R20) -/
  a : Byte
  /-- x_index (R20) -/
  x : Byte
  /-- y_index (R20) -/
  y : Byte
  /-- stack pointer, page-relative (R22) -/
  sp : Byte
  /-- program counter (R23) -/
  pc : Word
  /-- the seven flags (R24) -/
  flags : Flags
  /-- RAM and ROM, by absolute address, in canonical form (R31; log 13): see `Memory.wf` -/
  mem : List Host.Cell
  /-- the cycle counter, unbounded (R32) -/
  cycles : Nat
  /-- the loop is enabled (R28) -/
  running : Bool
  /-- the host asked to end the run (R28, R288) -/
  quit : Bool
  /-- the opcode address and the opcode byte of the unknown-opcode halt (R29, R272) -/
  haltInfo : Option (Word × Byte)
  /-- the fatal fault that ended the run (R29, R271) -/
  fault : Option FaultRecord
  /-- the bus trace, oldest first (R77; log 15) -/
  trace : List BusEvent
  /-- MODEL's own: how the next bus exchanges end; after the list, `Config.peerAnswer` (log 7) -/
  peer : List Exchange
  /-- MODEL's own: host commands requested and not yet serviced, oldest first (log 14) -/
  pending : List HostCommand
  /-- MODEL's own: what the serviced commands returned, oldest first (log 14) -/
  responses : List HostResponse
  /-- MODEL's own: instructions left before the next service point (R286; log 14) -/
  batchLeft : Nat
  /-- the parameters, never changed (R8; log 1) -/
  cfg : Config
  deriving DecidableEq, Repr

/-- Why the machine stops for good (R271). Each carries the state at the failing access, with `fault` set: of that
state only `fault` and `trace` are observable (R274, R291; log 10). -/
inductive Fault where
  /-- Raised by ADC and SBC with D = 1 (R142). Safe: the spec ends the run here. -/
  | decimalMode (a0 : Word) (op : Byte) (final : State)
  /-- Raised by any access to an address in no region (R56). Safe: the spec ends the run here (D18). -/
  | decodeViolation (a : Word) (access : Access) (final : State)
  /-- Raised by a bus read or a forwarded write whose exchange fails (R69). Safe: the spec ends the run here. -/
  | transportFailure (frame : Frame) (final : State)
  deriving DecidableEq, Repr

/-- Why an instruction has no meaning. -/
inductive Refusal where
  /-- An instruction of the table without a meaning yet, raised by its arm of `exec`. Safe: the model stops. -/
  | notModelled (mnemonic : String)
  deriving DecidableEq, Repr

/-- The registers and flags at construction, the parameter `POWER_ON` (R8). -/
structure PowerOn where
  a : Byte
  x : Byte
  y : Byte
  sp : Byte
  flags : Flags
  deriving DecidableEq, Repr

/-- The reference `POWER_ON`: A = X = Y = 0, SP = 0xFF, all flags 0 except B. PRESUMED (R34, D19; log 3). -/
def PowerOn.reference : PowerOn where
  a := 0x00
  x := 0x00
  y := 0x00
  sp := 0xFF
  flags := { c := false, z := false, i := false, d := false, b := true, v := false, n := false }

/-- The state at construction before PC is loaded (R34, R300): memory holds `mem`. -/
def State.initial (cfg : Config) (power : PowerOn) (mem : List Host.Cell) : State where
  a := power.a
  x := power.x
  y := power.y
  sp := power.sp
  pc := 0x0000
  flags := power.flags
  mem := mem
  cycles := 0
  running := true
  quit := false
  haltInfo := none
  fault := none
  trace := []
  peer := []
  pending := []
  responses := []
  batchLeft := cfg.batch
  cfg := cfg

/-- The machine at construction with the reference parameters, no preloaded RAM and an empty ROM, so that the reset
vector reads 0x0000. PRESUMED registers (log 3), memory (log 4), DESIGN CHOICE ROM and PC (log 5). -/
def State.reset : State :=
  State.initial Config.reference PowerOn.reference []

end Sys2Proof.Machine
end

