-- ==== Sys2Proof/Machine/Flags.lean ====
section
/-! DEFINITION. The flag engine and the ALU's computations as pure functions over bytes and flags: the status byte
(10_state.md R25), `update_nz` and `update_nzc` (40_alu.md R140, R141), and the trial sums of 40_alu.md and
42_rmw.md on unbounded integers (R10, R152). -/

namespace Sys2Proof.Machine

/-- `[cond]` as an integer (R11). -/
def bitInt (b : Bool) : Int :=
  if b then 1 else 0

/-- `StatusByte()`: N V 1 B D I Z C from bit 7 down (R25, D2). -/
def statusByte (f : Flags) : Byte :=
  BitVec.ofBool f.n ++ BitVec.ofBool f.v ++ 1#1 ++ BitVec.ofBool f.b ++ BitVec.ofBool f.d ++ BitVec.ofBool f.i ++
    BitVec.ofBool f.z ++ BitVec.ofBool f.c

/-- `SetStatus(p)`: bit 5 is ignored (R25). -/
def setStatus (p : Byte) : Flags where
  c := p.getLsbD 0
  z := p.getLsbD 1
  i := p.getLsbD 2
  d := p.getLsbD 3
  b := p.getLsbD 4
  v := p.getLsbD 6
  n := p.getLsbD 7

/-- `v mod 256` of an integer, also a negative one (R10). -/
def mod256 (v : Int) : Byte :=
  BitVec.ofInt 8 v

/-- `update_nz(v)` (R140). -/
def updateNz (v : Int) (f : Flags) : Byte × Flags :=
  let r := mod256 v
  (r, { f with z := r == 0, n := r.getLsbD 7 })

/-- `update_nzc(v)` (R141). -/
def updateNzc (v : Int) (f : Flags) : Byte × Flags :=
  updateNz v { f with c := 255 < v }

/-- V: the two's-complement trial falls outside -128..127 (R152). -/
def signedOverflow (s : Int) : Bool :=
  127 < s || s < -128

/-- ADC's sum and flags (R143): both trials read C before it is rewritten. -/
def adcResult (a m : Byte) (f : Flags) : Byte × Flags :=
  let s := a.toInt + m.toInt + bitInt f.c
  let u := (a.toNat : Int) + m.toNat + bitInt f.c
  let (r, g) := updateNzc u f
  (r, { g with v := signedOverflow s })

/-- SBC's difference and flags; C = 1 means no borrow (R144). -/
def sbcResult (a m : Byte) (f : Flags) : Byte × Flags :=
  let s := a.toInt - m.toInt - (1 - bitInt f.c)
  let u := (a.toNat : Int) - m.toNat - (1 - bitInt f.c)
  let (r, g) := updateNz u f
  (r, { g with c := 0 ≤ u, v := signedOverflow s })

/-- The flags after comparing a register with a byte (R148): no borrow term, V unchanged. -/
def compareFlags (reg m : Byte) (f : Flags) : Flags :=
  let r := (reg.toNat : Int) - m.toNat
  (updateNz r { f with c := 0 ≤ r }).2

/-- The flags after BIT: N and V are bits 7 and 6 of the operand, Z is of the AND (R151). -/
def bitFlags (a m : Byte) (f : Flags) : Flags :=
  { f with n := m.getLsbD 7, v := m.getLsbD 6, z := (a &&& m) == 0 }

/-- ASL (R191). -/
def aslResult (m : Byte) (f : Flags) : Byte × Flags :=
  updateNzc (m.toNat * 2 : Nat) f

/-- LSR (R192). -/
def lsrResult (m : Byte) (f : Flags) : Byte × Flags :=
  updateNz (m.toNat / 2 : Nat) { f with c := m.getLsbD 0 }

/-- ROL: the old C into bit 0, the old bit 7 into C (R193). -/
def rolResult (m : Byte) (f : Flags) : Byte × Flags :=
  updateNzc (m.toNat * 2 + f.c.toNat : Nat) f

/-- ROR: the old C into bit 7, the old bit 0 into C (R194). -/
def rorResult (m : Byte) (f : Flags) : Byte × Flags :=
  let t := m.toNat + f.c.toNat * 256
  updateNz (t / 2 : Nat) { f with c := t % 2 = 1 }

/-- INC, INX, INY (R195, R197, R198). -/
def incResult (m : Byte) (f : Flags) : Byte × Flags :=
  updateNz (m.toNat + 1) f

/-- DEC, DEX, DEY (R196, R199, R200). -/
def decResult (m : Byte) (f : Flags) : Byte × Flags :=
  updateNz (m.toNat - 1) f

/-- A byte loaded or transferred (R170 to R172, R210 to R214, R218). -/
def loadResult (m : Byte) (f : Flags) : Byte × Flags :=
  updateNz m.toNat f

end Sys2Proof.Machine
end

