-- ==== Sys2Proof/Machine/Ops.lean ====
section
/-! DEFINITION. The named operations over the state: actions and faults, memory in canonical form, the region decode
and the access primitives (20_memory.md R51 to R60), the bus exchange (R66 to R69), the stack (R62 to R64), the
register writes, and the trap entry with its return (60_exceptions.md R278, R279). -/

namespace Sys2Proof.Machine

/-- The three outcomes of an instruction or a step. -/
abbrev Result := Host.Outcome State Fault Refusal

/-- A piece of an instruction: it changes the state and returns a value, or raises a fatal fault (R14). Its statements
run in program order, and nothing runs after a fault (R70, R274). -/
abbrev Act (α : Type) := StateT State (Except Fault) α

/-- An action run to its end as an instruction. -/
def Act.outcome (act : Act Unit) (s : State) : Result :=
  match act s with
  | .ok (_, t) => .next t
  | .error r => .fault r

/-- Reads something of the state. -/
def Act.get {α : Type} (f : State → α) : Act α :=
  fun s => .ok (f s, s)

/-- Changes the state. -/
def Act.update (f : State → State) : Act Unit :=
  fun s => .ok ((), f s)

/-- The stop that a fault record stands for, with the state at the failing access. -/
def FaultRecord.toFault (r : FaultRecord) (final : State) : Fault :=
  match r with
  | .decimalMode a0 op => .decimalMode a0 op final
  | .decodeViolation a access => .decodeViolation a access final
  | .transportFailure frame => .transportFailure frame final

/-- `raise Fault(kind, info)`: sets `fault` and ends the run (R14, R271). -/
def raise {α : Type} (r : FaultRecord) : Act α :=
  fun s => .error (r.toFault { s with fault := some r })

/-- The fault's code (R271, D27). -/
def FaultRecord.code : FaultRecord → Nat
  | .decimalMode _ _ => 2
  | .decodeViolation _ _ => 3
  | .transportFailure _ => 4

/-! ### Memory -/

/-- What an address that is not listed holds: zero (D20; log 4, log 5). -/
def Memory.unlisted : Byte := 0

/-- The byte at an address. -/
def Memory.read : List Host.Cell → Nat → Byte
  | [], _ => Memory.unlisted
  | (k, b) :: rest, a => if k = a then b else Memory.read rest a

/-- Stores a byte, keeping the canonical form. -/
def Memory.write : List Host.Cell → Nat → Byte → List Host.Cell
  | [], a, b => if b = Memory.unlisted then [] else [(a, b)]
  | (k, v) :: rest, a, b =>
    if a < k then (if b = Memory.unlisted then (k, v) :: rest else (a, b) :: (k, v) :: rest)
    else if a = k then (if b = Memory.unlisted then rest else (a, b) :: rest)
    else (k, v) :: Memory.write rest a b

/-- The cells from address `lo` up are strictly rising, inside the 65536-byte space (R50), none equal to what an
unlisted address holds. -/
def Memory.wfFrom (lo : Nat) : List Host.Cell → Bool
  | [] => true
  | (k, b) :: rest => decide (lo ≤ k) && decide (k < 0x10000) && b != Memory.unlisted && Memory.wfFrom (k + 1) rest

/-- The canonical form of memory. -/
def Memory.wf (m : List Host.Cell) : Bool :=
  Memory.wfFrom 0 m

/-- Loads an image at consecutive addresses from `base` (R300). -/
def Memory.load : List Host.Cell → Nat → List Byte → List Host.Cell
  | m, _, [] => m
  | m, base, b :: rest => Memory.load (Memory.write m base b) (base + 1) rest

/-- The byte RAM or ROM holds at an address. -/
def State.byteAt (s : State) (a : Word) : Byte :=
  Memory.read s.mem a.toNat

/-! ### Region decode -/

/-- Where an address leads (R51); `unmapped` is the spec's NONE. -/
inductive Region where
  | ram
  | bus
  | rom
  | unmapped
  deriving DecidableEq, Repr

/-- `Region(a)`: RAM first, then the bus window below the ROM, then ROM, else none (R51). -/
def region (c : Config) (a : Word) : Region :=
  if c.ramBase ≤ a.toNat ∧ a.toNat < c.ramBase + c.ramSize then .ram
  else if a.toNat < c.romBase then .bus
  else if a.toNat < c.romBase + c.romSize then .rom
  else .unmapped

/-- `InVideo(a)` (R52). -/
def inVideo (c : Config) (a : Word) : Bool :=
  c.videoWindows.any (fun w => w.1.toNat ≤ a.toNat && a.toNat ≤ w.2.toNat)

/-- `Forwarded(a)` (R52, D16). -/
def forwarded (c : Config) (a : Word) : Bool :=
  inVideo c a || (region c a == .bus && c.forwardBusWindowWrites)

/-! ### The bus -/

/-- A frame as its eight bytes, little-endian (R66). -/
def Frame.bytes (f : Frame) : List Byte :=
  [f.cycle.setWidth 8, (f.cycle >>> 8).setWidth 8, (f.cycle >>> 16).setWidth 8, (f.cycle >>> 24).setWidth 8] ++
  [if f.direction = .write then 1 else 0, loByte f.address, hiByte f.address, f.value]

/-- The read request of address `a` at cycle count `c`, value 0x00 (R67, D14, D15). -/
def readFrame (c : Nat) (a : Word) : Frame where
  cycle := BitVec.ofNat 32 c
  direction := .read
  address := a
  value := 0

/-- The write notification of `v` to `a` at cycle count `c` (R68, D14). -/
def writeFrame (c : Nat) (a : Word) (v : Byte) : Frame where
  cycle := BitVec.ofNat 32 c
  direction := .write
  address := a
  value := v

/-- How the next bus exchange ends, and the answers left after it: the listed answer, else the free value of this
exchange's number (U5; log 7). -/
def nextExchange (s : State) : Exchange × List Exchange :=
  match s.peer with
  | e :: rest => (e, rest)
  | [] => (Config.peerAnswer s.trace.length, [])

/-- Sends a frame and completes its exchange, or raises `TransportFailure` (R67 to R69). It returns the reply byte,
which only a read uses. -/
def exchange (f : Frame) : Act Byte := fun s =>
  match nextExchange s with
  | (.fail, _) => raise (.transportFailure f) s
  | (.ok b, rest) =>
    let reply := if f.direction = .read then some b else none
    .ok (b, { s with peer := rest, trace := s.trace ++ [{ frame := f, reply := reply }] })

/-! ### Access primitives -/

/-- `MemRead(a, 1)` (R53, R56). -/
def memRead (a : Word) : Act Byte := fun s =>
  match region s.cfg a with
  | .ram | .rom => .ok (s.byteAt a, s)
  | .bus => exchange (readFrame s.cycles a) s
  | .unmapped => raise (.decodeViolation a .read) s

/-- The RAM side of a store: only a RAM address takes the byte (R54, R55, R57). -/
def State.storeRam (s : State) (a : Word) (v : Byte) : State :=
  if region s.cfg a = .ram then { s with mem := Memory.write s.mem a.toNat v } else s

/-- `MemWrite(a, 1, v)` (R54 to R57): RAM takes the byte, and a forwarded address also sends a frame. -/
def memWrite (a : Word) (v : Byte) : Act Unit := fun s =>
  if region s.cfg a = .unmapped then raise (.decodeViolation a .write) s
  else if forwarded s.cfg a then
    match exchange (writeFrame s.cycles a v) (s.storeRam a v) with
    | .ok (_, t) => .ok ((), t)
    | .error r => .error r
  else .ok ((), s.storeRam a v)

/-- `ReadWord(a)`: low byte, then high byte at the next address (R59). -/
def readWord (a : Word) : Act Word := do
  let lo ← memRead a
  let hi ← memRead (a + 1)
  pure (word lo hi)

/-- The address of the high byte of a page-wrapped word: the page of `a` is kept (R60). -/
def pageWrapNext (a : Word) : Word :=
  (a &&& 0xFF00) ||| ((a + 1) &&& 0x00FF)

/-- `ReadWordBug(a)`: the high byte comes from the same page (R60). -/
def readWordBug (a : Word) : Act Word := do
  let lo ← memRead a
  let hi ← memRead (pageWrapNext a)
  pure (word lo hi)

/-! ### Registers and cycles -/

/-- `SP <- v`. -/
def setSp (v : Byte) : Act Unit := Act.update fun s => { s with sp := v }

/-- `PC <- target`. -/
def setPc (target : Word) : Act Unit := Act.update fun s => { s with pc := target }

/-- Writes all seven flags. -/
def setFlags (f : Flags) : Act Unit := Act.update fun s => { s with flags := f }

/-- Changes some flags. -/
def changeFlags (f : Flags → Flags) : Act Unit := Act.update fun s => { s with flags := f s.flags }

/-- Adds an increment to `cycles` (R121 to R124); a negative result of an `OP_EXTRA` outside the default is cut at 0
(log 18). -/
def State.plusCycles (s : State) (n : Int) : State :=
  { s with cycles := ((s.cycles : Int) + n).toNat }

/-- Adds an increment to `cycles`. -/
def addCycles (n : Int) : Act Unit := Act.update fun s => s.plusCycles n

/-- The operation stage's `cycles <- cycles + OP_EXTRA(op)` (R123). -/
def addExtra (op : Byte) : Act Unit := Act.update fun s => s.plusCycles (s.cfg.extra op)

/-! ### The stack -/

/-- The stack byte's address, `0x0100 + SP` (R22, D3). -/
def stackAddress (sp : Byte) : Word :=
  0x0100 + sp.setWidth 16

/-- `Push(v)`: stores, then decrements SP modulo 256 (R62). -/
def push (v : Byte) : Act Unit := do
  let sp ← Act.get State.sp
  memWrite (stackAddress sp) v
  setSp (sp - 1)

/-- `Pull()`: increments SP modulo 256, then loads (R63). -/
def pull : Act Byte := do
  let sp ← Act.get State.sp
  setSp (sp + 1)
  memRead (stackAddress (sp + 1))

/-- `PushWord(w)`: high byte first (R64). -/
def pushWord (w : Word) : Act Unit := do
  push (hiByte w)
  push (loByte w)

/-- `PullWord()`: low byte first (R64). -/
def pullWord : Act Word := do
  let lo ← pull
  let hi ← pull
  pure (word lo hi)

/-! ### Trap entry and return -/

/-- The BRK vector (R76, D4). -/
def brkVector : Word := 0xFFFE

/-- The reset vector (R76, R301, D4). -/
def resetVector : Word := 0xFFFC

/-- The flags BRK leaves: B set, and I where `BRK_SETS_I` (R242, D8). -/
def brkFlags (c : Config) (f : Flags) : Flags :=
  { f with b := true, i := f.i || c.brkSetsI }

/-- Taking the only trap (R278): saves the return address and then the status byte as it was, sets B (and I), and
loads PC from the BRK vector. -/
def enterTrap (returnAddress : Word) : Act Unit := do
  pushWord returnAddress
  let f ← Act.get State.flags
  push (statusByte f)
  let c ← Act.get State.cfg
  setFlags (brkFlags c f)
  let target ← readWord brkVector
  setPc target

/-- Returning from the trap (R279): all seven flags, then PC with no adjustment. -/
def returnFromTrap : Act Unit := do
  let p ← pull
  setFlags (setStatus p)
  let target ← pullWord
  setPc target

/-- The unknown-opcode halt (R272): records the opcode and stops the loop. -/
def halt (a0 : Word) (op : Byte) : Act Unit :=
  Act.update fun s => { s with haltInfo := some (a0, op), running := false }

end Sys2Proof.Machine
end

