-- ==== Sys2Proof/Machine/Operands.lean ====
section
/-! DEFINITION. The addressing-mode resolver (30_encoding.md R100 to R111) once the operand bytes are fetched, and the
operand accesses of the operation stage. -/

namespace Sys2Proof.Machine

/-- `sext_8` to 16 bits (R11). -/
def sext (b : Byte) : Word :=
  b.signExtend 16

/-- A byte as a zero-page address, zero-extended (R93). -/
def zeroPage (b : Byte) : Word :=
  b.setWidth 16

/-- The effective address of an operand whose bytes have been fetched, so that PC is the address after them (R100 to
R111): the pointer modes read their pointer; for immediate it is the operand byte's own address. -/
def resolve (o : Operand) : Act Word := do
  let x ← Act.get State.x
  let y ← Act.get State.y
  let pc ← Act.get State.pc
  match o with
  | .imm _ => pure (pc - 1)
  | .zp b => pure (zeroPage b)
  | .zpx b => pure (zeroPage (b + x))
  | .zpy b => pure (zeroPage (b + y))
  | .abs w => pure w
  | .absx w => pure (w + x.setWidth 16)
  | .absy w => pure (w + y.setWidth 16)
  | .ind p => readWordBug p
  | .indx b => readWordBug (zeroPage (b + x))
  | .indy b => do
    let base ← readWordBug (zeroPage b)
    pure (base + y.setWidth 16)
  | .rel off => pure (pc + sext off)

/-- The operand's data access at `ea` (R176). An immediate operand's value is the byte the decoder saw there; its access
happens here, in the operation stage (R101; log 8). -/
def readOperand (o : Operand) (ea : Word) : Act Byte := do
  let m ← memRead ea
  match o with
  | .imm v => pure v
  | _ => pure m

/-- Resolve, add `OP_EXTRA`, read the operand (R123, R176). -/
def loadOperand (op : Byte) (o : Operand) : Act Byte := do
  let ea ← resolve o
  addExtra op
  readOperand o ea

/-- Resolve, add `OP_EXTRA`, store one byte; nothing is read at `ea` (R173, R176). -/
def storeOperand (op : Byte) (o : Operand) (v : Byte) : Act Unit := do
  let ea ← resolve o
  addExtra op
  memWrite ea v

/-- A memory read-modify-write (R190): one read, the flags of the new value, one write. -/
def modifyOperand (op : Byte) (o : Operand) (f : Byte → Flags → Byte × Flags) : Act Unit := do
  let ea ← resolve o
  addExtra op
  let m ← memRead ea
  let fl ← Act.get State.flags
  setFlags (f m fl).2
  memWrite ea (f m fl).1

/-- The address of an instruction's opcode, from PC after its last byte (R23): `a0` of R142. -/
def opcodeAddress (pc : Word) (o : Operand) : Word :=
  pc - BitVec.ofNat 16 (1 + o.mode.operandBytes)

/-- The decimal-mode guard of ADC and SBC: after the resolver, before the operand read (R142, D24). -/
def decimalGuard (op : Byte) (o : Operand) : Act Unit := do
  let f ← Act.get State.flags
  let pc ← Act.get State.pc
  if f.d then raise (.decimalMode (opcodeAddress pc o) op) else pure ()

/-- A result written to A with its flags. -/
def setAWith (r : Byte × Flags) : Act Unit := Act.update fun s => { s with a := r.1, flags := r.2 }

/-- A result written to X with its flags. -/
def setXWith (r : Byte × Flags) : Act Unit := Act.update fun s => { s with x := r.1, flags := r.2 }

/-- A result written to Y with its flags. -/
def setYWith (r : Byte × Flags) : Act Unit := Act.update fun s => { s with y := r.1, flags := r.2 }

end Sys2Proof.Machine
end

