-- ==== Sys2Proof/Machine/Alu.lean ====
section
/-! DEFINITION. The arithmetic, logic, compare and bit-test instructions (40_alu.md R142 to R151). Each meaning is the operation
stage run on the state the fetch and mode stages leave, PC past the instruction (00_scope.md R15). -/

namespace Sys2Proof.Machine

/-- ADC (R143): the guard, the operand, the sum. -/
def adc (op : Byte) (o : Operand) : Act Unit := do
  let ea ← resolve o
  decimalGuard op o
  addExtra op
  let m ← readOperand o ea
  let s ← Act.get id
  setAWith (adcResult s.a m s.flags)

/-- SBC (R144). -/
def sbc (op : Byte) (o : Operand) : Act Unit := do
  let ea ← resolve o
  decimalGuard op o
  addExtra op
  let m ← readOperand o ea
  let s ← Act.get id
  setAWith (sbcResult s.a m s.flags)

/-- AND, ORA and EOR: a bitwise operation into A, setting N and Z (R145 to R147). -/
def logic (f : Byte → Byte → Byte) (op : Byte) (o : Operand) : Act Unit := do
  let m ← loadOperand op o
  let s ← Act.get id
  setAWith (loadResult (f s.a m) s.flags)

/-- CMP, CPX and CPY: compares a register with the operand (R148 to R150). -/
def compare (reg : State → Byte) (op : Byte) (o : Operand) : Act Unit := do
  let m ← loadOperand op o
  let s ← Act.get id
  setFlags (compareFlags (reg s) m s.flags)

/-- BIT (R151). -/
def bitTest (op : Byte) (o : Operand) : Act Unit := do
  let m ← loadOperand op o
  let s ← Act.get id
  setFlags (bitFlags s.a m s.flags)

/-- ADC #$nn (0x69), R143. -/
def execAdcImm (v : Byte) (s : State) : Result :=
  (adc 0x69 (.imm v)).outcome s

/-- ADC $nn (0x65), R143. -/
def execAdcZp (b : Byte) (s : State) : Result :=
  (adc 0x65 (.zp b)).outcome s

/-- ADC $nn,X (0x75), R143. -/
def execAdcZpx (b : Byte) (s : State) : Result :=
  (adc 0x75 (.zpx b)).outcome s

/-- ADC $nnnn (0x6D), R143. -/
def execAdcAbs (w : Word) (s : State) : Result :=
  (adc 0x6D (.abs w)).outcome s

/-- ADC $nnnn,X (0x7D), R143. -/
def execAdcAbsx (w : Word) (s : State) : Result :=
  (adc 0x7D (.absx w)).outcome s

/-- ADC $nnnn,Y (0x79), R143. -/
def execAdcAbsy (w : Word) (s : State) : Result :=
  (adc 0x79 (.absy w)).outcome s

/-- ADC ($nn,X) (0x61), R143. -/
def execAdcIndx (b : Byte) (s : State) : Result :=
  (adc 0x61 (.indx b)).outcome s

/-- ADC ($nn),Y (0x71), R143. -/
def execAdcIndy (b : Byte) (s : State) : Result :=
  (adc 0x71 (.indy b)).outcome s

/-- SBC #$nn (0xE9), R144. -/
def execSbcImm (v : Byte) (s : State) : Result :=
  (sbc 0xE9 (.imm v)).outcome s

/-- SBC $nn (0xE5), R144. -/
def execSbcZp (b : Byte) (s : State) : Result :=
  (sbc 0xE5 (.zp b)).outcome s

/-- SBC $nn,X (0xF5), R144. -/
def execSbcZpx (b : Byte) (s : State) : Result :=
  (sbc 0xF5 (.zpx b)).outcome s

/-- SBC $nnnn (0xED), R144. -/
def execSbcAbs (w : Word) (s : State) : Result :=
  (sbc 0xED (.abs w)).outcome s

/-- SBC $nnnn,X (0xFD), R144. -/
def execSbcAbsx (w : Word) (s : State) : Result :=
  (sbc 0xFD (.absx w)).outcome s

/-- SBC $nnnn,Y (0xF9), R144. -/
def execSbcAbsy (w : Word) (s : State) : Result :=
  (sbc 0xF9 (.absy w)).outcome s

/-- SBC ($nn,X) (0xE1), R144. -/
def execSbcIndx (b : Byte) (s : State) : Result :=
  (sbc 0xE1 (.indx b)).outcome s

/-- SBC ($nn),Y (0xF1), R144. -/
def execSbcIndy (b : Byte) (s : State) : Result :=
  (sbc 0xF1 (.indy b)).outcome s

/-- AND #$nn (0x29), R145. -/
def execAndImm (v : Byte) (s : State) : Result :=
  (logic (· &&& ·) 0x29 (.imm v)).outcome s

/-- AND $nn (0x25), R145. -/
def execAndZp (b : Byte) (s : State) : Result :=
  (logic (· &&& ·) 0x25 (.zp b)).outcome s

/-- AND $nn,X (0x35), R145. -/
def execAndZpx (b : Byte) (s : State) : Result :=
  (logic (· &&& ·) 0x35 (.zpx b)).outcome s

/-- AND $nnnn (0x2D), R145. -/
def execAndAbs (w : Word) (s : State) : Result :=
  (logic (· &&& ·) 0x2D (.abs w)).outcome s

/-- AND $nnnn,X (0x3D), R145. -/
def execAndAbsx (w : Word) (s : State) : Result :=
  (logic (· &&& ·) 0x3D (.absx w)).outcome s

/-- AND $nnnn,Y (0x39), R145. -/
def execAndAbsy (w : Word) (s : State) : Result :=
  (logic (· &&& ·) 0x39 (.absy w)).outcome s

/-- AND ($nn,X) (0x21), R145. -/
def execAndIndx (b : Byte) (s : State) : Result :=
  (logic (· &&& ·) 0x21 (.indx b)).outcome s

/-- AND ($nn),Y (0x31), R145. -/
def execAndIndy (b : Byte) (s : State) : Result :=
  (logic (· &&& ·) 0x31 (.indy b)).outcome s

/-- ORA #$nn (0x09), R146. -/
def execOraImm (v : Byte) (s : State) : Result :=
  (logic (· ||| ·) 0x09 (.imm v)).outcome s

/-- ORA $nn (0x05), R146. -/
def execOraZp (b : Byte) (s : State) : Result :=
  (logic (· ||| ·) 0x05 (.zp b)).outcome s

/-- ORA $nn,X (0x15), R146. -/
def execOraZpx (b : Byte) (s : State) : Result :=
  (logic (· ||| ·) 0x15 (.zpx b)).outcome s

/-- ORA $nnnn (0x0D), R146. -/
def execOraAbs (w : Word) (s : State) : Result :=
  (logic (· ||| ·) 0x0D (.abs w)).outcome s

/-- ORA $nnnn,X (0x1D), R146. -/
def execOraAbsx (w : Word) (s : State) : Result :=
  (logic (· ||| ·) 0x1D (.absx w)).outcome s

/-- ORA $nnnn,Y (0x19), R146. -/
def execOraAbsy (w : Word) (s : State) : Result :=
  (logic (· ||| ·) 0x19 (.absy w)).outcome s

/-- ORA ($nn,X) (0x01), R146. -/
def execOraIndx (b : Byte) (s : State) : Result :=
  (logic (· ||| ·) 0x01 (.indx b)).outcome s

/-- ORA ($nn),Y (0x11), R146. -/
def execOraIndy (b : Byte) (s : State) : Result :=
  (logic (· ||| ·) 0x11 (.indy b)).outcome s

/-- EOR #$nn (0x49), R147. -/
def execEorImm (v : Byte) (s : State) : Result :=
  (logic (· ^^^ ·) 0x49 (.imm v)).outcome s

/-- EOR $nn (0x45), R147. -/
def execEorZp (b : Byte) (s : State) : Result :=
  (logic (· ^^^ ·) 0x45 (.zp b)).outcome s

/-- EOR $nn,X (0x55), R147. -/
def execEorZpx (b : Byte) (s : State) : Result :=
  (logic (· ^^^ ·) 0x55 (.zpx b)).outcome s

/-- EOR $nnnn (0x4D), R147. -/
def execEorAbs (w : Word) (s : State) : Result :=
  (logic (· ^^^ ·) 0x4D (.abs w)).outcome s

/-- EOR $nnnn,X (0x5D), R147. -/
def execEorAbsx (w : Word) (s : State) : Result :=
  (logic (· ^^^ ·) 0x5D (.absx w)).outcome s

/-- EOR $nnnn,Y (0x59), R147. -/
def execEorAbsy (w : Word) (s : State) : Result :=
  (logic (· ^^^ ·) 0x59 (.absy w)).outcome s

/-- EOR ($nn,X) (0x41), R147. -/
def execEorIndx (b : Byte) (s : State) : Result :=
  (logic (· ^^^ ·) 0x41 (.indx b)).outcome s

/-- EOR ($nn),Y (0x51), R147. -/
def execEorIndy (b : Byte) (s : State) : Result :=
  (logic (· ^^^ ·) 0x51 (.indy b)).outcome s

/-- CMP #$nn (0xC9), R148. -/
def execCmpImm (v : Byte) (s : State) : Result :=
  (compare State.a 0xC9 (.imm v)).outcome s

/-- CMP $nn (0xC5), R148. -/
def execCmpZp (b : Byte) (s : State) : Result :=
  (compare State.a 0xC5 (.zp b)).outcome s

/-- CMP $nn,X (0xD5), R148. -/
def execCmpZpx (b : Byte) (s : State) : Result :=
  (compare State.a 0xD5 (.zpx b)).outcome s

/-- CMP $nnnn (0xCD), R148. -/
def execCmpAbs (w : Word) (s : State) : Result :=
  (compare State.a 0xCD (.abs w)).outcome s

/-- CMP $nnnn,X (0xDD), R148. -/
def execCmpAbsx (w : Word) (s : State) : Result :=
  (compare State.a 0xDD (.absx w)).outcome s

/-- CMP $nnnn,Y (0xD9), R148. -/
def execCmpAbsy (w : Word) (s : State) : Result :=
  (compare State.a 0xD9 (.absy w)).outcome s

/-- CMP ($nn,X) (0xC1), R148. -/
def execCmpIndx (b : Byte) (s : State) : Result :=
  (compare State.a 0xC1 (.indx b)).outcome s

/-- CMP ($nn),Y (0xD1), R148. -/
def execCmpIndy (b : Byte) (s : State) : Result :=
  (compare State.a 0xD1 (.indy b)).outcome s

/-- CPX #$nn (0xE0), R149. -/
def execCpxImm (v : Byte) (s : State) : Result :=
  (compare State.x 0xE0 (.imm v)).outcome s

/-- CPX $nn (0xE4), R149. -/
def execCpxZp (b : Byte) (s : State) : Result :=
  (compare State.x 0xE4 (.zp b)).outcome s

/-- CPX $nnnn (0xEC), R149. -/
def execCpxAbs (w : Word) (s : State) : Result :=
  (compare State.x 0xEC (.abs w)).outcome s

/-- CPY #$nn (0xC0), R150. -/
def execCpyImm (v : Byte) (s : State) : Result :=
  (compare State.y 0xC0 (.imm v)).outcome s

/-- CPY $nn (0xC4), R150. -/
def execCpyZp (b : Byte) (s : State) : Result :=
  (compare State.y 0xC4 (.zp b)).outcome s

/-- CPY $nnnn (0xCC), R150. -/
def execCpyAbs (w : Word) (s : State) : Result :=
  (compare State.y 0xCC (.abs w)).outcome s

/-- BIT $nn (0x24), R151. -/
def execBitZp (b : Byte) (s : State) : Result :=
  (bitTest 0x24 (.zp b)).outcome s

/-- BIT $nnnn (0x2C), R151. -/
def execBitAbs (w : Word) (s : State) : Result :=
  (bitTest 0x2C (.abs w)).outcome s

end Sys2Proof.Machine
end

