-- ==== Sys2Proof/Machine/Control.lean ====
section
/-! DEFINITION. The branches, jumps, calls and returns, BRK and RTI (44_control.md R230 to R243). Each meaning is the operation
stage run on the state the fetch and mode stages leave, PC past the instruction (00_scope.md R15). -/

namespace Sys2Proof.Machine

/-- A conditional branch: taken, it costs one cycle more and loads PC (R230, R124). -/
def branch (cond : Flags → Bool) (op : Byte) (off : Byte) : Act Unit := do
  let ea ← resolve (.rel off)
  addExtra op
  let f ← Act.get State.flags
  if cond f then do
    addCycles 1
    setPc ea
  else pure ()

/-- JMP (R239). -/
def jump (op : Byte) (o : Operand) : Act Unit := do
  let ea ← resolve o
  addExtra op
  setPc ea

/-- JSR: pushes the address of its last byte (R240, D7). -/
def callSubroutine (op : Byte) (o : Operand) : Act Unit := do
  let ea ← resolve o
  addExtra op
  let pc ← Act.get State.pc
  pushWord (pc - 1)
  setPc ea

/-- RTS: the pulled address plus one (R241). -/
def returnFromSubroutine (op : Byte) : Act Unit := do
  addExtra op
  let w ← pullWord
  setPc (w + 1)

/-- BRK: takes the trap with the BRK's address + 2 as return address (R242). -/
def softwareBreak (op : Byte) : Act Unit := do
  addExtra op
  let pc ← Act.get State.pc
  enterTrap (pc + 1)

/-- RTI (R243). -/
def returnFromBreak (op : Byte) : Act Unit := do
  addExtra op
  returnFromTrap

/-- BCC $tttt (0x90), R231. -/
def execBcc (o : Byte) (s : State) : Result :=
  (branch (fun f => !f.c) 0x90 o).outcome s

/-- BCS $tttt (0xB0), R232. -/
def execBcs (o : Byte) (s : State) : Result :=
  (branch (fun f => f.c) 0xB0 o).outcome s

/-- BEQ $tttt (0xF0), R233. -/
def execBeq (o : Byte) (s : State) : Result :=
  (branch (fun f => f.z) 0xF0 o).outcome s

/-- BMI $tttt (0x30), R234. -/
def execBmi (o : Byte) (s : State) : Result :=
  (branch (fun f => f.n) 0x30 o).outcome s

/-- BNE $tttt (0xD0), R235. -/
def execBne (o : Byte) (s : State) : Result :=
  (branch (fun f => !f.z) 0xD0 o).outcome s

/-- BPL $tttt (0x10), R236. -/
def execBpl (o : Byte) (s : State) : Result :=
  (branch (fun f => !f.n) 0x10 o).outcome s

/-- BVC $tttt (0x50), R237. -/
def execBvc (o : Byte) (s : State) : Result :=
  (branch (fun f => !f.v) 0x50 o).outcome s

/-- BVS $tttt (0x70), R238. -/
def execBvs (o : Byte) (s : State) : Result :=
  (branch (fun f => f.v) 0x70 o).outcome s

/-- JMP $nnnn (0x4C), R239. -/
def execJmpAbs (w : Word) (s : State) : Result :=
  (jump 0x4C (.abs w)).outcome s

/-- JMP ($nnnn) (0x6C), R239. -/
def execJmpInd (p : Word) (s : State) : Result :=
  (jump 0x6C (.ind p)).outcome s

/-- JSR $nnnn (0x20), R240. -/
def execJsr (w : Word) (s : State) : Result :=
  (callSubroutine 0x20 (.abs w)).outcome s

/-- RTS (0x60), R241. -/
def execRts (s : State) : Result :=
  (returnFromSubroutine 0x60).outcome s

/-- BRK (0x00), R242. -/
def execBrk (s : State) : Result :=
  (softwareBreak 0x00).outcome s

/-- RTI (0x40), R243. -/
def execRti (s : State) : Result :=
  (returnFromBreak 0x40).outcome s

end Sys2Proof.Machine
end

