-- ==== Sys2Proof/Machine/FlagOps.lean ====
section
/-! DEFINITION. The flag instructions and NOP (45_flags_nop.md R260 to R267). Each meaning is the operation
stage run on the state the fetch and mode stages leave, PC past the instruction (00_scope.md R15). -/

namespace Sys2Proof.Machine

/-- A flag set or cleared (R260 to R266). -/
def flagOp (f : Flags → Flags) (op : Byte) : Act Unit := do
  addExtra op
  changeFlags f

/-- NOP: the operation stage does nothing (R267). -/
def noOperation (op : Byte) : Act Unit :=
  addExtra op

/-- CLC (0x18), R260. -/
def execClc (s : State) : Result :=
  (flagOp (fun f => { f with c := false }) 0x18).outcome s

/-- CLD (0xD8), R261. -/
def execCld (s : State) : Result :=
  (flagOp (fun f => { f with d := false }) 0xD8).outcome s

/-- CLI (0x58), R262. -/
def execCli (s : State) : Result :=
  (flagOp (fun f => { f with i := false }) 0x58).outcome s

/-- CLV (0xB8), R263. -/
def execClv (s : State) : Result :=
  (flagOp (fun f => { f with v := false }) 0xB8).outcome s

/-- SEC (0x38), R264. -/
def execSec (s : State) : Result :=
  (flagOp (fun f => { f with c := true }) 0x38).outcome s

/-- SED (0xF8), R265. -/
def execSed (s : State) : Result :=
  (flagOp (fun f => { f with d := true }) 0xF8).outcome s

/-- SEI (0x78), R266. -/
def execSei (s : State) : Result :=
  (flagOp (fun f => { f with i := true }) 0x78).outcome s

/-- NOP (0xEA), R267. -/
def execNop (s : State) : Result :=
  (noOperation 0xEA).outcome s

end Sys2Proof.Machine
end

