-- ==== Sys2Proof/Machine/LoadStore.lean ====
section
/-! DEFINITION. The loads and stores (41_load_store.md R170 to R176). Each meaning is the operation
stage run on the state the fetch and mode stages leave, PC past the instruction (00_scope.md R15). -/

namespace Sys2Proof.Machine

/-- LDA (R170). -/
def lda (op : Byte) (o : Operand) : Act Unit := do
  let m ← loadOperand op o
  let f ← Act.get State.flags
  setAWith (loadResult m f)

/-- LDX (R171). -/
def ldx (op : Byte) (o : Operand) : Act Unit := do
  let m ← loadOperand op o
  let f ← Act.get State.flags
  setXWith (loadResult m f)

/-- LDY (R172). -/
def ldy (op : Byte) (o : Operand) : Act Unit := do
  let m ← loadOperand op o
  let f ← Act.get State.flags
  setYWith (loadResult m f)

/-- STA, STX and STY: a register stored at `ea`, no flag written (R173 to R175). -/
def store (reg : State → Byte) (op : Byte) (o : Operand) : Act Unit := do
  let v ← Act.get reg
  storeOperand op o v

/-- LDA #$nn (0xA9), R170. -/
def execLdaImm (v : Byte) (s : State) : Result :=
  (lda 0xA9 (.imm v)).outcome s

/-- LDA $nn (0xA5), R170. -/
def execLdaZp (b : Byte) (s : State) : Result :=
  (lda 0xA5 (.zp b)).outcome s

/-- LDA $nn,X (0xB5), R170. -/
def execLdaZpx (b : Byte) (s : State) : Result :=
  (lda 0xB5 (.zpx b)).outcome s

/-- LDA $nnnn (0xAD), R170. -/
def execLdaAbs (w : Word) (s : State) : Result :=
  (lda 0xAD (.abs w)).outcome s

/-- LDA $nnnn,X (0xBD), R170. -/
def execLdaAbsx (w : Word) (s : State) : Result :=
  (lda 0xBD (.absx w)).outcome s

/-- LDA $nnnn,Y (0xB9), R170. -/
def execLdaAbsy (w : Word) (s : State) : Result :=
  (lda 0xB9 (.absy w)).outcome s

/-- LDA ($nn,X) (0xA1), R170. -/
def execLdaIndx (b : Byte) (s : State) : Result :=
  (lda 0xA1 (.indx b)).outcome s

/-- LDA ($nn),Y (0xB1), R170. -/
def execLdaIndy (b : Byte) (s : State) : Result :=
  (lda 0xB1 (.indy b)).outcome s

/-- LDX #$nn (0xA2), R171. -/
def execLdxImm (v : Byte) (s : State) : Result :=
  (ldx 0xA2 (.imm v)).outcome s

/-- LDX $nn (0xA6), R171. -/
def execLdxZp (b : Byte) (s : State) : Result :=
  (ldx 0xA6 (.zp b)).outcome s

/-- LDX $nn,Y (0xB6), R171. -/
def execLdxZpy (b : Byte) (s : State) : Result :=
  (ldx 0xB6 (.zpy b)).outcome s

/-- LDX $nnnn (0xAE), R171. -/
def execLdxAbs (w : Word) (s : State) : Result :=
  (ldx 0xAE (.abs w)).outcome s

/-- LDX $nnnn,Y (0xBE), R171. -/
def execLdxAbsy (w : Word) (s : State) : Result :=
  (ldx 0xBE (.absy w)).outcome s

/-- LDY #$nn (0xA0), R172. -/
def execLdyImm (v : Byte) (s : State) : Result :=
  (ldy 0xA0 (.imm v)).outcome s

/-- LDY $nn (0xA4), R172. -/
def execLdyZp (b : Byte) (s : State) : Result :=
  (ldy 0xA4 (.zp b)).outcome s

/-- LDY $nn,X (0xB4), R172. -/
def execLdyZpx (b : Byte) (s : State) : Result :=
  (ldy 0xB4 (.zpx b)).outcome s

/-- LDY $nnnn (0xAC), R172. -/
def execLdyAbs (w : Word) (s : State) : Result :=
  (ldy 0xAC (.abs w)).outcome s

/-- LDY $nnnn,X (0xBC), R172. -/
def execLdyAbsx (w : Word) (s : State) : Result :=
  (ldy 0xBC (.absx w)).outcome s

/-- STA $nn (0x85), R173. -/
def execStaZp (b : Byte) (s : State) : Result :=
  (store State.a 0x85 (.zp b)).outcome s

/-- STA $nn,X (0x95), R173. -/
def execStaZpx (b : Byte) (s : State) : Result :=
  (store State.a 0x95 (.zpx b)).outcome s

/-- STA $nnnn (0x8D), R173. -/
def execStaAbs (w : Word) (s : State) : Result :=
  (store State.a 0x8D (.abs w)).outcome s

/-- STA $nnnn,X (0x9D), R173. -/
def execStaAbsx (w : Word) (s : State) : Result :=
  (store State.a 0x9D (.absx w)).outcome s

/-- STA $nnnn,Y (0x99), R173. -/
def execStaAbsy (w : Word) (s : State) : Result :=
  (store State.a 0x99 (.absy w)).outcome s

/-- STA ($nn,X) (0x81), R173. -/
def execStaIndx (b : Byte) (s : State) : Result :=
  (store State.a 0x81 (.indx b)).outcome s

/-- STA ($nn),Y (0x91), R173. -/
def execStaIndy (b : Byte) (s : State) : Result :=
  (store State.a 0x91 (.indy b)).outcome s

/-- STX $nn (0x86), R174. -/
def execStxZp (b : Byte) (s : State) : Result :=
  (store State.x 0x86 (.zp b)).outcome s

/-- STX $nn,Y (0x96), R174. -/
def execStxZpy (b : Byte) (s : State) : Result :=
  (store State.x 0x96 (.zpy b)).outcome s

/-- STX $nnnn (0x8E), R174. -/
def execStxAbs (w : Word) (s : State) : Result :=
  (store State.x 0x8E (.abs w)).outcome s

/-- STY $nn (0x84), R175. -/
def execStyZp (b : Byte) (s : State) : Result :=
  (store State.y 0x84 (.zp b)).outcome s

/-- STY $nn,X (0x94), R175. -/
def execStyZpx (b : Byte) (s : State) : Result :=
  (store State.y 0x94 (.zpx b)).outcome s

/-- STY $nnnn (0x8C), R175. -/
def execStyAbs (w : Word) (s : State) : Result :=
  (store State.y 0x8C (.abs w)).outcome s

end Sys2Proof.Machine
end

