-- ==== Sys2Proof/Machine/Rmw.lean ====
section
/-! DEFINITION. The shifts, rotates, increments and decrements (42_rmw.md R190 to R200). Each meaning is the operation
stage run on the state the fetch and mode stages leave, PC past the instruction (00_scope.md R15). -/

namespace Sys2Proof.Machine

/-- The accumulator form of a shift or rotate: no memory access (R190). -/
def shiftA (f : Byte → Flags → Byte × Flags) (op : Byte) : Act Unit := do
  addExtra op
  let s ← Act.get id
  setAWith (f s.a s.flags)

/-- INX and DEX (R197, R199). -/
def modifyX (f : Byte → Flags → Byte × Flags) (op : Byte) : Act Unit := do
  addExtra op
  let s ← Act.get id
  setXWith (f s.x s.flags)

/-- INY and DEY (R198, R200). -/
def modifyY (f : Byte → Flags → Byte × Flags) (op : Byte) : Act Unit := do
  addExtra op
  let s ← Act.get id
  setYWith (f s.y s.flags)

/-- ASL A (0x0A), R191. -/
def execAslAcc (s : State) : Result :=
  (shiftA aslResult 0x0A).outcome s

/-- ASL $nn (0x06), R191. -/
def execAslZp (b : Byte) (s : State) : Result :=
  (modifyOperand 0x06 (.zp b) aslResult).outcome s

/-- ASL $nn,X (0x16), R191. -/
def execAslZpx (b : Byte) (s : State) : Result :=
  (modifyOperand 0x16 (.zpx b) aslResult).outcome s

/-- ASL $nnnn (0x0E), R191. -/
def execAslAbs (w : Word) (s : State) : Result :=
  (modifyOperand 0x0E (.abs w) aslResult).outcome s

/-- ASL $nnnn,X (0x1E), R191. -/
def execAslAbsx (w : Word) (s : State) : Result :=
  (modifyOperand 0x1E (.absx w) aslResult).outcome s

/-- LSR A (0x4A), R192. -/
def execLsrAcc (s : State) : Result :=
  (shiftA lsrResult 0x4A).outcome s

/-- LSR $nn (0x46), R192. -/
def execLsrZp (b : Byte) (s : State) : Result :=
  (modifyOperand 0x46 (.zp b) lsrResult).outcome s

/-- LSR $nn,X (0x56), R192. -/
def execLsrZpx (b : Byte) (s : State) : Result :=
  (modifyOperand 0x56 (.zpx b) lsrResult).outcome s

/-- LSR $nnnn (0x4E), R192. -/
def execLsrAbs (w : Word) (s : State) : Result :=
  (modifyOperand 0x4E (.abs w) lsrResult).outcome s

/-- LSR $nnnn,X (0x5E), R192. -/
def execLsrAbsx (w : Word) (s : State) : Result :=
  (modifyOperand 0x5E (.absx w) lsrResult).outcome s

/-- ROL A (0x2A), R193. -/
def execRolAcc (s : State) : Result :=
  (shiftA rolResult 0x2A).outcome s

/-- ROL $nn (0x26), R193. -/
def execRolZp (b : Byte) (s : State) : Result :=
  (modifyOperand 0x26 (.zp b) rolResult).outcome s

/-- ROL $nn,X (0x36), R193. -/
def execRolZpx (b : Byte) (s : State) : Result :=
  (modifyOperand 0x36 (.zpx b) rolResult).outcome s

/-- ROL $nnnn (0x2E), R193. -/
def execRolAbs (w : Word) (s : State) : Result :=
  (modifyOperand 0x2E (.abs w) rolResult).outcome s

/-- ROL $nnnn,X (0x3E), R193. -/
def execRolAbsx (w : Word) (s : State) : Result :=
  (modifyOperand 0x3E (.absx w) rolResult).outcome s

/-- ROR A (0x6A), R194. -/
def execRorAcc (s : State) : Result :=
  (shiftA rorResult 0x6A).outcome s

/-- ROR $nn (0x66), R194. -/
def execRorZp (b : Byte) (s : State) : Result :=
  (modifyOperand 0x66 (.zp b) rorResult).outcome s

/-- ROR $nn,X (0x76), R194. -/
def execRorZpx (b : Byte) (s : State) : Result :=
  (modifyOperand 0x76 (.zpx b) rorResult).outcome s

/-- ROR $nnnn (0x6E), R194. -/
def execRorAbs (w : Word) (s : State) : Result :=
  (modifyOperand 0x6E (.abs w) rorResult).outcome s

/-- ROR $nnnn,X (0x7E), R194. -/
def execRorAbsx (w : Word) (s : State) : Result :=
  (modifyOperand 0x7E (.absx w) rorResult).outcome s

/-- INC $nn (0xE6), R195. -/
def execIncZp (b : Byte) (s : State) : Result :=
  (modifyOperand 0xE6 (.zp b) incResult).outcome s

/-- INC $nn,X (0xF6), R195. -/
def execIncZpx (b : Byte) (s : State) : Result :=
  (modifyOperand 0xF6 (.zpx b) incResult).outcome s

/-- INC $nnnn (0xEE), R195. -/
def execIncAbs (w : Word) (s : State) : Result :=
  (modifyOperand 0xEE (.abs w) incResult).outcome s

/-- INC $nnnn,X (0xFE), R195. -/
def execIncAbsx (w : Word) (s : State) : Result :=
  (modifyOperand 0xFE (.absx w) incResult).outcome s

/-- DEC $nn (0xC6), R196. -/
def execDecZp (b : Byte) (s : State) : Result :=
  (modifyOperand 0xC6 (.zp b) decResult).outcome s

/-- DEC $nn,X (0xD6), R196. -/
def execDecZpx (b : Byte) (s : State) : Result :=
  (modifyOperand 0xD6 (.zpx b) decResult).outcome s

/-- DEC $nnnn (0xCE), R196. -/
def execDecAbs (w : Word) (s : State) : Result :=
  (modifyOperand 0xCE (.abs w) decResult).outcome s

/-- DEC $nnnn,X (0xDE), R196. -/
def execDecAbsx (w : Word) (s : State) : Result :=
  (modifyOperand 0xDE (.absx w) decResult).outcome s

/-- INX (0xE8), R197. -/
def execInx (s : State) : Result :=
  (modifyX incResult 0xE8).outcome s

/-- INY (0xC8), R198. -/
def execIny (s : State) : Result :=
  (modifyY incResult 0xC8).outcome s

/-- DEX (0xCA), R199. -/
def execDex (s : State) : Result :=
  (modifyX decResult 0xCA).outcome s

/-- DEY (0x88), R200. -/
def execDey (s : State) : Result :=
  (modifyY decResult 0x88).outcome s

end Sys2Proof.Machine
end

