-- ==== Sys2Proof/Machine/Transfer.lean ====
section
/-! DEFINITION. The register transfers and the stack instructions (43_transfer_stack.md R210 to R219). Each meaning is the operation
stage run on the state the fetch and mode stages leave, PC past the instruction (00_scope.md R15). -/

namespace Sys2Proof.Machine

/-- A transfer into A, setting N and Z (R212, R213). -/
def transferToA (src : State → Byte) (op : Byte) : Act Unit := do
  addExtra op
  let s ← Act.get id
  setAWith (loadResult (src s) s.flags)

/-- A transfer into X, setting N and Z (R210, R214). -/
def transferToX (src : State → Byte) (op : Byte) : Act Unit := do
  addExtra op
  let s ← Act.get id
  setXWith (loadResult (src s) s.flags)

/-- A transfer into Y, setting N and Z (R211). -/
def transferToY (src : State → Byte) (op : Byte) : Act Unit := do
  addExtra op
  let s ← Act.get id
  setYWith (loadResult (src s) s.flags)

/-- TXS: SP from X, no flag written (R215). -/
def txs (op : Byte) : Act Unit := do
  addExtra op
  let x ← Act.get State.x
  setSp x

/-- PHA and PHP: a byte of the state pushed (R216, R217). -/
def pushByte (src : State → Byte) (op : Byte) : Act Unit := do
  addExtra op
  let v ← Act.get src
  push v

/-- PLA (R218). -/
def pla (op : Byte) : Act Unit := do
  addExtra op
  let m ← pull
  let f ← Act.get State.flags
  setAWith (loadResult m f)

/-- PLP (R219). -/
def plp (op : Byte) : Act Unit := do
  addExtra op
  let p ← pull
  setFlags (setStatus p)

/-- TAX (0xAA), R210. -/
def execTax (s : State) : Result :=
  (transferToX State.a 0xAA).outcome s

/-- TAY (0xA8), R211. -/
def execTay (s : State) : Result :=
  (transferToY State.a 0xA8).outcome s

/-- TXA (0x8A), R212. -/
def execTxa (s : State) : Result :=
  (transferToA State.x 0x8A).outcome s

/-- TYA (0x98), R213. -/
def execTya (s : State) : Result :=
  (transferToA State.y 0x98).outcome s

/-- TSX (0xBA), R214. -/
def execTsx (s : State) : Result :=
  (transferToX State.sp 0xBA).outcome s

/-- TXS (0x9A), R215. -/
def execTxs (s : State) : Result :=
  (txs 0x9A).outcome s

/-- PHA (0x48), R216. -/
def execPha (s : State) : Result :=
  (pushByte State.a 0x48).outcome s

/-- PHP (0x08), R217. -/
def execPhp (s : State) : Result :=
  (pushByte (fun s => statusByte s.flags) 0x08).outcome s

/-- PLA (0x68), R218. -/
def execPla (s : State) : Result :=
  (pla 0x68).outcome s

/-- PLP (0x28), R219. -/
def execPlp (s : State) : Result :=
  (plp 0x28).outcome s

end Sys2Proof.Machine
end

