-- ==== Sys2Proof/Machine/Fetch.lean ====
section
/-! DEFINITION. The fetch and mode stages of the sequencer (30_encoding.md R120 to R122): the opcode, the mode delta,
the operand bytes; when the sequencer is enabled; and placing an instruction where the next step fetches it. -/

namespace Sys2Proof.Machine

/-- The byte a `MemRead` of `a` would return now, without its effects; zero where it would fault. -/
def State.peekByte (s : State) (a : Word) : Byte :=
  match memRead a s with
  | .ok (b, _) => b
  | .error _ => 0

/-- Reads the byte at PC and advances PC (R100). -/
def fetchByte : Act Byte := do
  let pc ← Act.get State.pc
  let b ← memRead pc
  setPc (pc + 1)
  pure b

/-- Reads the word at PC and advances PC past it (R105). -/
def fetchWord : Act Word := do
  let pc ← Act.get State.pc
  let w ← readWord pc
  setPc (pc + 2)
  pure w

/-- The immediate operand byte: PC advances, but the access is the operation stage's (R101), so the decoder only looks
at the byte (log 8). -/
def fetchImmediate : Act Byte := do
  let pc ← Act.get State.pc
  let b ← Act.get fun s => s.peekByte pc
  setPc (pc + 1)
  pure b

/-- The mode stage up to the operand bytes: the mode delta, then the bytes in ascending order (R100, R122). -/
def fetchOperands (r : Row) : Act (List Byte) := do
  addCycles r.delta
  match r.mode with
  | .imp | .acc => pure []
  | .imm => do
    let b ← fetchImmediate
    pure [b]
  | .zp | .zpx | .zpy | .indx | .indy | .rel => do
    let b ← fetchByte
    pure [b]
  | .abs | .absx | .absy | .ind => do
    let w ← fetchWord
    pure [loByte w, hiByte w]

/-- The fetch stage, then the mode stage's operand bytes, decoded (R120, R121). An Absent opcode halts (R272) and gives
no instruction. -/
def fetch : Act (Option Instr) := do
  let a0 ← Act.get State.pc
  addCycles 2
  let op ← fetchByte
  match lookup op with
  | none => do
    halt a0 op
    pure none
  | some r => do
    let bytes ← fetchOperands r
    match decode (op :: bytes) with
    | .ok (i, _) => pure (some i)
    | .error _ => do
      halt a0 op
      pure none

/-- Host commands are applied here: at any time while halted, and after every batch while running (R286). -/
def State.atServicePoint (s : State) : Bool :=
  !s.running || s.batchLeft == 0

/-- Counts one instruction of the batch; a batch that is used up is followed by a new one (R286; log 14). -/
def State.countInstruction (s : State) : State :=
  { s with batchLeft := (if s.batchLeft = 0 then s.cfg.batch else s.batchLeft) - 1 }

/-- The bytes of the instruction that the host's word stands for, the first at the lowest address. -/
def placedBytes (nbits w : Nat) : List Byte :=
  let bytes := tableWordBytes nbits w
  match bytes with
  | [] => []
  | op :: _ => bytes.take ((opcodeLength op).getD 1)

/-- Places bytes where they are fetched from `a` on: in RAM or ROM, or as the peer's next answers in the bus window. -/
def State.placeBytes (s : State) (a : Word) : List Byte → State
  | [] => s
  | b :: rest =>
    let t := s.placeBytes (a + 1) rest
    match region s.cfg a with
    | .ram | .rom => { t with mem := Memory.write t.mem a.toNat b }
    | .bus => { t with peer := .ok b :: t.peer }
    | .unmapped => t

/-- The state whose next step is an instruction: running, not quit, no fault, no host command due (R120, R286). -/
def State.enabled (s : State) : State :=
  { s with running := true, quit := false, fault := none, pending := if s.atServicePoint then [] else s.pending }

end Sys2Proof.Machine
end

