-- ==== Sys2Proof/Machine/HostCommands.lean ====
section
/-! DEFINITION. The host's commands as effects on the block (60_exceptions.md R285 to R288, 70_reset_and_hazards.md
R302), and construction (R300). -/

namespace Sys2Proof.Machine

/-- `n` consecutive addresses from `first`, modulo 2^16 (log 16). -/
def addressesFrom (first : Word) (n : Nat) : List Word :=
  (List.range n).map fun k => first + BitVec.ofNat 16 k

/-- `MemRead` of each address in turn (R285, R287). -/
def readAll : List Word → Act (List Byte)
  | [] => pure []
  | a :: rest => do
    let b ← memRead a
    let bs ← readAll rest
    pure (b :: bs)

/-- `MemWrite` of each byte, ascending from `a` (R285, R287). -/
def writeAll (a : Word) : List Byte → Act Unit
  | [] => pure ()
  | b :: rest => do
    memWrite a b
    writeAll (a + 1) rest

/-- Decodes `count` instructions from an address, reading their bytes with `MemRead` (R285, D32). An Absent opcode is
one byte and gives no instruction (log 16). -/
def disassemble : Nat → Word → Act (List (Word × Option Instr))
  | 0, _ => pure []
  | k + 1, a => do
    let op ← memRead a
    let n := (opcodeLength op).getD 1
    let bytes ← readAll (addressesFrom (a + 1) (n - 1))
    let rest ← disassemble k (a + BitVec.ofNat 16 n)
    match decode (op :: bytes) with
    | .ok (i, _) => pure ((a, some i) :: rest)
    | .error _ => pure ((a, none) :: rest)

/-- Returns an answer to the host. -/
def respond (r : HostResponse) : Act Unit :=
  Act.update fun s => { s with responses := s.responses ++ [r] }

/-- What the status command returns: the flags as the status byte (R25, R285, D26). -/
def State.statusResponse (s : State) : HostResponse :=
  .status s.a s.x s.y s.sp s.pc (statusByte s.flags) s.cycles

/-- The reset command: PC, `running` and `halt_info`, nothing else (R302, R303). -/
def resetCommand : Act Unit := do
  let target ← readWord resetVector
  Act.update fun s => { s with pc := target, running := true, haltInfo := none }

/-- A command's effect (R285). -/
def runCommand (c : HostCommand) : Act Unit :=
  match c with
  | .status => do
    let r ← Act.get State.statusResponse
    respond r
  | .readMemory first last => do
    let bytes ← readAll (addressesFrom first (last.toNat + 1 - first.toNat))
    respond (.memory bytes)
  | .writeMemory first bytes => writeAll first bytes
  | .disassemble first count => do
    let lines ← disassemble count first
    respond (.disassembly lines)
  | .reset => resetCommand
  | .quit => Act.update fun s => { s with quit := true }

/-- Servicing one command at a service point; the next instruction after it begins a new batch (R286; log 14). -/
def service (c : HostCommand) (s : State) : Result :=
  (runCommand c).outcome { s with batchLeft := 0 }

/-- The initial PC: the override, or the word at the reset vector (R300, D31). -/
def loadInitialPc (override : Option Word) : Act Unit :=
  match override with
  | some pc => setPc pc
  | none => do
    let target ← readWord resetVector
    setPc target

/-- Construction (R300): registers and flags from `POWER_ON`, RAM from `RAM_INIT` (zero beyond the given image), ROM from
`ROM_IMAGE`, then PC. The images are cut to their arrays' sizes; `Config.romImageFits` is R9's check. -/
def construct (cfg : Config) (power : PowerOn) (ramInit romImage : List Byte) (override : Option Word) : Result :=
  let rom := Memory.load [] cfg.romBase (romImage.take cfg.romSize)
  let mem := Memory.load rom cfg.ramBase (ramInit.take cfg.ramSize)
  (loadInitialPc override).outcome (State.initial cfg power mem)

end Sys2Proof.Machine
end

