-- ==== Sys2Proof/Machine/Step.lean ====
section
/-! DEFINITION. One step of the machine (30_encoding.md R120, R128; 60_exceptions.md R286, R288), and the host's
`withFetchWord`. -/

namespace Sys2Proof.Machine

/-- One instruction: fetch, then the operation stage; an Absent opcode halts instead (R120). -/
def runInstruction (s : State) : Result :=
  match fetch s.countInstruction with
  | .error r => .fault r
  | .ok (none, t) => .next t
  | .ok (some i, t) => exec i t

/-- With no host command due: one instruction while running, nothing while halted (R128). -/
def runOrIdle (s : State) : Result :=
  if s.running then runInstruction s else .next s

/-- One step. A state whose run has ended by a fault gives that fault again (R29); a state that has quit stays as it is
(R288; log 11); at a service point the oldest pending host command is serviced (R286; log 14); otherwise the sequencer
runs one instruction, or idles while halted (R120, R128). -/
def step (s : State) : Host.Outcome State Fault Refusal :=
  match s.fault with
  | some r => .fault (r.toFault s)
  | none =>
    if s.quit then .next s
    else match s.pending with
      | [] => runOrIdle s
      | c :: rest => if s.atServicePoint then service c { s with pending := rest } else runOrIdle s

/-- `s` with the instruction of the host's word stored where `step` fetches its next instruction, and the next step an
instruction (log 6). -/
def State.withFetchWord (s : State) (nbits w : Nat) : State :=
  (s.enabled).placeBytes s.pc (placedBytes nbits w)

end Sys2Proof.Machine
end

