-- ==== Sys2Proof/Safety.lean ====
section
/-! DEFINITION. The terms claims are stated in: the invariant every step keeps, the registers and flags each
instruction may write (10_state.md R21, R22, R26), and the parts of the state that accesses leave alone. -/

namespace Sys2Proof.Machine

/-- The 8-bit registers (R20, R22). -/
inductive Reg where
  | a | x | y | sp
  deriving DecidableEq, Repr

/-- A register's value. -/
def State.reg (s : State) : Reg → Byte
  | .a => s.a
  | .x => s.x
  | .y => s.y
  | .sp => s.sp

/-- The flags by name (R24). -/
inductive Flag where
  | c | z | i | d | b | v | n
  deriving DecidableEq, Repr

/-- A flag's value. -/
def Flags.get (f : Flags) : Flag → Bool
  | .c => f.c
  | .z => f.z
  | .i => f.i
  | .d => f.d
  | .b => f.b
  | .v => f.v
  | .n => f.n

/-- RAM or ROM: an address whose accesses have no side effect (R53, R65). -/
def State.plain (s : State) (a : Word) : Bool :=
  region s.cfg a == .ram || region s.cfg a == .rom

/-- A read-modify-write's new value from the old one and C (R191 to R196). -/
def rmwValue (m : Mnemonic) (b : Byte) (c : Bool) : Byte :=
  match m with
  | .asl => b <<< 1
  | .lsr => b >>> 1
  | .rol => (b <<< 1) ||| (if c then 0x01 else 0x00)
  | .ror => (b >>> 1) ||| (if c then 0x80 else 0x00)
  | .inc => b + 1
  | .dec => b - 1
  | _ => b

/-- A read-modify-write's new C: the bit shifted out; INC and DEC keep C. -/
def rmwCarry (m : Mnemonic) (b : Byte) (c : Bool) : Bool :=
  match m with
  | .asl | .rol => b.getLsbD 7
  | .lsr | .ror => b.getLsbD 0
  | _ => c

/-- The flags with N and Z of a result byte (R140). -/
def Flags.withNz (f : Flags) (r : Byte) : Flags :=
  { f with z := r == 0, n := r.getLsbD 7 }

/-- The branch conditions (R231 to R238). -/
def branchTaken (m : Mnemonic) (f : Flags) : Bool :=
  match m with
  | .bcc => !f.c
  | .bcs => f.c
  | .beq => f.z
  | .bmi => f.n
  | .bne => !f.z
  | .bpl => !f.n
  | .bvc => !f.v
  | .bvs => f.v
  | _ => false

/-- The two states agree on everything but cycles, the bus trace and the peer's answers: all that a read changes. -/
def OnlyBus (s t : State) : Prop :=
  t = { s with cycles := t.cycles, trace := t.trace, peer := t.peer }

/-- What every step keeps: memory in canonical form; the loop is stopped exactly while a halt is recorded (R272, R302);
no fault recorded, since a fault ends the run (R271); never more than a batch left (R286). -/
abbrev State.Inv (s : State) : Prop :=
  Memory.wf s.mem = true ∧ s.running = s.haltInfo.isNone ∧ s.fault = none ∧ s.batchLeft ≤ s.cfg.batch

/-- The stack page is RAM and not forwarded. -/
def State.StackIsRam (s : State) : Prop :=
  ∀ sp : Byte, region s.cfg (stackAddress sp) = .ram ∧ forwarded s.cfg (stackAddress sp) = false

end Sys2Proof.Machine

namespace Sys2Proof

open Machine

/-- The 105 Absent opcodes, as listed under the opcode map (30_encoding.md R97; decision D1). -/
def absentOpcodes : List Byte :=
  [0x02, 0x03, 0x04, 0x07, 0x0B, 0x0C, 0x0F, 0x12, 0x13, 0x14, 0x17, 0x1A, 0x1B, 0x1C, 0x1F, 0x22, 0x23, 0x27] ++
  [0x2B, 0x2F, 0x32, 0x33, 0x34, 0x37, 0x3A, 0x3B, 0x3C, 0x3F, 0x42, 0x43, 0x44, 0x47, 0x4B, 0x4F, 0x52, 0x53] ++
  [0x54, 0x57, 0x5A, 0x5B, 0x5C, 0x5F, 0x62, 0x63, 0x64, 0x67, 0x6B, 0x6F, 0x72, 0x73, 0x74, 0x77, 0x7A, 0x7B] ++
  [0x7C, 0x7F, 0x80, 0x82, 0x83, 0x87, 0x89, 0x8B, 0x8F, 0x92, 0x93, 0x97, 0x9B, 0x9C, 0x9E, 0x9F, 0xA3, 0xA7] ++
  [0xAB, 0xAF, 0xB2, 0xB3, 0xB7, 0xBB, 0xBF, 0xC2, 0xC3, 0xC7, 0xCB, 0xCF, 0xD2, 0xD3, 0xD4, 0xD7, 0xDA, 0xDB] ++
  [0xDC, 0xDF, 0xE2, 0xE3, 0xE7, 0xEB, 0xEF, 0xF2, 0xF3, 0xF4, 0xF7, 0xFA, 0xFB, 0xFC, 0xFF]

/-- The cycles column of the decode entries (30_encoding.md R96): each total with the opcodes that have it, a taken branch
not counted. -/
def cyclesColumn : List (Int × List Byte) :=
  [(2,
    [0x09, 0x0A, 0x10, 0x18, 0x29, 0x2A, 0x30, 0x38, 0x49, 0x4A, 0x50, 0x58, 0x69, 0x6A, 0x70, 0x78] ++
    [0x88, 0x8A, 0x90, 0x98, 0x9A, 0xA0, 0xA2, 0xA8, 0xA9, 0xAA, 0xB0, 0xB8, 0xBA, 0xC0, 0xC8, 0xC9] ++
    [0xCA, 0xD0, 0xD8, 0xE0, 0xE8, 0xE9, 0xEA, 0xF0, 0xF8]),
   (3,
    [0x05, 0x08, 0x24, 0x25, 0x45, 0x48, 0x4C, 0x65, 0x84, 0x85, 0x86, 0xA4, 0xA5, 0xA6, 0xC4, 0xC5] ++
    [0xE4, 0xE5]),
   (4,
    [0x0D, 0x15, 0x19, 0x1D, 0x28, 0x2C, 0x2D, 0x35, 0x39, 0x3D, 0x4D, 0x55, 0x59, 0x5D, 0x68, 0x6D] ++
    [0x75, 0x79, 0x7D, 0x8C, 0x8D, 0x8E, 0x94, 0x95, 0x96, 0xAC, 0xAD, 0xAE, 0xB4, 0xB5, 0xB6, 0xB9] ++
    [0xBC, 0xBD, 0xBE, 0xCC, 0xCD, 0xD5, 0xD9, 0xDD, 0xEC, 0xED, 0xF5, 0xF9, 0xFD]),
   (5,
    [0x06, 0x11, 0x26, 0x31, 0x46, 0x51, 0x66, 0x6C, 0x71, 0x99, 0x9D, 0xB1, 0xC6, 0xD1, 0xE6, 0xF1]),
   (6,
    [0x01, 0x0E, 0x16, 0x20, 0x21, 0x2E, 0x36, 0x40, 0x41, 0x4E, 0x56, 0x60, 0x61, 0x6E, 0x76, 0x81] ++
    [0x91, 0xA1, 0xC1, 0xCE, 0xD6, 0xE1, 0xEE, 0xF6]),
   (7,
    [0x00, 0x1E, 0x3E, 0x5E, 0x7E, 0xDE, 0xFE])]

/-- The registers an instruction writes: the "written by" column of R21, and R22 for SP. -/
def Instr.regsWritten (i : Instr) : List Reg :=
  match i.mnemonic with
  | .lda | .txa | .tya | .adc | .sbc | .and | .ora | .eor => [.a]
  | .asl | .lsr | .rol | .ror => if i.mode = .acc then [.a] else []
  | .ldx | .tax | .tsx | .inx | .dex => [.x]
  | .ldy | .tay | .iny | .dey => [.y]
  | .pla => [.a, .sp]
  | .txs | .pha | .php | .plp | .jsr | .rts | .brk | .rti => [.sp]
  | .cmp | .cpx | .cpy | .bit | .sta | .stx | .sty | .inc | .dec | .bcc | .bcs | .beq | .bmi | .bne | .bpl | .bvc
  | .bvs | .jmp | .clc | .cld | .cli | .clv | .sec | .sed | .sei | .nop => []

/-- The flags an instruction writes: R26, with BRK's I only when `BRK_SETS_I`. -/
def Instr.flagsWritten (i : Instr) (c : Config) : List Flag :=
  match i.mnemonic with
  | .adc | .sbc => [.n, .z, .c, .v]
  | .cmp | .cpx | .cpy | .asl | .lsr | .rol | .ror => [.n, .z, .c]
  | .and | .ora | .eor | .lda | .ldx | .ldy | .inc | .dec | .inx | .iny | .dex | .dey | .tax | .tay | .txa | .tya
  | .tsx | .pla => [.n, .z]
  | .bit => [.n, .v, .z]
  | .plp | .rti => [.c, .z, .i, .d, .b, .v, .n]
  | .brk => if c.brkSetsI then [.b, .i] else [.b]
  | .clc | .sec => [.c]
  | .cld | .sed => [.d]
  | .cli | .sei => [.i]
  | .clv => [.v]
  | .sta | .stx | .sty | .txs | .pha | .php | .bcc | .bcs | .beq | .bmi | .bne | .bpl | .bvc | .bvs | .jmp | .jsr
  | .rts | .nop => []

/-- An instruction that stores at its operand's effective address: STA, STX, STY, INC, DEC, the memory shifts. -/
def Instr.storesOperand (i : Instr) : Bool :=
  match i.mnemonic with
  | .sta | .stx | .sty | .inc | .dec => true
  | .asl | .lsr | .rol | .ror => i.mode != .acc
  | _ => false

/-- How many bytes an instruction pushes (R216, R217, R240, R242). -/
def Instr.pushes (i : Instr) : Nat :=
  match i.mnemonic with
  | .pha | .php => 1
  | .jsr => 2
  | .brk => 3
  | _ => 0

end Sys2Proof
end

