-- ==== Sys2Proof/Certificates/Slice0/Obligations.lean ====
section
/-! DEFINITION. The statements for the provers. Each docstring says which rule of spec/ it formalises; "decision"
names a row D<n> of 92_eei_decisions.md, "log" an entry of notes/assumptions. -/

open Sys2Proof Sys2Proof.Machine

/-! ### Encoding -/

/-- Decoding the bytes of an instruction, whatever follows them, gives it back with the rest: no operand bit is dropped,
for every form at every operand value (30_encoding.md sections 1 and 2; the opcode assignment is decision D1). -/
def Obligations.DecodeOfEncode : Prop :=
  ∀ (i : Instr) (rest : List Byte), decode (encode i ++ rest) = .ok (i, rest)

/-- Bytes that decode are the bytes of the instruction they decode to: each instruction has one encoding (30_encoding.md
sections 1 and 2; decision D1). -/
def Obligations.EncodeOfDecode : Prop :=
  ∀ (bytes rest : List Byte) (i : Instr), decode bytes = .ok (i, rest) → bytes = encode i ++ rest

/-- An opcode is refused as Absent, by name, exactly when it is one of the 105 listed values (decision D1). -/
def Obligations.AbsentOpcodesAreTheListed : Prop :=
  ∀ (op : Byte) (rest : List Byte), decode (op :: rest) = .error (.absentOpcode op) ↔ op ∈ absentOpcodes

/-- Words written out from the opcode map and the operand layouts decode to the instructions they stand for, one or more
of each family (95_test_vectors.md; decision D1). -/
def Obligations.SpecWordsDecode : Prop :=
  decode [0x69, 0x40] = .ok (.adcImm 0x40, []) ∧
  decode [0xF1, 0x20] = .ok (.sbcIndy 0x20, []) ∧
  decode [0xBD, 0x34, 0x12] = .ok (.ldaAbsx 0x1234, []) ∧
  decode [0x96, 0x10] = .ok (.stxZpy 0x10, []) ∧
  decode [0x7E, 0x34, 0x12] = .ok (.rorAbsx 0x1234, []) ∧
  decode [0x4A] = .ok (.lsrAcc, []) ∧
  decode [0xBA] = .ok (.tsx, []) ∧
  decode [0x6C, 0xFF, 0x10] = .ok (.jmpInd 0x10FF, []) ∧
  decode [0x30, 0x80] = .ok (.bmi 0x80, []) ∧
  decode [0xB8] = .ok (.clv, [])

/-- The length of an instruction is told by its opcode alone, is one more than its mode's operand bytes, and is the length
of its encoding (30_encoding.md section 1). -/
def Obligations.LengthFromOpcode : Prop :=
  ∀ i : Instr, opcodeLength i.opcode = some (encode i).length ∧ (encode i).length = 1 + i.mode.operandBytes

/-! ### Memory and the bus -/

/-- R51, the precedence of the region decode, for every configuration, and the regions of the reference parameters. -/
def Obligations.RegionPrecedence : Prop :=
  (∀ a : Word, region Config.reference a =
    if a.toNat < 0xC000 then .ram else if a.toNat < 0xD000 then .bus else .rom) ∧
  ∀ (c : Config) (a : Word),
    let inRam := c.ramBase ≤ a.toNat ∧ a.toNat < c.ramBase + c.ramSize
    (inRam → region c a = .ram) ∧
    (¬ inRam → a.toNat < c.romBase → region c a = .bus) ∧
    (¬ inRam → c.romBase ≤ a.toNat → a.toNat < c.romBase + c.romSize → region c a = .rom) ∧
    (¬ inRam → c.romBase ≤ a.toNat → c.romBase + c.romSize ≤ a.toNat → region c a = .unmapped)

/-- `MemRead`: what a read does in each region (20_memory.md sections 2 and 6; decisions D14, D15, D18). In the bus window
it sends the read frame stamped with `cycles` modulo 2^32 and gives the peer's reply, or, where the exchange fails, the
fatal fault. The model's own choices: where the reply comes from (log 7), that the trace is a field without the failed
frame (log 15), and the state a fault carries (log 10). -/
def Obligations.MemReadByRegion : Prop :=
  ∀ (s : State) (a : Word),
    let frame : Frame := { cycle := BitVec.ofNat 32 s.cycles, direction := .read, address := a, value := 0 }
    (region s.cfg a = .ram ∨ region s.cfg a = .rom → memRead a s = .ok (s.byteAt a, s)) ∧
    (∀ b rest, region s.cfg a = .bus → nextExchange s = (.ok b, rest) →
      memRead a s = .ok (b, { s with peer := rest, trace := s.trace ++ [{ frame := frame, reply := some b }] })) ∧
    (∀ rest, region s.cfg a = .bus → nextExchange s = (.fail, rest) →
      memRead a s = .error (.transportFailure frame { s with fault := some (.transportFailure frame) })) ∧
    (region s.cfg a = .unmapped →
      memRead a s = .error (.decodeViolation a .read { s with fault := some (.decodeViolation a .read) }))

/-- `MemWrite`: what a write does in each region, and which addresses are forwarded: those in a video window, and those of
the bus window where `FORWARD_BUS_WINDOW_WRITES` (20_memory.md sections 2 and 6; decisions D14, D16, D18). RAM takes the
byte, ROM and the bus window do not; a forwarded address also sends the write frame, after the RAM side, whose failure is
fatal. The model's own choices: where an exchange's end comes from (log 7), that the trace is a field without the failed
frame (log 15), and the state a fault carries (log 10). -/
def Obligations.MemWriteByRegion : Prop :=
  (∀ (c : Config) (a : Word), forwarded c a = true ↔
    (∃ w ∈ c.videoWindows, w.1.toNat ≤ a.toNat ∧ a.toNat ≤ w.2.toNat) ∨
      (region c a = .bus ∧ c.forwardBusWindowWrites = true)) ∧
  ∀ (s : State) (a : Word) (v : Byte),
    let frame : Frame := { cycle := BitVec.ofNat 32 s.cycles, direction := .write, address := a, value := v }
    let stored : State := if region s.cfg a = .ram then { s with mem := Memory.write s.mem a.toNat v } else s
    (region s.cfg a = .unmapped →
      memWrite a v s = .error (.decodeViolation a .write { s with fault := some (.decodeViolation a .write) })) ∧
    (region s.cfg a ≠ .unmapped → forwarded s.cfg a = false → memWrite a v s = .ok ((), stored)) ∧
    (∀ b rest, region s.cfg a ≠ .unmapped → forwarded s.cfg a = true → nextExchange s = (.ok b, rest) →
      memWrite a v s =
        .ok ((), { stored with peer := rest, trace := s.trace ++ [{ frame := frame, reply := none }] })) ∧
    (∀ rest, region s.cfg a ≠ .unmapped → forwarded s.cfg a = true → nextExchange s = (.fail, rest) →
      memWrite a v s = .error (.transportFailure frame { stored with fault := some (.transportFailure frame) }))

/-- A byte stored reads back, every other address reads as before, and the canonical form is kept (20_memory.md section 2
and section 7, whose rule on the consistency of RAM this is). The canonical form, in the premise and in the last clause,
is the model's (log 13); it is an invariant (`InvariantKept`). -/
def Obligations.ReadAfterWrite : Prop :=
  ∀ (m : List Host.Cell) (a c : Word) (v : Byte), Memory.wf m = true →
    Memory.read (Memory.write m a.toNat v) c.toNat = (if c = a then v else Memory.read m c.toNat) ∧
    Memory.wf (Memory.write m a.toNat v) = true

/-- The two word reads: little-endian, low byte read first; the ordinary read goes on to the next address, the page-wrap
read to the start of the same page when the low byte of the pointer is 0xFF; a fault of either access is the read's
(20_memory.md section 3; decision D5). -/
def Obligations.WordReads : Prop :=
  ∀ (s : State) (a : Word),
    let wrapped := if a.setWidth 8 = 0xFF#8 then a &&& 0xFF00 else a + 1
    (∀ lo t, memRead a s = .ok (lo, t) →
      (∀ hi u, memRead (a + 1) t = .ok (hi, u) → readWord a s = .ok (hi ++ lo, u)) ∧
      (∀ e, memRead (a + 1) t = .error e → readWord a s = .error e) ∧
      (∀ hi u, memRead wrapped t = .ok (hi, u) → readWordBug a s = .ok (hi ++ lo, u)) ∧
      (∀ e, memRead wrapped t = .error e → readWordBug a s = .error e)) ∧
    (∀ e, memRead a s = .error e → readWord a s = .error e ∧ readWordBug a s = .error e)

/-- The effective address of each of the eleven modes, after the operand bytes: zero-page sums wrap in the page, the rest
wrap modulo 2^16; a fault of a pointer read is the resolver's (30_encoding.md section 3; decision D6). -/
def Obligations.EffectiveAddresses : Prop :=
  ∀ (s : State) (b v : Byte) (w : Word),
    resolve (.imm v) s = .ok (s.pc - 1, s) ∧
    resolve (.zp b) s = .ok (BitVec.ofNat 16 b.toNat, s) ∧
    resolve (.zpx b) s = .ok (BitVec.ofNat 16 ((b.toNat + s.x.toNat) % 256), s) ∧
    resolve (.zpy b) s = .ok (BitVec.ofNat 16 ((b.toNat + s.y.toNat) % 256), s) ∧
    resolve (.abs w) s = .ok (w, s) ∧
    resolve (.absx w) s = .ok (BitVec.ofNat 16 (w.toNat + s.x.toNat), s) ∧
    resolve (.absy w) s = .ok (BitVec.ofNat 16 (w.toNat + s.y.toNat), s) ∧
    resolve (.rel b) s = .ok (BitVec.ofInt 16 (s.pc.toNat + b.toInt), s) ∧
    resolve (.ind w) s = readWordBug w s ∧
    resolve (.indx b) s = readWordBug (BitVec.ofNat 16 ((b.toNat + s.x.toNat) % 256)) s ∧
    (∀ p t, readWordBug (BitVec.ofNat 16 b.toNat) s = .ok (p, t) →
      resolve (.indy b) s = .ok (BitVec.ofNat 16 (p.toNat + s.y.toNat), t)) ∧
    (∀ e, readWordBug (BitVec.ofNat 16 b.toNat) s = .error e → resolve (.indy b) s = .error e)

/-- The operand access of a load or ALU instruction: resolve, add `OP_EXTRA`, then exactly one read at the effective
address; an immediate's value is its own byte; a fault of the resolver or of the read is the access's (41_load_store.md
section 3; decisions D11, D12; log 8). -/
def Obligations.OperandAccess : Prop :=
  ∀ (op : Byte) (o : Operand) (s : State),
    (∀ ea s1, resolve o s = .ok (ea, s1) →
      (∀ m s2, memRead ea (s1.plusCycles (s.cfg.extra op)) = .ok (m, s2) →
        loadOperand op o s = .ok ((match o with | .imm v => v | _ => m), s2)) ∧
      (∀ e, memRead ea (s1.plusCycles (s.cfg.extra op)) = .error e → loadOperand op o s = .error e)) ∧
    (∀ e, resolve o s = .error e → loadOperand op o s = .error e)

/-- The stack primitives: push stores at 0x0100 + SP and then lowers SP modulo 256, pull raises SP modulo 256 and then
reads there; a word is pushed high byte first and pulled low byte first; the stack never leaves page 0x01; a fault of an
access is the primitive's (20_memory.md section 4; decision D3). -/
def Obligations.PushAndPull : Prop :=
  ∀ (s : State) (v : Byte) (w : Word),
    (∀ t, memWrite (BitVec.ofNat 16 (0x100 + s.sp.toNat)) v s = .ok ((), t) →
      push v s = .ok ((), { t with sp := BitVec.ofNat 8 (s.sp.toNat + 255) })) ∧
    (∀ e, memWrite (BitVec.ofNat 16 (0x100 + s.sp.toNat)) v s = .error e → push v s = .error e) ∧
    (let sp := BitVec.ofNat 8 (s.sp.toNat + 1)
     pull s = memRead (BitVec.ofNat 16 (0x100 + sp.toNat)) { s with sp := sp }) ∧
    (∀ t, push (w.extractLsb' 8 8) s = .ok ((), t) → pushWord w s = push (w.extractLsb' 0 8) t) ∧
    (∀ e, push (w.extractLsb' 8 8) s = .error e → pushWord w s = .error e) ∧
    (∀ lo t hi u, pull s = .ok (lo, t) → pull t = .ok (hi, u) → pullWord s = .ok (hi ++ lo, u)) ∧
    (∀ e, (pull s = .error e ∨ ∃ lo t, pull s = .ok (lo, t) ∧ pull t = .error e) → pullWord s = .error e)

/-- Pulling a word undoes pushing it, for every SP, its wrap included (20_memory.md section 4; decision D3). -/
def Obligations.PullWordUndoesPushWord : Prop :=
  ∀ (s : State) (w : Word), s.StackIsRam → Memory.wf s.mem = true →
    ∃ t u, pushWord w s = .ok ((), t) ∧ t.sp = s.sp - 2 ∧ pullWord t = .ok (w, u) ∧ u.sp = s.sp ∧ u.mem = t.mem

/-- The eight bytes of a frame: the cycle stamp, the direction, the address, the value, little-endian (20_memory.md
section 6; its byte layout is the spec's inference from the field order). -/
def Obligations.FrameLayout : Prop :=
  ∀ f : Frame, f.bytes.length = 8 ∧
    BitVec.ofNat 32 ((f.bytes.take 4).foldr (fun b n => b.toNat + 256 * n) 0) = f.cycle ∧
    (f.bytes[4]?).map BitVec.toNat = some (match f.direction with | .read => 0 | .write => 1) ∧
    BitVec.ofNat 16 (((f.bytes.drop 5).take 2).foldr (fun b n => b.toNat + 256 * n) 0) = f.address ∧
    f.bytes[7]? = some f.value

/-! ### The flag engine -/

/-- R140 and R141: the result is the integer modulo 256, Z and N are of that result, and `update_nzc` also sets C exactly
above 255; nothing else changes. -/
def Obligations.UpdateNzArithmetic : Prop :=
  ∀ (v : Int) (f : Flags),
    (((updateNz v f).1.toNat : Int) = v % 256 ∧
      (updateNz v f).2 = { f with z := decide (v % 256 = 0), n := decide (128 ≤ v % 256) }) ∧
    (((updateNzc v f).1.toNat : Int) = v % 256 ∧
      (updateNzc v f).2 =
        { f with z := decide (v % 256 = 0), n := decide (128 ≤ v % 256), c := decide (v > 255) })

/-- The status byte: every flag at its bit, bit 5 set; setting the status restores the flags and ignores bit 5
(10_state.md section 3; the positions other than 4 and 5 are decision D2). -/
def Obligations.StatusBytePacking : Prop :=
  (∀ f : Flags, (statusByte f).toNat =
    f.c.toNat + 2 * f.z.toNat + 4 * f.i.toNat + 8 * f.d.toNat + 16 * f.b.toNat + 32 + 64 * f.v.toNat +
      128 * f.n.toNat) ∧
  (∀ f : Flags, setStatus (statusByte f) = f) ∧
  (∀ p : Byte, statusByte (setStatus p) = p ||| 0x20)

/-! ### What the instructions do -/

/-- ADC, every form (40_alu.md sections 1 and 2; the guard's place is decision D24). With D = 1, once the resolver's
accesses are done, the fatal DecimalMode with the instruction's address and opcode, and no operand read; a fault of those
accesses comes first. With D = 0 the sum: A is the unsigned trial modulo 256, C is set above 255, V outside -128..127 of
the signed trial, N and Z of the result; a fault of the operand's accesses is the instruction's. The state the fault
carries, registers and memory included, is the model's choice (log 10). -/
def Obligations.AdcResult : Prop :=
  ∀ (i : Instr) (o : Operand) (s : State), i.mnemonic = .adc → i.operand = some o →
    (∀ ea t, s.flags.d = true → resolve o s = .ok (ea, t) →
      exec i s = .fault (.decimalMode (s.pc - BitVec.ofNat 16 i.length) i.opcode
        { t with fault := some (.decimalMode (s.pc - BitVec.ofNat 16 i.length) i.opcode) })) ∧
    (∀ e, s.flags.d = true → resolve o s = .error e → exec i s = .fault e) ∧
    (∀ m t, s.flags.d = false → loadOperand i.opcode o s = .ok (m, t) →
      let u := s.a.toNat + m.toNat + s.flags.c.toNat
      let sg := s.a.toInt + m.toInt + (s.flags.c.toNat : Int)
      let r := BitVec.ofNat 8 u
      exec i s = .next { t with
        a := r
        flags := { s.flags with
          c := decide (u > 255)
          v := decide (sg > 127 ∨ sg < -128)
          z := decide (r = 0)
          n := r.getLsbD 7 } }) ∧
    (∀ e, s.flags.d = false → loadOperand i.opcode o s = .error e → exec i s = .fault e)

/-- SBC, every form: as ADC, its faults included, with the difference A - m - (1 - C), C set when it is not negative
(40_alu.md section 2; decision D24; the borrow term is the spec's general knowledge, 93_implementation_defined.md G11).
The state the fault carries, registers and memory included, is the model's choice (log 10). -/
def Obligations.SbcResult : Prop :=
  ∀ (i : Instr) (o : Operand) (s : State), i.mnemonic = .sbc → i.operand = some o →
    (∀ ea t, s.flags.d = true → resolve o s = .ok (ea, t) →
      exec i s = .fault (.decimalMode (s.pc - BitVec.ofNat 16 i.length) i.opcode
        { t with fault := some (.decimalMode (s.pc - BitVec.ofNat 16 i.length) i.opcode) })) ∧
    (∀ e, s.flags.d = true → resolve o s = .error e → exec i s = .fault e) ∧
    (∀ m t, s.flags.d = false → loadOperand i.opcode o s = .ok (m, t) →
      let u := (s.a.toNat : Int) - m.toNat - (1 - (s.flags.c.toNat : Int))
      let sg := s.a.toInt - m.toInt - (1 - (s.flags.c.toNat : Int))
      let r := BitVec.ofInt 8 u
      exec i s = .next { t with
        a := r
        flags := { s.flags with
          c := decide (u ≥ 0)
          v := decide (sg > 127 ∨ sg < -128)
          z := decide (r = 0)
          n := r.getLsbD 7 } }) ∧
    (∀ e, s.flags.d = false → loadOperand i.opcode o s = .error e → exec i s = .fault e)

/-- V of ADC and SBC by bits: the operands' signs agree (differ, for SBC) and the result's differs from A's (40_alu.md
section 2, which marks it derived). -/
def Obligations.OverflowByBits : Prop :=
  ∀ (a m : Byte) (f : Flags),
    ((adcResult a m f).2.v = ((a ^^^ (adcResult a m f).1) &&& (m ^^^ (adcResult a m f).1)).getLsbD 7) ∧
    ((sbcResult a m f).2.v = ((a ^^^ m) &&& (a ^^^ (sbcResult a m f).1)).getLsbD 7)

/-- AND, ORA and EOR, every form: the bitwise result in A, N and Z of it, C and V unchanged; a fault of the operand's
accesses is the instruction's (40_alu.md section 3; decision D10). -/
def Obligations.LogicResult : Prop :=
  ∀ (i : Instr) (o : Operand) (s : State), i.operand = some o →
    i.mnemonic = .and ∨ i.mnemonic = .ora ∨ i.mnemonic = .eor →
    (∀ m t, loadOperand i.opcode o s = .ok (m, t) →
      let r := if i.mnemonic = .and then s.a &&& m else if i.mnemonic = .ora then s.a ||| m else s.a ^^^ m
      exec i s = .next { t with a := r, flags := s.flags.withNz r }) ∧
    (∀ e, loadOperand i.opcode o s = .error e → exec i s = .fault e)

/-- R148, R149, R150 for every form of CMP, CPX and CPY, at its encoding: C set when the register is not below the operand, N and Z of the
difference modulo 256; registers, V and the rest unchanged, D without effect. -/
def Obligations.CompareResult : Prop :=
  ∀ (i : Instr) (o : Operand) (s : State), i.operand = some o →
    i.mnemonic = .cmp ∨ i.mnemonic = .cpx ∨ i.mnemonic = .cpy →
    (i.mnemonic, o.mode, i.opcode) ∈
      [(.cmp, .imm, 0xC9), (.cmp, .zp, 0xC5), (.cmp, .zpx, 0xD5), (.cmp, .abs, 0xCD), (.cmp, .absx, 0xDD),
       (.cmp, .absy, 0xD9), (.cmp, .indx, 0xC1), (.cmp, .indy, 0xD1), (.cpx, .imm, 0xE0), (.cpx, .zp, 0xE4),
       (.cpx, .abs, 0xEC), (.cpy, .imm, 0xC0), (.cpy, .zp, 0xC4), (.cpy, .abs, 0xCC)] ∧
    (∀ m t, loadOperand i.opcode o s = .ok (m, t) →
      let reg := if i.mnemonic = .cmp then s.a else if i.mnemonic = .cpx then s.x else s.y
      exec i s = .next { t with
        flags := { s.flags with
          c := decide (m.toNat ≤ reg.toNat)
          z := decide (reg = m)
          n := (reg - m).getLsbD 7 } }) ∧
    (∀ e, loadOperand i.opcode o s = .error e → exec i s = .fault e)

/-- R151 for both forms of BIT, at its encoding: N and V are bits 7 and 6 of the operand, Z of A AND the operand; A and C unchanged. -/
def Obligations.BitResult : Prop :=
  ∀ (i : Instr) (o : Operand) (s : State), i.mnemonic = .bit → i.operand = some o →
    (o.mode, i.opcode) ∈ [(.zp, 0x24), (.abs, 0x2C)] ∧
    (∀ m t, loadOperand i.opcode o s = .ok (m, t) →
      exec i s = .next { t with
        flags := { s.flags with
          n := m.getLsbD 7
          v := m.getLsbD 6
          z := decide (s.a &&& m = 0) } }) ∧
    (∀ e, loadOperand i.opcode o s = .error e → exec i s = .fault e)

/-- LDA, LDX and LDY, every form: the register is the operand, N and Z of it, other flags unchanged; a fault of the
operand's accesses is the instruction's (41_load_store.md section 1; decision D10). -/
def Obligations.LoadResult : Prop :=
  ∀ (i : Instr) (o : Operand) (s : State), i.operand = some o →
    (∀ m t, loadOperand i.opcode o s = .ok (m, t) →
      (i.mnemonic = .lda → exec i s = .next { t with a := m, flags := s.flags.withNz m }) ∧
      (i.mnemonic = .ldx → exec i s = .next { t with x := m, flags := s.flags.withNz m }) ∧
      (i.mnemonic = .ldy → exec i s = .next { t with y := m, flags := s.flags.withNz m })) ∧
    (∀ e, i.mnemonic = .lda ∨ i.mnemonic = .ldx ∨ i.mnemonic = .ldy →
      loadOperand i.opcode o s = .error e → exec i s = .fault e)

/-- STA, STX and STY, every form: resolve, add `OP_EXTRA`, store the register at the effective address, and nothing else:
no flag, no read there; a fault of the resolver or of the store is the instruction's (41_load_store.md section 2;
60_exceptions.md section 3; decisions D10, D11, D24). -/
def Obligations.StoreResult : Prop :=
  ∀ (i : Instr) (o : Operand) (s : State), i.operand = some o → i.mnemonic ∈ [.sta, .stx, .sty] →
    let v := if i.mnemonic = .sta then s.a else if i.mnemonic = .stx then s.x else s.y
    (∀ ea s1, resolve o s = .ok (ea, s1) →
      (∀ t, memWrite ea v (s1.plusCycles (s.cfg.extra i.opcode)) = .ok ((), t) → exec i s = .next t) ∧
      (∀ e, memWrite ea v (s1.plusCycles (s.cfg.extra i.opcode)) = .error e → exec i s = .fault e)) ∧
    (∀ e, resolve o s = .error e → exec i s = .fault e)

/-- ASL, LSR, ROL, ROR, INC and DEC in memory: one read, one write of the new value, N and Z of it, C the bit shifted out
(INC and DEC keep it), V and the rest unchanged; a fault of the read or, after it, of the write is the instruction's (no
form has a pointer to read first) (42_rmw.md sections 1 to 3; 60_exceptions.md section 3; decisions D10, D11, D24). -/
def Obligations.ReadModifyWriteResult : Prop :=
  ∀ (i : Instr) (o : Operand) (s s1 : State) (ea : Word), i.operand = some o →
    i.mnemonic ∈ [.asl, .lsr, .rol, .ror, .inc, .dec] → resolve o s = .ok (ea, s1) →
    (∀ m s2, memRead ea (s1.plusCycles (s.cfg.extra i.opcode)) = .ok (m, s2) →
      let r := rmwValue i.mnemonic m s.flags.c
      let g := { s.flags with c := rmwCarry i.mnemonic m s.flags.c }
      (∀ t, memWrite ea r { s2 with flags := g.withNz r } = .ok ((), t) → exec i s = .next t) ∧
      (∀ e, memWrite ea r { s2 with flags := g.withNz r } = .error e → exec i s = .fault e)) ∧
    (∀ e, memRead ea (s1.plusCycles (s.cfg.extra i.opcode)) = .error e → exec i s = .fault e)

/-- ASL, LSR, ROL and ROR of the accumulator: no access; A, N, Z and C as in memory (42_rmw.md sections 1 and 2; decision
D10). -/
def Obligations.ShiftAccumulatorResult : Prop :=
  ∀ (i : Instr) (s : State), i ∈ [.aslAcc, .lsrAcc, .rolAcc, .rorAcc] →
    let r := rmwValue i.mnemonic s.a s.flags.c
    let g := { s.flags with c := rmwCarry i.mnemonic s.a s.flags.c }
    exec i s = .next { s.plusCycles (s.cfg.extra i.opcode) with a := r, flags := g.withNz r }

/-- INX, INY, DEX and DEY: the register modulo 256, N and Z of it (42_rmw.md section 3; decision D10). -/
def Obligations.CountRegisterResult : Prop :=
  ∀ s : State,
    exec .inx s = .next { s.plusCycles (s.cfg.extra 0xE8) with x := s.x + 1, flags := s.flags.withNz (s.x + 1) } ∧
    exec .iny s = .next { s.plusCycles (s.cfg.extra 0xC8) with y := s.y + 1, flags := s.flags.withNz (s.y + 1) } ∧
    exec .dex s = .next { s.plusCycles (s.cfg.extra 0xCA) with x := s.x - 1, flags := s.flags.withNz (s.x - 1) } ∧
    exec .dey s = .next { s.plusCycles (s.cfg.extra 0x88) with y := s.y - 1, flags := s.flags.withNz (s.y - 1) }

/-- The transfers: TAX, TAY, TXA, TYA and TSX copy and set N and Z, TXS copies and writes no flag (43_transfer_stack.md
section 1; decision D10). -/
def Obligations.TransferResult : Prop :=
  ∀ s : State,
    exec .tax s = .next { s.plusCycles (s.cfg.extra 0xAA) with x := s.a, flags := s.flags.withNz s.a } ∧
    exec .tay s = .next { s.plusCycles (s.cfg.extra 0xA8) with y := s.a, flags := s.flags.withNz s.a } ∧
    exec .txa s = .next { s.plusCycles (s.cfg.extra 0x8A) with a := s.x, flags := s.flags.withNz s.x } ∧
    exec .tya s = .next { s.plusCycles (s.cfg.extra 0x98) with a := s.y, flags := s.flags.withNz s.y } ∧
    exec .tsx s = .next { s.plusCycles (s.cfg.extra 0xBA) with x := s.sp, flags := s.flags.withNz s.sp } ∧
    exec .txs s = .next { s.plusCycles (s.cfg.extra 0x9A) with sp := s.x }

/-- PHA and PHP: the byte stored at 0x0100 + SP, SP lowered, no flag written; PHP pushes B as it is stored and bit 5 set;
a fault of the store is the instruction's (43_transfer_stack.md section 2; decisions D3, D9, D10). -/
def Obligations.PushRegisterResult : Prop :=
  ∀ s : State,
    let pha := memWrite (stackAddress s.sp) s.a (s.plusCycles (s.cfg.extra 0x48))
    let php := memWrite (stackAddress s.sp) (statusByte s.flags) (s.plusCycles (s.cfg.extra 0x08))
    (∀ t, pha = .ok ((), t) → exec .pha s = .next { t with sp := s.sp - 1 }) ∧
    (∀ e, pha = .error e → exec .pha s = .fault e) ∧
    (∀ t, php = .ok ((), t) → exec .php s = .next { t with sp := s.sp - 1 }) ∧
    (∀ e, php = .error e → exec .php s = .fault e)

/-- PLA and PLP: SP raised, the byte read at 0x0100 + SP; PLA sets N and Z, PLP all seven flags; a fault of the read is
the instruction's (43_transfer_stack.md section 2; decisions D3, D10). -/
def Obligations.PullRegisterResult : Prop :=
  ∀ s : State,
    let pla := memRead (stackAddress (s.sp + 1)) { s.plusCycles (s.cfg.extra 0x68) with sp := s.sp + 1 }
    let plp := memRead (stackAddress (s.sp + 1)) { s.plusCycles (s.cfg.extra 0x28) with sp := s.sp + 1 }
    (∀ m t, pla = .ok (m, t) → exec .pla s = .next { t with a := m, flags := s.flags.withNz m }) ∧
    (∀ e, pla = .error e → exec .pla s = .fault e) ∧
    (∀ m t, plp = .ok (m, t) → exec .plp s = .next { t with flags := setStatus m }) ∧
    (∀ e, plp = .error e → exec .plp s = .fault e)

/-- The eight branches, taken and not: taken, PC is the next instruction's address plus the signed offset modulo 2^16 and
one cycle is added; not taken, PC stays; nothing else changes (44_control.md section 1; decision D10). -/
def Obligations.BranchResult : Prop :=
  ∀ (i : Instr) (off : Byte) (s : State), i.operand = some (.rel off) →
    let u := s.plusCycles (s.cfg.extra i.opcode)
    (branchTaken i.mnemonic s.flags = true →
      exec i s = .next { u with cycles := u.cycles + 1, pc := BitVec.ofInt 16 (s.pc.toNat + off.toInt) }) ∧
    (branchTaken i.mnemonic s.flags = false → exec i s = .next u)

/-- JMP, both forms: PC is the effective address; no other access, no flag; a fault of the pointer read is the
instruction's (44_control.md section 2; decision D12). -/
def Obligations.JumpResult : Prop :=
  ∀ (i : Instr) (o : Operand) (s : State), i.mnemonic = .jmp → i.operand = some o →
    (∀ ea t, resolve o s = .ok (ea, t) → exec i s = .next { t.plusCycles (s.cfg.extra i.opcode) with pc := ea }) ∧
    (∀ e, resolve o s = .error e → exec i s = .fault e)

/-- JSR pushes the address of its last byte and jumps to its operand; RTS pulls an address and goes on after it, modulo
2^16; a fault of the pushes or pulls is the instruction's (44_control.md section 2; decisions D3, D7). -/
def Obligations.CallAndReturnResult : Prop :=
  ∀ (s : State) (w : Word),
    (∀ t, pushWord (s.pc - 1) (s.plusCycles (s.cfg.extra 0x20)) = .ok ((), t) →
      exec (.jsr w) s = .next { t with pc := w }) ∧
    (∀ e, pushWord (s.pc - 1) (s.plusCycles (s.cfg.extra 0x20)) = .error e → exec (.jsr w) s = .fault e) ∧
    (∀ t, pullWord (s.plusCycles (s.cfg.extra 0x60)) = .ok (w, t) → exec .rts s = .next { t with pc := w + 1 }) ∧
    (∀ e, pullWord (s.plusCycles (s.cfg.extra 0x60)) = .error e → exec .rts s = .fault e)

/-- BRK: pushes the BRK's address + 2 (PC + 1 here) high byte first, then the status byte with B as it was; sets B, and I
exactly where `BRK_SETS_I`; PC is the word at 0xFFFE; the first fault among the pushes and the vector read is the
instruction's (44_control.md section 3; 60_exceptions.md sections 3 and 4; decisions D3, D4, D8, D9). -/
def Obligations.BrkResult : Prop :=
  ∀ s : State,
    (∀ t, pushWord (s.pc + 1) (s.plusCycles (s.cfg.extra 0x00)) = .ok ((), t) →
      (∀ u, push (statusByte s.flags) t = .ok ((), u) →
        let vector := readWord 0xFFFE { u with
          flags := { s.flags with b := true, i := s.flags.i || s.cfg.brkSetsI } }
        (∀ target v, vector = .ok (target, v) → exec .brk s = .next { v with pc := target }) ∧
        (∀ e, vector = .error e → exec .brk s = .fault e)) ∧
      (∀ e, push (statusByte s.flags) t = .error e → exec .brk s = .fault e)) ∧
    (∀ e, pushWord (s.pc + 1) (s.plusCycles (s.cfg.extra 0x00)) = .error e → exec .brk s = .fault e)

/-- RTI: pulls the status byte into all seven flags, bit 5 ignored, then PC with no adjustment; the first fault among the
pulls is the instruction's (44_control.md section 3; 60_exceptions.md sections 3 and 4; decisions D2, D3). -/
def Obligations.RtiResult : Prop :=
  ∀ s : State,
    (∀ p t, pull (s.plusCycles (s.cfg.extra 0x40)) = .ok (p, t) →
      (∀ target u, pullWord { t with flags := setStatus p } = .ok (target, u) →
        exec .rti s = .next { u with pc := target }) ∧
      (∀ e, pullWord { t with flags := setStatus p } = .error e → exec .rti s = .fault e)) ∧
    (∀ e, pull (s.plusCycles (s.cfg.extra 0x40)) = .error e → exec .rti s = .fault e)

/-- The flag instructions change their one flag and NOP changes nothing but for `OP_EXTRA`, 0 by default
(45_flags_nop.md; decision D10). -/
def Obligations.FlagInstructionResult : Prop :=
  ∀ s : State,
    exec .clc s = .next { s.plusCycles (s.cfg.extra 0x18) with flags := { s.flags with c := false } } ∧
    exec .cld s = .next { s.plusCycles (s.cfg.extra 0xD8) with flags := { s.flags with d := false } } ∧
    exec .cli s = .next { s.plusCycles (s.cfg.extra 0x58) with flags := { s.flags with i := false } } ∧
    exec .clv s = .next { s.plusCycles (s.cfg.extra 0xB8) with flags := { s.flags with v := false } } ∧
    exec .sec s = .next { s.plusCycles (s.cfg.extra 0x38) with flags := { s.flags with c := true } } ∧
    exec .sed s = .next { s.plusCycles (s.cfg.extra 0xF8) with flags := { s.flags with d := true } } ∧
    exec .sei s = .next { s.plusCycles (s.cfg.extra 0x78) with flags := { s.flags with i := true } } ∧
    exec .nop s = .next (s.plusCycles (s.cfg.extra 0xEA))

/-! ### Frames: what instructions leave unchanged -/

/-- Every register an instruction does not write keeps its value, for all 151 forms (10_state.md sections 1 and 2, whose
tables are the spec's inference). -/
def Obligations.RegisterFrame : Prop :=
  ∀ (i : Instr) (s t : State) (r : Reg), exec i s = .next t → r ∉ i.regsWritten → t.reg r = s.reg r

/-- Every flag an instruction does not write keeps its value, for all 151 forms (10_state.md section 3, whose table is the
spec's inference). -/
def Obligations.FlagFrame : Prop :=
  ∀ (i : Instr) (s t : State) (f : Flag), exec i s = .next t → f ∉ i.flagsWritten s.cfg →
    t.flags.get f = s.flags.get f

/-- STA, STX, STY and the read-modify-write instructions in memory leave every byte outside the one at their effective
address as it was (20_memory.md section 2; 42_rmw.md section 1). -/
def Obligations.StoreMemoryFrame : Prop :=
  ∀ (i : Instr) (o : Operand) (s s1 t : State) (ea a : Word), i.storesOperand = true → i.operand = some o →
    resolve o s = .ok (ea, s1) → exec i s = .next t → a ≠ ea → t.byteAt a = s.byteAt a

/-- Every other instruction leaves every byte as it was outside the stack bytes it pushes: one for PHA and PHP, two for
JSR, three for BRK, from 0x0100 + SP down with SP modulo 256, none for the rest (20_memory.md section 4; 43, 44). -/
def Obligations.PushMemoryFrame : Prop :=
  ∀ (i : Instr) (s t : State) (a : Word), i.storesOperand = false → exec i s = .next t →
    (∀ k < i.pushes, a ≠ BitVec.ofNat 16 (0x100 + (s.sp - BitVec.ofNat 8 k).toNat)) → t.byteAt a = s.byteAt a

/-- No instruction writes a run-control bit, the halt or fault record, the host's queue or the parameters; and none but
the control transfers writes PC (10_state.md sections 2 and 4; 30_encoding.md section 4). -/
def Obligations.ControlStateFrame : Prop :=
  ∀ (i : Instr) (s t : State), exec i s = .next t →
    t.running = s.running ∧ t.quit = s.quit ∧ t.haltInfo = s.haltInfo ∧ t.fault = s.fault ∧ t.pending = s.pending ∧
    t.responses = s.responses ∧ t.batchLeft = s.batchLeft ∧ t.cfg = s.cfg ∧
    (i.mnemonic ∉ [.bcc, .bcs, .beq, .bmi, .bne, .bpl, .bvc, .bvs, .jmp, .jsr, .rts, .brk, .rti] → t.pc = s.pc)

/-! ### Rules over several instructions -/

/-- DecimalMode is raised by ADC and SBC alone, only with D = 1, and it records the instruction's own address and opcode
(60_exceptions.md section 1, which marks the table derived; decision D24). -/
def Obligations.DecimalModeOnlyFromAdcSbc : Prop :=
  ∀ (i : Instr) (s t : State) (a0 : Word) (op : Byte), exec i s = .fault (.decimalMode a0 op t) →
    (i.mnemonic = .adc ∨ i.mnemonic = .sbc) ∧ s.flags.d = true ∧ a0 = s.pc - BitVec.ofNat 16 i.length ∧ op = i.opcode

/-- RTS returns after its JSR: with the stack page plain RAM, JSR completes, and RTS in the state it leaves restores PC
and SP, for every SP (44_control.md section 2; 95_test_vectors.md E4; decisions D3, D7). -/
def Obligations.RtsReturnsFromJsr : Prop :=
  ∀ (s : State) (w : Word), s.StackIsRam → Memory.wf s.mem = true →
    ∃ t u, exec (.jsr w) s = .next t ∧ t.pc = w ∧ exec .rts t = .next u ∧ u.pc = s.pc ∧ u.sp = s.sp

/-- RTI exactly reverses BRK: with the stack page and the vector in plain memory, BRK completes at the vector with B set,
and RTI in the state it leaves restores all seven flags and SP, and resumes at the BRK's address + 2 (44_control.md
section 3; 95_test_vectors.md E5; decisions D3, D4, D8, D9). -/
def Obligations.RtiReversesBrk : Prop :=
  ∀ s : State, s.StackIsRam → Memory.wf s.mem = true → s.plain 0xFFFE = true → s.plain 0xFFFF = true →
    ∃ t u, exec .brk s = .next t ∧ t.pc = t.byteAt 0xFFFF ++ t.byteAt 0xFFFE ∧ t.flags.b = true ∧
      t.flags.i = (s.flags.i || s.cfg.brkSetsI) ∧
      exec .rti t = .next u ∧ u.flags = s.flags ∧ u.pc = s.pc + 1 ∧ u.sp = s.sp

/-! ### The sequencer -/

/-- A step runs the decoded instruction: enabled, with the instruction's bytes in RAM or ROM, the step is `exec` of what
they decode to, on the state with PC past it, the fetch and mode stages' cycles added, and the batch counted
(30_encoding.md section 4; decision D12; log 8, log 14). -/
def Obligations.StepRunsDecodedInstruction : Prop :=
  ∀ (s : State) (i : Instr) (rest : List Byte),
    s.fault = none → s.quit = false → s.running = true → s.pending = [] ∨ s.batchLeft ≠ 0 →
    (∀ k < i.length, s.plain (s.pc + BitVec.ofNat 16 k) = true) →
    decode [s.byteAt s.pc, s.byteAt (s.pc + 1), s.byteAt (s.pc + 2)] = .ok (i, rest) →
    step s = exec i { s with
      pc := s.pc + BitVec.ofNat 16 i.length
      cycles := s.cycles + 2 + (modeDelta i.mode (indexedWrite i.mnemonic i.mode)).toNat
      batchLeft := (if s.batchLeft = 0 then s.cfg.batch else s.batchLeft) - 1 }

/-- Wherever the bytes are, the bus window included: when the fetch and mode stages complete with an instruction the step
is `exec` of it on the state they leave, when they complete with none (an Absent opcode) it is that state, and when they
fault the step is that fault (30_encoding.md section 4). The batch, in the premise and in the count, is the model's
(log 14). -/
def Obligations.StepIsFetchThenExec : Prop :=
  ∀ s : State, s.fault = none → s.quit = false → s.running = true → s.pending = [] ∨ s.batchLeft ≠ 0 →
    (∀ i t, fetch s.countInstruction = .ok (some i, t) → step s = exec i t) ∧
    (∀ t, fetch s.countInstruction = .ok (none, t) → step s = .next t) ∧
    (∀ e, fetch s.countInstruction = .error e → step s = .fault e)

/-- The unknown-opcode halt: an Absent opcode at PC, wherever it is read from, stops the loop and records its address and
byte, PC one further and `cycles` up by 2 before the read, nothing else changed but what the read does; in RAM or ROM that
is nothing; a fault of the opcode read comes before the halt (60_exceptions.md sections 1 and 3, the halt's state marked
derived; decisions D12, D23, D24; log 14 for the batch). -/
def Obligations.StepHaltsOnAbsentOpcode : Prop :=
  ∀ s : State, s.fault = none → s.quit = false → s.running = true → s.pending = [] ∨ s.batchLeft ≠ 0 →
    let u : State := { s with
      cycles := s.cycles + 2
      batchLeft := (if s.batchLeft = 0 then s.cfg.batch else s.batchLeft) - 1 }
    (∀ op t, memRead s.pc u = .ok (op, t) → op ∈ absentOpcodes →
      step s = .next { t with pc := s.pc + 1, haltInfo := some (s.pc, op), running := false }) ∧
    (s.plain s.pc = true → s.byteAt s.pc ∈ absentOpcodes →
      step s = .next { u with pc := s.pc + 1, haltInfo := some (s.pc, s.byteAt s.pc), running := false }) ∧
    (∀ e, memRead s.pc u = .error e → step s = .fault e)

/-- No step when the sequencer is not enabled: a recorded fault is given again, a state that has quit stays, a halted state
with no host command stays (10_state.md section 4; 30_encoding.md section 4; decision D29; log 10, 11, 12). -/
def Obligations.StepWhenNotEnabled : Prop :=
  ∀ s : State,
    (∀ r, s.fault = some r → step s = .fault (r.toFault s)) ∧
    (s.fault = none → s.quit = true → step s = .next s) ∧
    (s.fault = none → s.running = false → s.pending = [] → step s = .next s)

/-- The reset command at a service point: it loads PC from 0xFFFC, sets `running` and clears the halt record, and nothing
else but what the two reads do; a fault of the reads is fatal; with `fault` set it has no effect (70_reset_and_hazards.md
section 1; decision D4). The queue and `batchLeft` are the model's own (log 14), and so is the step that gives a recorded
fault again, with the state it carries (log 10). -/
def Obligations.ResetCommandEffect : Prop :=
  ∀ (s : State) (rest : List HostCommand), s.pending = .reset :: rest →
    (∀ w t, s.fault = none → s.quit = false → s.running = false ∨ s.batchLeft = 0 →
      readWord 0xFFFC { s with pending := rest, batchLeft := 0 } = .ok (w, t) →
      step s = .next { t with pc := w, running := true, haltInfo := none }) ∧
    (∀ e, s.fault = none → s.quit = false → s.running = false ∨ s.batchLeft = 0 →
      readWord 0xFFFC { s with pending := rest, batchLeft := 0 } = .error e → step s = .fault e) ∧
    (∀ r, s.fault = some r → step s = .fault (r.toFault s))

/-- The other host commands at a service point. Status returns A, X, Y, SP, PC, the status byte and `cycles` and changes
nothing. A memory read is a `MemRead` of each address in ascending order and returns the bytes; of RAM and ROM it changes
nothing. A memory write is a `MemWrite` of each byte in ascending order. Disassemble reads each instruction's bytes with
`MemRead`, as many as its opcode says, and returns the decoded instructions. A fault of an access is fatal. Quit sets
`quit` (60_exceptions.md section 7; 10_state.md section 3 for the status byte; decisions D26, D32). The queue is the
model's (log 14), and so are addresses past 0xFFFF and the line of an Absent opcode (log 16). -/
def Obligations.HostCommandEffects : Prop :=
  (∀ (s : State) (c : HostCommand) (rest : List HostCommand), s.pending = c :: rest → s.fault = none →
    s.quit = false → s.running = false ∨ s.batchLeft = 0 →
    let u := { s with pending := rest, batchLeft := 0 }
    (c = .status → step s = .next { u with
      responses := s.responses ++ [.status s.a s.x s.y s.sp s.pc (statusByte s.flags) s.cycles] }) ∧
    (∀ (a : Word) (n : Nat), c = .readMemory a (a + BitVec.ofNat 16 n) → a.toNat + n < 0x10000 →
      let reads := ((List.range (n + 1)).map fun k => a + BitVec.ofNat 16 k).mapM memRead
      (∀ bytes t, reads u = .ok (bytes, t) →
        step s = .next { t with responses := t.responses ++ [.memory bytes] }) ∧
      (∀ e, reads u = .error e → step s = .fault e) ∧
      ((∀ k ≤ n, s.plain (a + BitVec.ofNat 16 k) = true) →
        step s = .next { u with
          responses := s.responses ++
            [.memory ((List.range (n + 1)).map fun k => s.byteAt (a + BitVec.ofNat 16 k))] })) ∧
    (∀ (a : Word) (bytes : List Byte), c = .writeMemory a bytes →
      let writes := bytes.zipIdx.forM fun p => memWrite (a + BitVec.ofNat 16 p.2) p.1
      (∀ t, writes u = .ok ((), t) → step s = .next t) ∧ (∀ e, writes u = .error e → step s = .fault e)) ∧
    (∀ (a : Word) (n : Nat), c = .disassemble a n →
      (∀ lines t, disassemble n a u = .ok (lines, t) →
        step s = .next { t with responses := t.responses ++ [.disassembly lines] }) ∧
      (∀ e, disassemble n a u = .error e → step s = .fault e)) ∧
    (c = .quit → step s = .next { u with quit := true })) ∧
  (∀ (s : State) (a : Word), disassemble 0 a s = .ok ([], s)) ∧
  (∀ (s : State) (a : Word) (n : Nat),
    (∀ e, memRead a s = .error e → disassemble (n + 1) a s = .error e) ∧
    (∀ op t, memRead a s = .ok (op, t) →
      let len := (opcodeLength op).getD 1
      let operands := ((List.range (len - 1)).map fun k => a + 1 + BitVec.ofNat 16 k).mapM memRead
      (∀ e, operands t = .error e → disassemble (n + 1) a s = .error e) ∧
      (∀ bytes v, operands t = .ok (bytes, v) →
        (∀ e, disassemble n (a + BitVec.ofNat 16 len) v = .error e → disassemble (n + 1) a s = .error e) ∧
        (∀ lines w, disassemble n (a + BitVec.ofNat 16 len) v = .ok (lines, w) →
          (∀ i, decode (op :: bytes) = .ok (i, []) → disassemble (n + 1) a s = .ok ((a, some i) :: lines, w)) ∧
          (op ∈ absentOpcodes → disassemble (n + 1) a s = .ok ((a, none) :: lines, w))))))

/-- The cost of an instruction that completes: fetch 2, the mode delta, `OP_EXTRA`, and 1 for a taken branch, whenever the
sum of the first three is not negative; the delta of each mode, without and with the indexed-write flag; which opcodes
have that flag; and with the default `OP_EXTRA` the sum is the table's cycles column, for each of the 151 opcodes
(30_encoding.md sections 1, 2 and 4, the sum marked derived; decisions D12, D13; log 18). -/
def Obligations.CycleCost : Prop :=
  (∀ (s u t : State) (i : Instr),
    fetch s = .ok (some i, u) → exec i u = .next t →
    let delta := modeDelta i.mode (indexedWrite i.mnemonic i.mode)
    0 ≤ 2 + delta + s.cfg.extra i.opcode →
    (t.cycles : Int) = s.cycles + 2 + delta + s.cfg.extra i.opcode + (branchTaken i.mnemonic s.flags).toNat) ∧
  ((∀ mode ∈ [Mode.imp, .acc, .imm, .rel], modeDelta mode false = 0) ∧
    modeDelta .zp false = 1 ∧
    (∀ mode ∈ [Mode.zpx, .zpy, .abs, .absx, .absy, .ind], modeDelta mode false = 2) ∧
    modeDelta .indy false = 3 ∧ modeDelta .indx false = 4 ∧
    modeDelta .absx true = 3 ∧ modeDelta .absy true = 3 ∧ modeDelta .indy true = 4) ∧
  (∀ i : Instr, indexedWrite i.mnemonic i.mode = true ↔
    i.opcode ∈ [0x1E, 0x3E, 0x5E, 0x7E, 0x91, 0x99, 0x9D, 0xDE, 0xFE]) ∧
  (∀ i : Instr, ∃ n ops, (n, ops) ∈ cyclesColumn ∧ i.opcode ∈ ops) ∧
  (∀ (i : Instr) (n : Int) (ops : List Byte), (n, ops) ∈ cyclesColumn → i.opcode ∈ ops →
    2 + modeDelta i.mode (indexedWrite i.mnemonic i.mode) + Config.reference.extra i.opcode = n)

/-- `cycles` never decreases from one step to the next, with the default `OP_EXTRA` (30_encoding.md section 4; 90_conflicts.md
C2; decision D12). -/
def Obligations.CyclesNeverDecrease : Prop :=
  ∀ s t : State, s.cfg.opExtra = Config.referenceExtra → step s = .next t → s.cycles ≤ t.cycles

/-! ### Invariants and rules of the whole machine -/

/-- The state at construction: registers and flags from `POWER_ON`, the counters and records at their start values, RAM
from `RAM_INIT` and ROM from `ROM_IMAGE` in a well-formed configuration, and PC from the override, or from the word at
0xFFFC read at cycle count 0 (70_reset_and_hazards.md section 1; 10_state.md section 8; decisions D4, D20, D21, D31). A
byte that an image does not give is 0, the model's value (RAM: log 4, ROM: log 5). -/
def Obligations.ConstructionState : Prop :=
  ∀ (cfg : Config) (power : PowerOn) (ram rom : List Byte),
    ∃ s : State, s.a = power.a ∧ s.x = power.x ∧ s.y = power.y ∧ s.sp = power.sp ∧ s.flags = power.flags ∧
      s.cycles = 0 ∧ s.running = true ∧ s.quit = false ∧ s.haltInfo = none ∧ s.fault = none ∧ s.trace = [] ∧
      s.cfg = cfg ∧
      (cfg.wf = true →
        (∀ k < cfg.ramSize, s.byteAt (BitVec.ofNat 16 (cfg.ramBase + k)) = (ram[k]?).getD 0) ∧
        (∀ k < cfg.romSize, s.byteAt (BitVec.ofNat 16 (cfg.romBase + k)) = (rom[k]?).getD 0)) ∧
      (∀ pc, construct cfg power ram rom (some pc) = .next { s with pc := pc }) ∧
      (∀ w t, readWord 0xFFFC s = .ok (w, t) → construct cfg power ram rom none = .next { t with pc := w }) ∧
      (∀ e, readWord 0xFFFC s = .error e → construct cfg power ram rom none = .fault e)

/-- The reset state meets the invariant, and its counters and records are the start values (10_state.md section 8;
decision D21; its registers and PC are the model's, log 3, log 5). -/
def Obligations.InvariantAtReset : Prop :=
  State.reset.Inv ∧ State.reset.cycles = 0 ∧ State.reset.running = true ∧ State.reset.quit = false ∧
    State.reset.haltInfo = none ∧ State.reset.trace = []

/-- Every step keeps the invariant, from every state that meets it: memory stays canonical, the loop is stopped exactly
while a halt is recorded, no fault is recorded in a state the machine goes on from, and the batch count stays within the
batch (10_state.md section 4; 60_exceptions.md sections 1 and 7; the canonical form and the count are the model's, log 13,
log 14). -/
def Obligations.InvariantKept : Prop :=
  ∀ s t : State, s.Inv → step s = .next t → t.Inv

/-- ROM never changes: after any step, host commands included, every ROM address reads as before (20_memory.md section 2;
10_state.md section 6). -/
def Obligations.RomNeverChanges : Prop :=
  ∀ (s t : State) (a : Word), step s = .next t → region s.cfg a = .rom →
    region t.cfg a = .rom ∧ t.byteAt a = s.byteAt a

/-- The bus trace only grows at its end and the parameters never change: after every step the frames sent before are still
there, in order. RAM and ROM reads, and writes that are not forwarded, leave no trace (20_memory.md sections 6 and 8, the
trace's rule marked derived). That the trace and the parameters are fields of the state is the model's choice (log 15,
log 1). -/
def Obligations.TraceOnlyGrows : Prop :=
  (∀ s t : State, step s = .next t → s.trace <+: t.trace ∧ t.cfg = s.cfg) ∧
  (∀ (s t : State) (a : Word) (v : Byte), s.plain a = true → memRead a s = .ok (v, t) → t.trace = s.trace) ∧
  (∀ (s t : State) (a : Word) (v : Byte), forwarded s.cfg a = false → memWrite a v s = .ok ((), t) →
    t.trace = s.trace)

/-- Every fatal fault is recorded, and the frames sent before the failing access are in its trace. Of a step: the fault's
kind and values are those its final state holds, and the frames sent before the step are there. Of an instruction: so are
the frames of its fetch and mode stages and, where it has an operand, of its resolver. Of an access: its final trace is
exactly the trace before that access; which accesses come before it within an operation stage, the result statements say
one by one (60_exceptions.md section 1; decision D24; that the fault carries a state is the model's choice, log 10, and so
is that the failed frame is not in the trace, log 15). -/
def Obligations.EveryFaultIsRecorded : Prop :=
  (∀ (s : State) (f : Fault), step s = .fault f →
    ∃ r t, f = FaultRecord.toFault r t ∧ t.fault = some r ∧ s.trace <+: t.trace) ∧
  (∀ (s u : State) (i : Instr) (f : Fault), s.fault = none → s.quit = false → s.running = true →
    s.pending = [] ∨ s.batchLeft ≠ 0 → fetch s.countInstruction = .ok (some i, u) → step s = .fault f →
    ∃ r t, f = FaultRecord.toFault r t ∧ t.fault = some r ∧ u.trace <+: t.trace ∧
      ∀ o ea v, i.operand = some o → resolve o u = .ok (ea, v) → v.trace <+: t.trace) ∧
  (∀ (s : State) (a : Word) (f : Fault), memRead a s = .error f →
    ∃ r t, f = FaultRecord.toFault r t ∧ t.fault = some r ∧ t.trace = s.trace) ∧
  (∀ (s : State) (a : Word) (v : Byte) (f : Fault), memWrite a v s = .error f →
    ∃ r t, f = FaultRecord.toFault r t ∧ t.fault = some r ∧ t.trace = s.trace)

/-- Every instruction of the table completes: where every address is RAM or ROM and none is forwarded, each of the 151
forms gives a next state, ADC and SBC provided that D = 0; and no step of any state is refused (60_exceptions.md
sections 1 and 5; decision D18). -/
def Obligations.EveryInstructionCompletes : Prop :=
  (∀ (i : Instr) (s : State), (∀ a, s.plain a = true ∧ forwarded s.cfg a = false) →
    s.flags.d = false ∨ (i.mnemonic ≠ .adc ∧ i.mnemonic ≠ .sbc) → ∃ t, exec i s = .next t) ∧
  (∀ (s : State) (r : Refusal), step s ≠ .refused r)
end

