-- ==== Sys2Proof/Laws/Act.lean ====
section
/-! SUPPORT. How actions run: one lemma per way to build one, so that no proof unfolds the action type. -/

namespace Sys2Proof.Machine

variable {α β : Type} {s t : State}

theorem act_pure (v : α) : (pure v : Act α) s = .ok (v, s) := rfl

theorem act_get (f : State → α) : Act.get f s = .ok (f s, s) := rfl

theorem act_update (f : State → State) : Act.update f s = .ok ((), f s) := rfl

theorem act_bind (m : Act α) (k : α → Act β) :
    (m >>= k) s = match m s with
      | .ok (v, t) => k v t
      | .error r => .error r := by
  simp only [bind, StateT.bind]
  cases m s <;> rfl

theorem act_bind_ok {m : Act α} {v : α} (h : m s = .ok (v, t)) (k : α → Act β) : (m >>= k) s = k v t := by
  rw [act_bind, h]

theorem act_bind_error {m : Act α} {r : Fault} (h : m s = .error r) (k : α → Act β) :
    (m >>= k) s = .error r := by
  rw [act_bind, h]

/-- An action in two parts that completes: both parts complete. -/
theorem act_bind_eq_ok {m : Act α} {k : α → Act β} {w : β} :
    (m >>= k) s = .ok (w, t) ↔ ∃ v u, m s = .ok (v, u) ∧ k v u = .ok (w, t) := by
  rw [act_bind]
  rcases m s with r | ⟨v, u⟩ <;> simp

/-- An action in two parts that faults: the first part does, or the second after it. -/
theorem act_bind_eq_error {m : Act α} {k : α → Act β} {r : Fault} :
    (m >>= k) s = .error r ↔ m s = .error r ∨ ∃ v u, m s = .ok (v, u) ∧ k v u = .error r := by
  rw [act_bind]
  rcases m s with e | ⟨v, u⟩ <;> simp

theorem act_outcome_next {act : Act Unit} : act.outcome s = .next t ↔ act s = .ok ((), t) := by
  unfold Act.outcome
  rcases act s with r | ⟨⟨⟩, u⟩ <;> simp

theorem act_outcome_fault {act : Act Unit} {r : Fault} : act.outcome s = .fault r ↔ act s = .error r := by
  unfold Act.outcome
  rcases act s with e | ⟨⟨⟩, u⟩ <;> simp

theorem act_outcome_not_refused {act : Act Unit} {r : Refusal} : act.outcome s ≠ .refused r := by
  unfold Act.outcome
  rcases act s with e | ⟨⟨⟩, u⟩ <;> simp

theorem raise_ne_ok {r : FaultRecord} {v : α} : (raise r : Act α) s ≠ .ok (v, t) := by
  simp [raise]

end Sys2Proof.Machine
end

