-- ==== Sys2Proof/Laws/Memory.lean ====
section
/-! SUPPORT. Memory as a list of cells: reading after writing, and the canonical form every operation keeps. -/

namespace Sys2Proof.Machine

theorem memory_read_below {m : List Host.Cell} {lo a : Nat} (h : Memory.wfFrom lo m = true) (ha : a < lo) :
    Memory.read m a = Memory.unlisted := by
  induction m generalizing lo with
  | nil => rfl
  | cons cell rest ih =>
    obtain ⟨k, b⟩ := cell
    simp only [Memory.wfFrom, Bool.and_eq_true, decide_eq_true_eq] at h
    have hk : k ≠ a := by omega
    simp only [Memory.read, hk, if_false]
    exact ih h.2 (by omega)

/-- Another address reads as before, in any memory. -/
theorem memory_read_write_other (m : List Host.Cell) {a c : Nat} (b : Byte) (h : c ≠ a) :
    Memory.read (Memory.write m a b) c = Memory.read m c := by
  induction m with
  | nil => by_cases hb : b = Memory.unlisted <;> simp [Memory.write, Memory.read, hb, Ne.symm h]
  | cons cell rest ih =>
    obtain ⟨k, v⟩ := cell
    simp only [Memory.write]
    split_ifs with h1 h2 h3 h4
    · rfl
    · simp [Memory.read, Ne.symm h]
    · subst h3; simp [Memory.read, Ne.symm h]
    · subst h3; simp [Memory.read, Ne.symm h]
    · simp only [Memory.read, ih]

/-- The written address reads back, in a canonical memory. -/
theorem memory_read_write_same {m : List Host.Cell} {lo : Nat} (h : Memory.wfFrom lo m = true) (a : Nat) (b : Byte) :
    Memory.read (Memory.write m a b) a = b := by
  induction m generalizing lo with
  | nil => by_cases hb : b = Memory.unlisted <;> simp [Memory.write, Memory.read, hb]
  | cons cell rest ih =>
    obtain ⟨k, v⟩ := cell
    simp only [Memory.wfFrom, Bool.and_eq_true, decide_eq_true_eq] at h
    simp only [Memory.write]
    split_ifs with h1 h2 h3 h4
    · have hk : k ≠ a := by omega
      simp only [Memory.read, hk, if_false]
      rw [memory_read_below h.2 (by omega), h2]
    · simp [Memory.read]
    · rw [memory_read_below h.2 (by omega), h4]
    · simp [Memory.read]
    · have hk : k ≠ a := fun e => h3 e.symm
      simp only [Memory.read, hk, if_false]
      exact ih h.2

theorem memory_wfFrom_weaken {m : List Host.Cell} {lo lo' : Nat} (h : Memory.wfFrom lo m = true) (hle : lo' ≤ lo) :
    Memory.wfFrom lo' m = true := by
  cases m with
  | nil => rfl
  | cons cell rest =>
    obtain ⟨k, b⟩ := cell
    simp only [Memory.wfFrom, Bool.and_eq_true, decide_eq_true_eq] at h ⊢
    exact ⟨⟨⟨by omega, h.1.1.2⟩, h.1.2⟩, h.2⟩

theorem memory_wfFrom_write {m : List Host.Cell} {lo a : Nat} (h : Memory.wfFrom lo m = true) (b : Byte)
    (hlo : lo ≤ a) (ha : a < 0x10000) : Memory.wfFrom lo (Memory.write m a b) = true := by
  induction m generalizing lo with
  | nil => by_cases hb : b = Memory.unlisted <;> simp [Memory.write, Memory.wfFrom, hb, hlo, ha]
  | cons cell rest ih =>
    obtain ⟨k, v⟩ := cell
    have hall := h
    simp only [Memory.wfFrom, Bool.and_eq_true, decide_eq_true_eq] at h
    simp only [Memory.write]
    split_ifs with h1 h2 h3 h4
    · exact hall
    · simp only [Memory.wfFrom, Bool.and_eq_true, decide_eq_true_eq, bne_iff_ne, ne_eq]
      exact ⟨⟨⟨hlo, ha⟩, h2⟩, ⟨⟨⟨by omega, h.1.1.2⟩, by simpa using h.1.2⟩, h.2⟩⟩
    · exact memory_wfFrom_weaken h.2 (by omega)
    · subst h3
      simp only [Memory.wfFrom, Bool.and_eq_true, decide_eq_true_eq, bne_iff_ne, ne_eq]
      exact ⟨⟨⟨h.1.1.1, h.1.1.2⟩, h4⟩, h.2⟩
    · simp only [Memory.wfFrom, Bool.and_eq_true, decide_eq_true_eq]
      exact ⟨h.1, ih h.2 (by omega)⟩

/-- A store keeps the canonical form. -/
theorem memory_wf_write {m : List Host.Cell} (h : Memory.wf m = true) (a : Word) (b : Byte) :
    Memory.wf (Memory.write m a.toNat b) = true :=
  memory_wfFrom_write h b (Nat.zero_le _) a.isLt

theorem memory_wf_load {m : List Host.Cell} (h : Memory.wf m = true) (base : Nat) (image : List Byte)
    (hfit : base + image.length ≤ 0x10000) : Memory.wf (Memory.load m base image) = true := by
  induction image generalizing m base with
  | nil => exact h
  | cons b rest ih =>
    simp only [List.length_cons] at hfit
    exact ih (memory_wfFrom_write h b (Nat.zero_le _) (by omega)) (base + 1) (by omega)

/-- Loading an image leaves every address outside it as it was. -/
theorem memory_read_load_outside {m : List Host.Cell} {base a : Nat} {image : List Byte}
    (h : a < base ∨ base + image.length ≤ a) : Memory.read (Memory.load m base image) a = Memory.read m a := by
  induction image generalizing m base with
  | nil => rfl
  | cons b rest ih =>
    simp only [List.length_cons] at h
    rw [Memory.load, ih (by omega), memory_read_write_other _ _ (by omega)]

/-- A loaded image reads back, byte by byte; past its end memory is as it was. -/
theorem memory_read_load {m : List Host.Cell} (h : Memory.wf m = true) {base : Nat} {image : List Byte}
    (hfit : base + image.length ≤ 0x10000) (k : Nat) :
    Memory.read (Memory.load m base image) (base + k) = (image[k]?).getD (Memory.read m (base + k)) := by
  induction image generalizing m base k with
  | nil => rfl
  | cons b rest ih =>
    simp only [List.length_cons] at hfit
    have hw : Memory.wf (Memory.write m base b) = true := memory_wfFrom_write h b (Nat.zero_le _) (by omega)
    cases k with
    | zero =>
      rw [Memory.load, memory_read_load_outside (by omega)]
      exact memory_read_write_same h base b
    | succ k =>
      have e : base + (k + 1) = base + 1 + k := by omega
      rw [Memory.load, e, ih hw (by omega), memory_read_write_other _ _ (by omega)]
      rfl

theorem storeRam_wf {s : State} (h : Memory.wf s.mem = true) (a : Word) (v : Byte) :
    Memory.wf (s.storeRam a v).mem = true := by
  unfold State.storeRam
  split
  · exact memory_wf_write h a v
  · exact h

/-- A store to RAM leaves every other byte alone. -/
theorem storeRam_byteAt_other (s : State) {a c : Word} (v : Byte) (h : c ≠ a) :
    (s.storeRam a v).byteAt c = s.byteAt c := by
  unfold State.storeRam
  split
  · exact memory_read_write_other _ _ (fun e => h (BitVec.eq_of_toNat_eq e))
  · rfl

/-- Only a RAM address takes a stored byte (R55, R57). -/
theorem storeRam_of_not_ram {s : State} {a : Word} (h : region s.cfg a ≠ .ram) (v : Byte) : s.storeRam a v = s := by
  simp [State.storeRam, h]

end Sys2Proof.Machine
end

