-- ==== Sys2Proof/Laws/State.lean ====
section
/-! SUPPORT. The named updates of the state, field by field, so that no later proof unfolds a record update. -/

namespace Sys2Proof.Machine

variable (s : State) (a : Word) (v : Byte) (n : Int)

@[simp] theorem plusCycles_a : (s.plusCycles n).a = s.a := rfl
@[simp] theorem plusCycles_x : (s.plusCycles n).x = s.x := rfl
@[simp] theorem plusCycles_y : (s.plusCycles n).y = s.y := rfl
@[simp] theorem plusCycles_sp : (s.plusCycles n).sp = s.sp := rfl
@[simp] theorem plusCycles_pc : (s.plusCycles n).pc = s.pc := rfl
@[simp] theorem plusCycles_flags : (s.plusCycles n).flags = s.flags := rfl
@[simp] theorem plusCycles_mem : (s.plusCycles n).mem = s.mem := rfl
@[simp] theorem plusCycles_running : (s.plusCycles n).running = s.running := rfl
@[simp] theorem plusCycles_quit : (s.plusCycles n).quit = s.quit := rfl
@[simp] theorem plusCycles_haltInfo : (s.plusCycles n).haltInfo = s.haltInfo := rfl
@[simp] theorem plusCycles_fault : (s.plusCycles n).fault = s.fault := rfl
@[simp] theorem plusCycles_trace : (s.plusCycles n).trace = s.trace := rfl
@[simp] theorem plusCycles_peer : (s.plusCycles n).peer = s.peer := rfl
@[simp] theorem plusCycles_pending : (s.plusCycles n).pending = s.pending := rfl
@[simp] theorem plusCycles_responses : (s.plusCycles n).responses = s.responses := rfl
@[simp] theorem plusCycles_batchLeft : (s.plusCycles n).batchLeft = s.batchLeft := rfl
@[simp] theorem plusCycles_cfg : (s.plusCycles n).cfg = s.cfg := rfl
@[simp] theorem plusCycles_cycles : (s.plusCycles n).cycles = ((s.cycles : Int) + n).toNat := rfl

/-- Adding nothing changes nothing. -/
@[simp] theorem plusCycles_zero : s.plusCycles 0 = s := by
  simp [State.plusCycles]

/-- Two non-negative totals add up. -/
theorem plusCycles_add {m : Int} (h : 0 ≤ (s.cycles : Int) + n) :
    (s.plusCycles n).plusCycles m = s.plusCycles (n + m) := by
  have : (((s.cycles : Int) + n).toNat : Int) = s.cycles + n := Int.toNat_of_nonneg h
  simp only [State.plusCycles, this, add_assoc]

@[simp] theorem countInstruction_a : s.countInstruction.a = s.a := rfl
@[simp] theorem countInstruction_x : s.countInstruction.x = s.x := rfl
@[simp] theorem countInstruction_y : s.countInstruction.y = s.y := rfl
@[simp] theorem countInstruction_sp : s.countInstruction.sp = s.sp := rfl
@[simp] theorem countInstruction_pc : s.countInstruction.pc = s.pc := rfl
@[simp] theorem countInstruction_flags : s.countInstruction.flags = s.flags := rfl
@[simp] theorem countInstruction_mem : s.countInstruction.mem = s.mem := rfl
@[simp] theorem countInstruction_cycles : s.countInstruction.cycles = s.cycles := rfl
@[simp] theorem countInstruction_running : s.countInstruction.running = s.running := rfl
@[simp] theorem countInstruction_quit : s.countInstruction.quit = s.quit := rfl
@[simp] theorem countInstruction_haltInfo : s.countInstruction.haltInfo = s.haltInfo := rfl
@[simp] theorem countInstruction_fault : s.countInstruction.fault = s.fault := rfl
@[simp] theorem countInstruction_trace : s.countInstruction.trace = s.trace := rfl
@[simp] theorem countInstruction_peer : s.countInstruction.peer = s.peer := rfl
@[simp] theorem countInstruction_pending : s.countInstruction.pending = s.pending := rfl
@[simp] theorem countInstruction_responses : s.countInstruction.responses = s.responses := rfl
@[simp] theorem countInstruction_cfg : s.countInstruction.cfg = s.cfg := rfl

@[simp] theorem storeRam_a : (s.storeRam a v).a = s.a := by unfold State.storeRam; split <;> rfl
@[simp] theorem storeRam_x : (s.storeRam a v).x = s.x := by unfold State.storeRam; split <;> rfl
@[simp] theorem storeRam_y : (s.storeRam a v).y = s.y := by unfold State.storeRam; split <;> rfl
@[simp] theorem storeRam_sp : (s.storeRam a v).sp = s.sp := by unfold State.storeRam; split <;> rfl
@[simp] theorem storeRam_pc : (s.storeRam a v).pc = s.pc := by unfold State.storeRam; split <;> rfl
@[simp] theorem storeRam_flags : (s.storeRam a v).flags = s.flags := by unfold State.storeRam; split <;> rfl
@[simp] theorem storeRam_cycles : (s.storeRam a v).cycles = s.cycles := by unfold State.storeRam; split <;> rfl
@[simp] theorem storeRam_running : (s.storeRam a v).running = s.running := by unfold State.storeRam; split <;> rfl
@[simp] theorem storeRam_quit : (s.storeRam a v).quit = s.quit := by unfold State.storeRam; split <;> rfl
@[simp] theorem storeRam_haltInfo : (s.storeRam a v).haltInfo = s.haltInfo := by unfold State.storeRam; split <;> rfl
@[simp] theorem storeRam_fault : (s.storeRam a v).fault = s.fault := by unfold State.storeRam; split <;> rfl
@[simp] theorem storeRam_trace : (s.storeRam a v).trace = s.trace := by unfold State.storeRam; split <;> rfl
@[simp] theorem storeRam_peer : (s.storeRam a v).peer = s.peer := by unfold State.storeRam; split <;> rfl
@[simp] theorem storeRam_pending : (s.storeRam a v).pending = s.pending := by unfold State.storeRam; split <;> rfl
@[simp] theorem storeRam_responses : (s.storeRam a v).responses = s.responses := by unfold State.storeRam; split <;> rfl
@[simp] theorem storeRam_batchLeft : (s.storeRam a v).batchLeft = s.batchLeft := by unfold State.storeRam; split <;> rfl
@[simp] theorem storeRam_cfg : (s.storeRam a v).cfg = s.cfg := by unfold State.storeRam; split <;> rfl

/-- The byte of an address depends on the memory alone. -/
theorem byteAt_congr {s t : State} (h : t.mem = s.mem) (c : Word) : t.byteAt c = s.byteAt c := by
  simp [State.byteAt, h]

/-- Whether an address is plain memory depends on the parameters alone. -/
theorem plain_congr {s t : State} (h : t.cfg = s.cfg) (c : Word) : t.plain c = s.plain c := by
  simp [State.plain, h]

theorem plain_iff {c : Word} : s.plain c = true ↔ region s.cfg c = .ram ∨ region s.cfg c = .rom := by
  simp [State.plain]

end Sys2Proof.Machine
end

