-- ==== Sys2Proof/Laws/Access.lean ====
section
/-! SUPPORT. What each shared operation can do when it completes, said once: the accesses, the word reads, the resolver,
the operand accesses and the stack. -/

namespace Sys2Proof.Machine

variable {s t u : State} {a w ea : Word} {v m op : Byte} {o : Operand}

/-! ### What a read changes -/

theorem onlyBus_refl (s : State) : OnlyBus s s := rfl

theorem onlyBus_trans (h : OnlyBus s t) (g : OnlyBus t u) : OnlyBus s u := by
  unfold OnlyBus at *
  rw [g, h]

theorem onlyBus_plusCycles (s : State) (n : Int) : OnlyBus s (s.plusCycles n) := rfl

/-- A completed exchange appends its frame to the trace and takes one answer. -/
theorem exchange_ok {f : Frame} (h : exchange f s = .ok (v, t)) :
    t = { s with
      peer := (nextExchange s).2
      trace := s.trace ++ [{ frame := f, reply := if f.direction = .read then some v else none }] } := by
  unfold exchange at h
  split at h
  · exact absurd h raise_ne_ok
  · rename_i b rest hx
    simp only [Except.ok.injEq, Prod.mk.injEq] at h
    obtain ⟨rfl, rfl⟩ := h
    simp [hx]

theorem exchange_error {f : Frame} {r : Fault} (h : exchange f s = .error r) :
    r = .transportFailure f { s with fault := some (.transportFailure f) } := by
  unfold exchange at h
  split at h
  · simpa [raise, FaultRecord.toFault] using h.symm
  · cases h

/-- RAM and ROM reads have no side effect. -/
theorem memRead_plain (h : s.plain a = true) : memRead a s = .ok (s.byteAt a, s) := by
  rcases (plain_iff s).mp h with h | h <;> simp [memRead, h]

/-- A completed read: the plain byte, or one bus exchange. -/
theorem memRead_ok (h : memRead a s = .ok (v, t)) :
    (s.plain a = true ∧ v = s.byteAt a ∧ t = s) ∨
    (region s.cfg a = .bus ∧ exchange (readFrame s.cycles a) s = .ok (v, t)) := by
  unfold memRead at h
  cases hr : region s.cfg a with
  | ram =>
    simp only [hr, Except.ok.injEq, Prod.mk.injEq] at h
    exact .inl ⟨by simp [State.plain, hr], h.1.symm, h.2.symm⟩
  | rom =>
    simp only [hr, Except.ok.injEq, Prod.mk.injEq] at h
    exact .inl ⟨by simp [State.plain, hr], h.1.symm, h.2.symm⟩
  | bus =>
    simp only [hr] at h
    exact .inr ⟨rfl, h⟩
  | unmapped =>
    simp only [hr] at h
    exact absurd h raise_ne_ok

/-- A read changes nothing but the trace and the peer's answers. -/
theorem memRead_onlyBus (h : memRead a s = .ok (v, t)) : OnlyBus s t := by
  rcases memRead_ok h with ⟨-, -, rfl⟩ | ⟨-, hx⟩
  · rfl
  · rw [exchange_ok hx]
    rfl

theorem memRead_cycles (h : memRead a s = .ok (v, t)) : t.cycles = s.cycles := by
  rcases memRead_ok h with ⟨-, -, rfl⟩ | ⟨-, hx⟩
  · rfl
  · rw [exchange_ok hx]

/-- A completed write: the RAM side, and the trace and the peer's answers where it is forwarded. -/
theorem memWrite_ok (h : memWrite a v s = .ok ((), t)) :
    t = { s.storeRam a v with trace := t.trace, peer := t.peer } := by
  unfold memWrite at h
  split_ifs at h with h1 h2
  · exact absurd h raise_ne_ok
  · cases hx : exchange (writeFrame s.cycles a v) (s.storeRam a v) with
    | error r => rw [hx] at h; cases h
    | ok p =>
      rw [hx] at h
      simp only [Except.ok.injEq, Prod.mk.injEq, true_and] at h
      subst h
      rw [exchange_ok hx]
  · simp only [Except.ok.injEq, Prod.mk.injEq, true_and] at h
    rw [← h]

/-- A RAM store that is not forwarded. -/
theorem memWrite_ram (h : region s.cfg a = .ram) (hf : forwarded s.cfg a = false) :
    memWrite a v s = .ok ((), { s with mem := Memory.write s.mem a.toNat v }) := by
  simp [memWrite, h, hf, State.storeRam]

theorem readWord_onlyBus (h : readWord a s = .ok (w, t)) : OnlyBus s t := by
  simp only [readWord, act_bind_eq_ok, act_pure, Except.ok.injEq, Prod.mk.injEq] at h
  obtain ⟨_, _, h1, _, _, h2, -, rfl⟩ := h
  exact onlyBus_trans (memRead_onlyBus h1) (memRead_onlyBus h2)

theorem readWordBug_onlyBus (h : readWordBug a s = .ok (w, t)) : OnlyBus s t := by
  simp only [readWordBug, act_bind_eq_ok, act_pure, Except.ok.injEq, Prod.mk.injEq] at h
  obtain ⟨_, _, h1, _, _, h2, -, rfl⟩ := h
  exact onlyBus_trans (memRead_onlyBus h1) (memRead_onlyBus h2)

theorem readWordBug_cycles (h : readWordBug a s = .ok (w, t)) : t.cycles = s.cycles := by
  simp only [readWordBug, act_bind_eq_ok, act_pure, Except.ok.injEq, Prod.mk.injEq] at h
  obtain ⟨_, _, h1, _, _, h2, -, rfl⟩ := h
  rw [memRead_cycles h2, memRead_cycles h1]

theorem readWord_cycles (h : readWord a s = .ok (w, t)) : t.cycles = s.cycles := by
  simp only [readWord, act_bind_eq_ok, act_pure, Except.ok.injEq, Prod.mk.injEq] at h
  obtain ⟨_, _, h1, _, _, h2, -, rfl⟩ := h
  rw [memRead_cycles h2, memRead_cycles h1]

/-! ### The resolver and the operand accesses -/

/-- A completed resolver: the same state, or a pointer read at the same cycle count. -/
theorem resolve_ok (h : resolve o s = .ok (ea, t)) : OnlyBus s t ∧ t.cycles = s.cycles := by
  cases o <;> simp only [resolve, act_bind_eq_ok, act_get, act_pure, Except.ok.injEq, Prod.mk.injEq] at h <;>
    obtain ⟨_, _, ⟨rfl, rfl⟩, _, _, ⟨rfl, rfl⟩, _, _, ⟨rfl, rfl⟩, h⟩ := h
  case ind => exact ⟨readWordBug_onlyBus h, readWordBug_cycles h⟩
  case indx => exact ⟨readWordBug_onlyBus h, readWordBug_cycles h⟩
  case indy =>
    obtain ⟨_, _, h1, -, rfl⟩ := h
    exact ⟨readWordBug_onlyBus h1, readWordBug_cycles h1⟩
  all_goals
    obtain ⟨-, rfl⟩ := h
    exact ⟨rfl, rfl⟩

/-- The value an operand read gives: an immediate's own byte, else the byte read. -/
theorem readOperand_of_memRead (h : memRead ea s = .ok (m, t)) :
    readOperand o ea s = .ok ((match o with | .imm v => v | _ => m), t) := by
  rw [readOperand, act_bind_ok h]
  cases o <;> rfl

theorem readOperand_ok (h : readOperand o ea s = .ok (m, t)) : OnlyBus s t ∧ t.cycles = s.cycles := by
  simp only [readOperand, act_bind_eq_ok] at h
  obtain ⟨_, _, h1, h2⟩ := h
  cases o <;> simp only [act_pure, Except.ok.injEq, Prod.mk.injEq] at h2 <;> obtain ⟨-, rfl⟩ := h2 <;>
    exact ⟨memRead_onlyBus h1, memRead_cycles h1⟩

/-- A completed operand load: only cycles, the trace and the peer's answers change. -/
theorem loadOperand_ok (h : loadOperand op o s = .ok (m, t)) :
    OnlyBus s t ∧ t.cycles = ((s.cycles : Int) + s.cfg.extra op).toNat := by
  simp only [loadOperand, act_bind_eq_ok, addExtra, act_update, Except.ok.injEq, Prod.mk.injEq, true_and] at h
  obtain ⟨_, s1, h1, _, _, rfl, h2⟩ := h
  obtain ⟨b1, c1⟩ := resolve_ok h1
  obtain ⟨b2, c2⟩ := readOperand_ok h2
  refine ⟨onlyBus_trans b1 (onlyBus_trans (onlyBus_plusCycles _ _) b2), ?_⟩
  have hc : s1.cfg = s.cfg := by rw [b1]
  rw [c2, plusCycles_cycles, c1, hc]

/-! ### The stack -/

/-- A completed push: the stack byte's store, then SP one lower. -/
theorem push_eq_ok : push v s = .ok ((), t) ↔
    ∃ u, memWrite (stackAddress s.sp) v s = .ok ((), u) ∧ t = { u with sp := s.sp - 1 } := by
  simp only [push, act_bind_eq_ok, act_get, setSp, act_update, Except.ok.injEq, Prod.mk.injEq]
  constructor
  · rintro ⟨_, _, ⟨rfl, rfl⟩, _, u, h, -, rfl⟩
    exact ⟨u, h, rfl⟩
  · rintro ⟨u, h, rfl⟩
    exact ⟨_, _, ⟨rfl, rfl⟩, (), u, h, trivial, rfl⟩

/-- A pull: SP one higher, then the stack byte's read. -/
theorem pull_eq : pull s = memRead (stackAddress (s.sp + 1)) { s with sp := s.sp + 1 } := rfl

/-- A completed push: SP, the store, the trace, the peer's answers. -/
theorem push_ok (h : push v s = .ok ((), t)) :
    t = { s.storeRam (stackAddress s.sp) v with sp := s.sp - 1, trace := t.trace, peer := t.peer } := by
  obtain ⟨u, hu, rfl⟩ := push_eq_ok.mp h
  rw [memWrite_ok hu]

/-- A completed pull: SP, the trace, the peer's answers. -/
theorem pull_ok (h : pull s = .ok (v, t)) :
    t = { s with sp := s.sp + 1, trace := t.trace, peer := t.peer } := by
  rw [pull_eq] at h
  have hb := memRead_onlyBus h
  have hc := memRead_cycles h
  unfold OnlyBus at hb
  rw [hb, hc]

theorem pushWord_eq_ok : pushWord w s = .ok ((), t) ↔
    ∃ u, push (hiByte w) s = .ok ((), u) ∧ push (loByte w) u = .ok ((), t) := by
  simp only [pushWord, act_bind_eq_ok]
  exact ⟨fun ⟨_, u, h⟩ => ⟨u, h⟩, fun ⟨u, h⟩ => ⟨(), u, h⟩⟩

theorem pullWord_eq_ok : pullWord s = .ok (w, t) ↔
    ∃ lo u hi, pull s = .ok (lo, u) ∧ pull u = .ok (hi, t) ∧ w = word lo hi := by
  simp only [pullWord, act_bind_eq_ok, act_pure, Except.ok.injEq, Prod.mk.injEq]
  constructor
  · rintro ⟨lo, u, h1, hi, _, h2, rfl, rfl⟩
    exact ⟨lo, u, hi, h1, h2, rfl⟩
  · rintro ⟨lo, u, hi, h1, h2, rfl⟩
    exact ⟨lo, u, h1, hi, t, h2, rfl, rfl⟩

end Sys2Proof.Machine
end

