-- ==== Sys2Proof/Laws/Decode.lean ====
section
/-! SUPPORT. The decoder's small lemmas: words and their bytes, and what a successful lookup is. -/

namespace Sys2Proof

theorem toNat_word (lo hi : Byte) : (word lo hi).toNat = hi.toNat * 256 + lo.toNat := by
  have := lo.isLt
  simp only [word, BitVec.toNat_append]
  rw [← Nat.shiftLeft_add_eq_or_of_lt (by omega), Nat.shiftLeft_eq]

theorem toNat_loByte (w : Word) : (loByte w).toNat = w.toNat % 256 := by
  simp [loByte]

theorem toNat_hiByte (w : Word) : (hiByte w).toNat = w.toNat / 256 := by
  have := w.isLt
  simp only [hiByte, BitVec.toNat_setWidth, BitVec.toNat_ushiftRight, Nat.shiftRight_eq_div_pow]
  omega

/-- A word is made of its bytes. -/
@[simp] theorem word_loByte_hiByte (w : Word) : word (loByte w) (hiByte w) = w := by
  apply BitVec.eq_of_toNat_eq
  rw [toNat_word, toNat_loByte, toNat_hiByte]
  omega

@[simp] theorem loByte_word (lo hi : Byte) : loByte (word lo hi) = lo := by
  apply BitVec.eq_of_toNat_eq
  have := lo.isLt
  rw [toNat_loByte, toNat_word]
  omega

@[simp] theorem hiByte_word (lo hi : Byte) : hiByte (word lo hi) = hi := by
  apply BitVec.eq_of_toNat_eq
  have := lo.isLt
  rw [toNat_hiByte, toNat_word]
  omega

/-- A lookup that succeeds gives a row of the table with that opcode. -/
theorem lookup_some {op : Byte} {r : Row} (h : lookup op = some r) : r ∈ decodeTable ∧ r.opcode = op :=
  ⟨List.mem_of_find?_eq_some h, by simpa using List.find?_some h⟩

/-- A decoding that succeeds is its row's. -/
theorem decode_ok {bytes rest : List Byte} {i : Instr} (h : decode bytes = .ok (i, rest)) :
    ∃ op tail r, bytes = op :: tail ∧ lookup op = some r ∧ r.assemble tail = .ok (i, rest) := by
  cases bytes with
  | nil => cases h
  | cons op tail =>
    simp only [decode] at h
    cases hl : lookup op with
    | none => rw [hl] at h; cases h
    | some r =>
      rw [hl] at h
      exact ⟨op, tail, r, rfl, hl, h⟩

/-- What a row builds is an instruction of its opcode, mnemonic and mode. -/
theorem row_build {r : Row} (h : r ∈ decodeTable) (lo hi : Byte) :
    (r.build lo hi).opcode = r.opcode ∧ (r.build lo hi).mnemonic = r.mnemonic ∧ (r.build lo hi).mode = r.mode := by
  revert h r
  unfold decodeTable decodeTable01 decodeTable23 decodeTable45 decodeTable67 decodeTable89 decodeTableAB decodeTableCD
    decodeTableEF
  simp only [List.cons_append, List.nil_append, List.forall_mem_cons, List.not_mem_nil,
    false_imp_iff, implies_true, and_true]
  simp [Instr.opcode, Instr.mnemonic, Instr.mode, Instr.operand, Operand.mode, Mnemonic.isShift]

/-- Every instruction has its row in the table. -/
theorem row_of_instr (i : Instr) :
    ∃ r ∈ decodeTable, lookup i.opcode = some r ∧ r.mnemonic = i.mnemonic ∧ r.mode = i.mode := by
  have key : (lookup i.opcode).map (fun r => (r.mnemonic, r.mode)) = some (i.mnemonic, i.mode) := by
    cases i <;> rfl
  cases hl : lookup i.opcode with
  | none => rw [hl] at key; cases key
  | some r =>
    rw [hl] at key
    simp only [Option.map_some, Option.some.injEq, Prod.mk.injEq] at key
    exact ⟨r, (lookup_some hl).1, rfl, key.1, key.2⟩

/-- What holds of every row of the table holds of every instruction. -/
theorem instr_of_rows {P : Byte → Mnemonic → Mode → Prop} (h : ∀ r ∈ decodeTable, P r.opcode r.mnemonic r.mode)
    (i : Instr) : P i.opcode i.mnemonic i.mode := by
  obtain ⟨r, hr, hl, hm, hmode⟩ := row_of_instr i
  rw [← (lookup_some hl).2, ← hm, ← hmode]
  exact h r hr

/-- Assembling gives what the row builds, of its operand bytes, and leaves the bytes after them. -/
theorem assemble_ok {r : Row} {bytes rest : List Byte} {i : Instr} (h : r.assemble bytes = .ok (i, rest)) :
    ∃ lo hi, i = r.build lo hi ∧ bytes.length = r.mode.operandBytes + rest.length := by
  unfold Row.assemble at h
  split at h
  · rename_i e
    simp only [Except.ok.injEq, Prod.mk.injEq] at h
    exact ⟨_, _, h.1.symm, by rw [e, ← h.2, Nat.zero_add]⟩
  · rename_i e
    simp only [Except.ok.injEq, Prod.mk.injEq] at h
    exact ⟨_, _, h.1.symm, by rw [e, ← h.2, List.length_cons, Nat.add_comm]⟩
  · rename_i e
    simp only [Except.ok.injEq, Prod.mk.injEq] at h
    exact ⟨_, _, h.1.symm, by rw [e, ← h.2, List.length_cons, List.length_cons]; omega⟩
  · cases h

/-- The decoded instruction has the mnemonic and mode of its opcode's row. -/
theorem decode_row {op : Byte} {bytes rest : List Byte} {i : Instr} {r : Row} (hl : lookup op = some r)
    (h : decode (op :: bytes) = .ok (i, rest)) :
    i.opcode = op ∧ i.mnemonic = r.mnemonic ∧ i.mode = r.mode ∧ bytes.length = r.mode.operandBytes + rest.length := by
  simp only [decode, hl] at h
  obtain ⟨lo, hi, rfl, hb⟩ := assemble_ok h
  obtain ⟨hm, ho⟩ := lookup_some hl
  have := row_build hm lo hi
  exact ⟨this.1.trans ho, this.2.1, this.2.2, hb⟩

end Sys2Proof
end

