-- ==== Sys2Proof/Laws/Exec.lean ====
section
/-! SUPPORT. `exec` by mnemonic and operand: one action for all the forms of a mnemonic, so that a claim about a mnemonic
needs no case split over its constructors. -/

namespace Sys2Proof.Machine

/-- The operation stage of an instruction, by mnemonic and operand. The last arm is NOP's: no other instruction has its
mnemonic without the operand listed. -/
def instrAction (i : Instr) : Act Unit :=
  match i.mnemonic, i.operand with
  | .adc, some o => adc i.opcode o
  | .sbc, some o => sbc i.opcode o
  | .and, some o => logic (· &&& ·) i.opcode o
  | .ora, some o => logic (· ||| ·) i.opcode o
  | .eor, some o => logic (· ^^^ ·) i.opcode o
  | .cmp, some o => compare State.a i.opcode o
  | .cpx, some o => compare State.x i.opcode o
  | .cpy, some o => compare State.y i.opcode o
  | .bit, some o => bitTest i.opcode o
  | .lda, some o => lda i.opcode o
  | .ldx, some o => ldx i.opcode o
  | .ldy, some o => ldy i.opcode o
  | .sta, some o => store State.a i.opcode o
  | .stx, some o => store State.x i.opcode o
  | .sty, some o => store State.y i.opcode o
  | .asl, some o => modifyOperand i.opcode o aslResult
  | .lsr, some o => modifyOperand i.opcode o lsrResult
  | .rol, some o => modifyOperand i.opcode o rolResult
  | .ror, some o => modifyOperand i.opcode o rorResult
  | .inc, some o => modifyOperand i.opcode o incResult
  | .dec, some o => modifyOperand i.opcode o decResult
  | .asl, none => shiftA aslResult i.opcode
  | .lsr, none => shiftA lsrResult i.opcode
  | .rol, none => shiftA rolResult i.opcode
  | .ror, none => shiftA rorResult i.opcode
  | .inx, _ => modifyX incResult i.opcode
  | .dex, _ => modifyX decResult i.opcode
  | .iny, _ => modifyY incResult i.opcode
  | .dey, _ => modifyY decResult i.opcode
  | .tax, _ => transferToX State.a i.opcode
  | .tay, _ => transferToY State.a i.opcode
  | .txa, _ => transferToA State.x i.opcode
  | .tya, _ => transferToA State.y i.opcode
  | .tsx, _ => transferToX State.sp i.opcode
  | .txs, _ => txs i.opcode
  | .pha, _ => pushByte State.a i.opcode
  | .php, _ => pushByte (fun s => statusByte s.flags) i.opcode
  | .pla, _ => pla i.opcode
  | .plp, _ => plp i.opcode
  | .bcc, some (.rel off) => branch (fun f => !f.c) i.opcode off
  | .bcs, some (.rel off) => branch (fun f => f.c) i.opcode off
  | .beq, some (.rel off) => branch (fun f => f.z) i.opcode off
  | .bmi, some (.rel off) => branch (fun f => f.n) i.opcode off
  | .bne, some (.rel off) => branch (fun f => !f.z) i.opcode off
  | .bpl, some (.rel off) => branch (fun f => !f.n) i.opcode off
  | .bvc, some (.rel off) => branch (fun f => !f.v) i.opcode off
  | .bvs, some (.rel off) => branch (fun f => f.v) i.opcode off
  | .jmp, some o => jump i.opcode o
  | .jsr, some o => callSubroutine i.opcode o
  | .rts, _ => returnFromSubroutine i.opcode
  | .brk, _ => softwareBreak i.opcode
  | .rti, _ => returnFromBreak i.opcode
  | .clc, _ => flagOp (fun f => { f with c := false }) i.opcode
  | .cld, _ => flagOp (fun f => { f with d := false }) i.opcode
  | .cli, _ => flagOp (fun f => { f with i := false }) i.opcode
  | .clv, _ => flagOp (fun f => { f with v := false }) i.opcode
  | .sec, _ => flagOp (fun f => { f with c := true }) i.opcode
  | .sed, _ => flagOp (fun f => { f with d := true }) i.opcode
  | .sei, _ => flagOp (fun f => { f with i := true }) i.opcode
  | _, _ => noOperation i.opcode

/-- Every meaning is its action run. -/
theorem exec_eq_action (i : Instr) (s : State) : exec i s = (instrAction i).outcome s := by
  cases i <;> rfl

theorem exec_next {i : Instr} {s t : State} : exec i s = .next t ↔ instrAction i s = .ok ((), t) := by
  rw [exec_eq_action, act_outcome_next]

theorem exec_fault {i : Instr} {s : State} {r : Fault} : exec i s = .fault r ↔ instrAction i s = .error r := by
  rw [exec_eq_action, act_outcome_fault]

end Sys2Proof.Machine
end

