-- ==== Sys2Proof/Laws/Keeps.lean ====
section
/-! SUPPORT. Rules that hold across every action, built up once: a relation that each access and each register write
keeps is kept by every meaning, and every fault an action raises is recorded in the state it stops in. -/

namespace Sys2Proof.Machine

variable {α β : Type} {R : State → State → Prop}

/-- When the action completes, the states before and after are related. -/
def Act.Keeps (R : State → State → Prop) (m : Act α) : Prop :=
  ∀ s v t, m s = .ok (v, t) → R s t

/-- A relation that composes and that nothing a read changes breaks. -/
structure FrameRel (R : State → State → Prop) : Prop where
  trans : ∀ {s t u : State}, R s t → R t u → R s u
  bus : ∀ {s t : State}, OnlyBus s t → s.trace <+: t.trace → R s t

namespace FrameRel

variable (hR : FrameRel R)
include hR

theorem refl (s : State) : R s s := hR.bus rfl (List.prefix_refl _)

theorem bind {m : Act α} {k : α → Act β} (hm : m.Keeps R) (hk : ∀ v, (k v).Keeps R) : (m >>= k).Keeps R := by
  intro s w u h
  obtain ⟨v, t, h1, h2⟩ := act_bind_eq_ok.mp h
  exact hR.trans (hm _ _ _ h1) (hk v _ _ _ h2)

theorem pure (v : α) : (Pure.pure v : Act α).Keeps R := by
  intro s w t h
  simp only [act_pure, Except.ok.injEq, Prod.mk.injEq] at h
  rw [← h.2]
  exact hR.refl s

theorem get (f : State → α) : (Act.get f).Keeps R := by
  intro s w t h
  simp only [act_get, Except.ok.injEq, Prod.mk.injEq] at h
  rw [← h.2]
  exact hR.refl s

theorem addCycles (n : Int) : (addCycles n).Keeps R := by
  intro s w t h
  simp only [Machine.addCycles, act_update, Except.ok.injEq, Prod.mk.injEq] at h
  rw [← h.2]
  exact hR.bus (onlyBus_plusCycles s n) (List.prefix_refl _)

theorem addExtra (op : Byte) : (addExtra op).Keeps R := by
  intro s w t h
  simp only [Machine.addExtra, act_update, Except.ok.injEq, Prod.mk.injEq] at h
  rw [← h.2]
  exact hR.bus (onlyBus_plusCycles s _) (List.prefix_refl _)

theorem memRead (a : Word) : (memRead a).Keeps R := by
  intro s v t h
  refine hR.bus (memRead_onlyBus h) ?_
  rcases memRead_ok h with ⟨-, -, rfl⟩ | ⟨-, hx⟩
  · exact List.prefix_refl _
  · rw [exchange_ok hx]
    exact List.prefix_append _ _

theorem readWord (a : Word) : (readWord a).Keeps R :=
  hR.bind (hR.memRead a) fun _ => hR.bind (hR.memRead _) fun _ => hR.pure _

theorem readWordBug (a : Word) : (readWordBug a).Keeps R :=
  hR.bind (hR.memRead a) fun _ => hR.bind (hR.memRead _) fun _ => hR.pure _

theorem resolve (o : Operand) : (resolve o).Keeps R := by
  refine hR.bind (hR.get _) fun _ => hR.bind (hR.get _) fun _ => hR.bind (hR.get _) fun _ => ?_
  cases o
  case ind => exact hR.readWordBug _
  case indx => exact hR.readWordBug _
  case indy => exact hR.bind (hR.readWordBug _) fun _ => hR.pure _
  all_goals exact hR.pure _

theorem readOperand (o : Operand) (ea : Word) : (readOperand o ea).Keeps R :=
  hR.bind (hR.memRead ea) fun _ => by cases o <;> exact hR.pure _

theorem loadOperand (op : Byte) (o : Operand) : (loadOperand op o).Keeps R :=
  hR.bind (hR.resolve o) fun _ => hR.bind (hR.addExtra op) fun _ => hR.readOperand o _

omit hR in
theorem raise (r : FaultRecord) : (raise r : Act α).Keeps R :=
  fun _ _ _ h => absurd h raise_ne_ok

theorem decimalGuard (op : Byte) (o : Operand) : (decimalGuard op o).Keeps R := by
  refine hR.bind (hR.get _) fun f => hR.bind (hR.get _) fun _ => ?_
  cases f.d
  · exact hR.pure _
  · exact FrameRel.raise _

/-- A store keeps what its RAM side keeps. -/
theorem memWrite (a : Word) (v : Byte) (hs : ∀ s : State, R s (s.storeRam a v)) : (memWrite a v).Keeps R := by
  intro s w t h
  refine hR.trans (hs s) ?_
  unfold Machine.memWrite at h
  split_ifs at h with h1 h2
  · exact absurd h raise_ne_ok
  · cases hx : exchange (writeFrame s.cycles a v) (s.storeRam a v) with
    | error r => rw [hx] at h; cases h
    | ok p =>
      rw [hx] at h
      simp only [Except.ok.injEq, Prod.mk.injEq, true_and] at h
      subst h
      rw [exchange_ok (v := p.1) (t := p.2) hx]
      exact hR.bus rfl (List.prefix_append _ _)
  · simp only [Except.ok.injEq, Prod.mk.injEq, true_and] at h
    rw [← h]
    exact hR.refl _

end FrameRel

/-! ### Every fault an action raises is recorded -/

/-- When the action faults, the fault's record is in the state it stops in, which still has every earlier frame. -/
def Act.Records (m : Act α) : Prop :=
  ∀ s e, m s = .error e → ∃ r t, e = FaultRecord.toFault r t ∧ t.fault = some r ∧ s.trace <+: t.trace

/-- The bus trace only grows at its end. -/
def TraceGrows (s t : State) : Prop :=
  s.trace <+: t.trace

theorem traceGrows_frameRel : FrameRel TraceGrows where
  trans h g := List.IsPrefix.trans h g
  bus _ h := h

theorem records_bind {m : Act α} {k : α → Act β} (hm : m.Records) (ht : m.Keeps TraceGrows)
    (hk : ∀ v, (k v).Records) : (m >>= k).Records := by
  intro s e h
  rcases act_bind_eq_error.mp h with h | ⟨v, t, h1, h2⟩
  · exact hm s e h
  · obtain ⟨r, u, he, hf, hp⟩ := hk v t e h2
    exact ⟨r, u, he, hf, List.IsPrefix.trans (ht _ _ _ h1) hp⟩

theorem records_of_total {m : Act α} (h : ∀ s, ∃ p, m s = .ok p) : m.Records := by
  intro s e he
  obtain ⟨p, hp⟩ := h s
  rw [hp] at he
  cases he

theorem records_pure (v : α) : (pure v : Act α).Records := records_of_total fun _ => ⟨_, rfl⟩

theorem records_get (f : State → α) : (Act.get f).Records := records_of_total fun _ => ⟨_, rfl⟩

theorem records_update (f : State → State) : (Act.update f).Records := records_of_total fun _ => ⟨_, rfl⟩

theorem records_raise (r : FaultRecord) : (raise r : Act α).Records := by
  intro s e h
  simp only [raise, Except.error.injEq] at h
  exact ⟨r, _, h.symm, rfl, List.prefix_refl _⟩

theorem records_memRead (a : Word) : (memRead a).Records := by
  intro s e h
  unfold memRead at h
  split at h
  · cases h
  · cases h
  · rw [exchange_error h]
    exact ⟨.transportFailure _, _, rfl, rfl, List.prefix_refl _⟩
  · exact records_raise _ s e h

theorem records_memWrite (a : Word) (v : Byte) : (memWrite a v).Records := by
  intro s e h
  unfold memWrite at h
  split_ifs at h with h1 h2
  · exact records_raise _ s e h
  · cases hx : exchange (writeFrame s.cycles a v) (s.storeRam a v) with
    | ok p => rw [hx] at h; cases h
    | error r =>
      rw [hx] at h
      simp only [Except.error.injEq] at h
      subst h
      rw [exchange_error hx]
      refine ⟨.transportFailure _, _, rfl, rfl, ?_⟩
      simp

/-- An action that only extends the trace and records its faults. -/
structure Act.Traced (m : Act α) : Prop where
  grows : m.Keeps TraceGrows
  records : m.Records

theorem traced_bind {m : Act α} {k : α → Act β} (hm : m.Traced) (hk : ∀ v, (k v).Traced) : (m >>= k).Traced :=
  ⟨traceGrows_frameRel.bind hm.grows fun v => (hk v).grows, records_bind hm.records hm.grows fun v => (hk v).records⟩

theorem traced_pure (v : α) : (pure v : Act α).Traced := ⟨traceGrows_frameRel.pure v, records_pure v⟩

theorem traced_get (f : State → α) : (Act.get f).Traced := ⟨traceGrows_frameRel.get f, records_get f⟩

/-- A relation kept by the named update is kept by the action. -/
theorem keeps_update {f : State → State} (h : ∀ s, R s (f s)) : (Act.update f).Keeps R := by
  intro s w t e
  simp only [act_update, Except.ok.injEq, Prod.mk.injEq] at e
  rw [← e.2]
  exact h s

theorem traced_update {f : State → State} (h : ∀ s, (f s).trace = s.trace) : (Act.update f).Traced :=
  ⟨keeps_update fun s => by rw [TraceGrows, h s], records_update f⟩

theorem traced_raise (r : FaultRecord) : (raise r : Act α).Traced := ⟨FrameRel.raise r, records_raise r⟩

theorem traced_memRead (a : Word) : (memRead a).Traced := ⟨traceGrows_frameRel.memRead a, records_memRead a⟩

theorem traced_memWrite (a : Word) (v : Byte) : (memWrite a v).Traced :=
  ⟨traceGrows_frameRel.memWrite a v fun s => by simp [TraceGrows], records_memWrite a v⟩

end Sys2Proof.Machine
end

