-- ==== Sys2Proof/Laws/Frame.lean ====
section
/-! SUPPORT. What any instruction can do, said once: a relation that the reads keep, and that each kind of write the
instruction makes keeps, holds between the states before and after it. -/

namespace Sys2Proof.Machine

variable {R : State → State → Prop}

/-- What an instruction's own writes must keep: a register only where the instruction writes it, the flags with those
it does not write unchanged, PC for the control transfers, memory for what stores or pushes. -/
structure WritesKeep (R : State → State → Prop) (i : Instr) : Prop where
  a : Reg.a ∈ i.regsWritten → ∀ s v, R s { s with a := v }
  x : Reg.x ∈ i.regsWritten → ∀ s v, R s { s with x := v }
  y : Reg.y ∈ i.regsWritten → ∀ s v, R s { s with y := v }
  sp : Reg.sp ∈ i.regsWritten → ∀ s v, R s { s with sp := v }
  flags : ∀ s f, (∀ g, g ∉ i.flagsWritten s.cfg → f.get g = s.flags.get g) → R s { s with flags := f }
  pc : i.mnemonic ∈ [.bcc, .bcs, .beq, .bmi, .bne, .bpl, .bvc, .bvs, .jmp, .jsr, .rts, .brk, .rti] →
    ∀ s v, R s { s with pc := v }
  store : i.storesOperand = true ∨ i.pushes ≠ 0 → ∀ s a v, R s (s.storeRam a v)

/-! ### Which flags each computation may change -/

theorem adcResult_flags (a m : Byte) (f : Flags) (g : Flag) (h : g ∉ [Flag.n, .z, .c, .v]) :
    (adcResult a m f).2.get g = f.get g := by
  cases g <;> simp_all [adcResult, updateNzc, updateNz, Flags.get]

theorem sbcResult_flags (a m : Byte) (f : Flags) (g : Flag) (h : g ∉ [Flag.n, .z, .c, .v]) :
    (sbcResult a m f).2.get g = f.get g := by
  cases g <;> simp_all [sbcResult, updateNz, Flags.get]

theorem loadResult_flags (m : Byte) (f : Flags) (g : Flag) (h : g ∉ [Flag.n, .z]) :
    (loadResult m f).2.get g = f.get g := by
  cases g <;> simp_all [loadResult, updateNz, Flags.get]

theorem compareFlags_flags (r m : Byte) (f : Flags) (g : Flag) (h : g ∉ [Flag.n, .z, .c]) :
    (compareFlags r m f).get g = f.get g := by
  cases g <;> simp_all [compareFlags, updateNz, Flags.get]

theorem bitFlags_flags (a m : Byte) (f : Flags) (g : Flag) (h : g ∉ [Flag.n, .v, .z]) :
    (bitFlags a m f).get g = f.get g := by
  cases g <;> simp_all [bitFlags, Flags.get]

theorem shiftResult_flags (sh : Byte → Flags → Byte × Flags) (hsh : sh ∈ [aslResult, lsrResult, rolResult, rorResult])
    (m : Byte) (f : Flags) (g : Flag) (h : g ∉ [Flag.n, .z, .c]) : (sh m f).2.get g = f.get g := by
  simp only [List.mem_cons, List.not_mem_nil, or_false] at hsh
  rcases hsh with rfl | rfl | rfl | rfl <;> cases g <;>
    simp_all [aslResult, lsrResult, rolResult, rorResult, updateNzc, updateNz, Flags.get]

theorem countResult_flags (sh : Byte → Flags → Byte × Flags) (hsh : sh ∈ [incResult, decResult])
    (m : Byte) (f : Flags) (g : Flag) (h : g ∉ [Flag.n, .z]) : (sh m f).2.get g = f.get g := by
  simp only [List.mem_cons, List.not_mem_nil, or_false] at hsh
  rcases hsh with rfl | rfl <;> cases g <;> simp_all [incResult, decResult, updateNz, Flags.get]

/-! ### Every family's action -/

/-- Reading the state and going on with what was read. -/
theorem keeps_get_bind {α β : Type} {f : State → α} {k : α → Act β}
    (h : ∀ s w t, k (f s) s = .ok (w, t) → R s t) : (Act.get f >>= k).Keeps R := by
  intro s w t e
  rw [act_bind, act_get] at e
  exact h s w t e

/-- A shift with an operand byte or word is a memory form. -/
theorem storesOperand_of_operand {i : Instr} {o : Operand} (hm : i.mnemonic ∈ [.asl, .lsr, .rol, .ror])
    (ho : i.operand = some o) : i.storesOperand = true := by
  cases i <;> first | rfl | (simp [Instr.mnemonic] at hm; done) | (simp [Instr.operand] at ho)

/-- A shift with none is the accumulator form. -/
theorem regsWritten_of_no_operand {i : Instr} (hm : i.mnemonic ∈ [.asl, .lsr, .rol, .ror])
    (ho : i.operand = none) : Reg.a ∈ i.regsWritten := by
  cases i <;> first | decide | (simp [Instr.mnemonic] at hm; done) | (simp [Instr.operand] at ho)

section families

variable {i : Instr} (hR : FrameRel R) (hw : WritesKeep R i)
include hR hw

theorem keeps_writeA (ha : Reg.a ∈ i.regsWritten) (s : State) (r : Byte × Flags)
    (hf : ∀ g, g ∉ i.flagsWritten s.cfg → r.2.get g = s.flags.get g) : R s { s with a := r.1, flags := r.2 } :=
  hR.trans (hw.flags s r.2 hf) (hw.a ha { s with flags := r.2 } r.1)

theorem keeps_writeX (hx : Reg.x ∈ i.regsWritten) (s : State) (r : Byte × Flags)
    (hf : ∀ g, g ∉ i.flagsWritten s.cfg → r.2.get g = s.flags.get g) : R s { s with x := r.1, flags := r.2 } :=
  hR.trans (hw.flags s r.2 hf) (hw.x hx { s with flags := r.2 } r.1)

theorem keeps_writeY (hy : Reg.y ∈ i.regsWritten) (s : State) (r : Byte × Flags)
    (hf : ∀ g, g ∉ i.flagsWritten s.cfg → r.2.get g = s.flags.get g) : R s { s with y := r.1, flags := r.2 } :=
  hR.trans (hw.flags s r.2 hf) (hw.y hy { s with flags := r.2 } r.1)

theorem keeps_arith (ha : Reg.a ∈ i.regsWritten) (f : Byte → Byte → Flags → Byte × Flags)
    (hf : ∀ a m fl c g, g ∉ i.flagsWritten c → (f a m fl).2.get g = fl.get g) (op : Byte) (o : Operand) :
    (resolve o >>= fun ea => decimalGuard op o >>= fun _ => addExtra op >>= fun _ => readOperand o ea >>= fun m =>
      Act.get id >>= fun s => setAWith (f s.a m s.flags)).Keeps R :=
  hR.bind (hR.resolve o) fun _ => hR.bind (hR.decimalGuard op o) fun _ => hR.bind (hR.addExtra op) fun _ =>
    hR.bind (hR.readOperand o _) fun m => keeps_get_bind fun s w t h =>
      keeps_update (R := fun s' t' => s' = s → R s' t')
        (f := fun s' => { s' with a := (f s.a m s.flags).1, flags := (f s.a m s.flags).2 })
        (fun s' e => by subst e; exact keeps_writeA hR hw ha s' _ (hf _ _ _ _)) s w t h rfl

theorem keeps_logic (ha : Reg.a ∈ i.regsWritten) (hf : ∀ c, i.flagsWritten c = [.n, .z]) (f : Byte → Byte → Byte)
    (op : Byte) (o : Operand) : (logic f op o).Keeps R :=
  hR.bind (hR.loadOperand op o) fun m => keeps_get_bind fun s w t h => by
    simp only [setAWith, act_update, Except.ok.injEq, Prod.mk.injEq] at h
    rw [← h.2]
    exact keeps_writeA hR hw ha s _ fun g hg => loadResult_flags _ _ g (hf _ ▸ hg)

omit hR in
theorem keeps_setFlags (f : State → Flags) (hf : ∀ s g, g ∉ i.flagsWritten s.cfg → (f s).get g = s.flags.get g) :
    (Act.get id >>= fun s => setFlags (f s)).Keeps R :=
  keeps_get_bind fun s w t h => by
    simp only [setFlags, act_update, Except.ok.injEq, Prod.mk.injEq] at h
    rw [← h.2]
    exact hw.flags s _ (hf s)

theorem keeps_loadA (ha : Reg.a ∈ i.regsWritten) (hf : ∀ c, i.flagsWritten c = [.n, .z]) (m : Byte) :
    (Act.get State.flags >>= fun f => setAWith (loadResult m f)).Keeps R :=
  keeps_get_bind fun s w t h => by
    simp only [setAWith, act_update, Except.ok.injEq, Prod.mk.injEq] at h
    rw [← h.2]
    exact keeps_writeA hR hw ha s _ fun g hg => loadResult_flags _ _ g (hf _ ▸ hg)

theorem keeps_lda (ha : Reg.a ∈ i.regsWritten) (hf : ∀ c, i.flagsWritten c = [.n, .z]) (op : Byte) (o : Operand) :
    (lda op o).Keeps R :=
  hR.bind (hR.loadOperand op o) fun m => keeps_loadA hR hw ha hf m

theorem keeps_ldx (ha : Reg.x ∈ i.regsWritten) (hf : ∀ c, i.flagsWritten c = [.n, .z]) (op : Byte) (o : Operand) :
    (ldx op o).Keeps R :=
  hR.bind (hR.loadOperand op o) fun m => keeps_get_bind fun s w t h => by
    simp only [setXWith, act_update, Except.ok.injEq, Prod.mk.injEq] at h
    rw [← h.2]
    exact keeps_writeX hR hw ha s _ fun g hg => loadResult_flags _ _ g (hf _ ▸ hg)

theorem keeps_ldy (ha : Reg.y ∈ i.regsWritten) (hf : ∀ c, i.flagsWritten c = [.n, .z]) (op : Byte) (o : Operand) :
    (ldy op o).Keeps R :=
  hR.bind (hR.loadOperand op o) fun m => keeps_get_bind fun s w t h => by
    simp only [setYWith, act_update, Except.ok.injEq, Prod.mk.injEq] at h
    rw [← h.2]
    exact keeps_writeY hR hw ha s _ fun g hg => loadResult_flags _ _ g (hf _ ▸ hg)

theorem keeps_store (hs : i.storesOperand = true) (reg : State → Byte) (op : Byte) (o : Operand) :
    (store reg op o).Keeps R :=
  hR.bind (hR.get _) fun v => hR.bind (hR.resolve o) fun ea => hR.bind (hR.addExtra op) fun _ =>
    hR.memWrite ea v fun s => hw.store (.inl hs) s ea v

theorem keeps_modifyOperand (hs : i.storesOperand = true) (f : Byte → Flags → Byte × Flags)
    (hf : ∀ m fl c g, g ∉ i.flagsWritten c → (f m fl).2.get g = fl.get g) (op : Byte) (o : Operand) :
    (modifyOperand op o f).Keeps R :=
  hR.bind (hR.resolve o) fun ea => hR.bind (hR.addExtra op) fun _ => hR.bind (hR.memRead ea) fun m =>
    keeps_get_bind fun s w t h => by
      rw [act_bind, setFlags, act_update] at h
      exact hR.trans (hw.flags s _ (hf m s.flags s.cfg))
        (hR.memWrite ea (f m s.flags).1 (fun s => hw.store (.inl hs) s ea _) _ w t h)

theorem keeps_regA (ha : Reg.a ∈ i.regsWritten) (f : State → Byte × Flags)
    (hf : ∀ s g, g ∉ i.flagsWritten s.cfg → (f s).2.get g = s.flags.get g) (op : Byte) :
    (addExtra op >>= fun _ => Act.get id >>= fun s => setAWith (f s)).Keeps R :=
  hR.bind (hR.addExtra op) fun _ => keeps_get_bind fun s w t h => by
    simp only [setAWith, act_update, Except.ok.injEq, Prod.mk.injEq] at h
    rw [← h.2]
    exact keeps_writeA hR hw ha s _ (hf s)

theorem keeps_regX (ha : Reg.x ∈ i.regsWritten) (f : State → Byte × Flags)
    (hf : ∀ s g, g ∉ i.flagsWritten s.cfg → (f s).2.get g = s.flags.get g) (op : Byte) :
    (addExtra op >>= fun _ => Act.get id >>= fun s => setXWith (f s)).Keeps R :=
  hR.bind (hR.addExtra op) fun _ => keeps_get_bind fun s w t h => by
    simp only [setXWith, act_update, Except.ok.injEq, Prod.mk.injEq] at h
    rw [← h.2]
    exact keeps_writeX hR hw ha s _ (hf s)

theorem keeps_regY (ha : Reg.y ∈ i.regsWritten) (f : State → Byte × Flags)
    (hf : ∀ s g, g ∉ i.flagsWritten s.cfg → (f s).2.get g = s.flags.get g) (op : Byte) :
    (addExtra op >>= fun _ => Act.get id >>= fun s => setYWith (f s)).Keeps R :=
  hR.bind (hR.addExtra op) fun _ => keeps_get_bind fun s w t h => by
    simp only [setYWith, act_update, Except.ok.injEq, Prod.mk.injEq] at h
    rw [← h.2]
    exact keeps_writeY hR hw ha s _ (hf s)

omit hR in
theorem keeps_setSp (hs : Reg.sp ∈ i.regsWritten) (v : Byte) : (setSp v).Keeps R :=
  keeps_update fun s => hw.sp hs s v

omit hR in
theorem keeps_setPc
    (hp : i.mnemonic ∈ [.bcc, .bcs, .beq, .bmi, .bne, .bpl, .bvc, .bvs, .jmp, .jsr, .rts, .brk, .rti]) (v : Word) :
    (setPc v).Keeps R :=
  keeps_update fun s => hw.pc hp s v

theorem keeps_push (hs : Reg.sp ∈ i.regsWritten) (hp : i.pushes ≠ 0) (v : Byte) : (push v).Keeps R :=
  hR.bind (hR.get _) fun _ => hR.bind (hR.memWrite _ v fun s => hw.store (.inr hp) s _ v) fun _ => keeps_setSp hw hs _

theorem keeps_pull (hs : Reg.sp ∈ i.regsWritten) : pull.Keeps R :=
  hR.bind (hR.get _) fun _ => hR.bind (keeps_setSp hw hs _) fun _ => hR.memRead _

theorem keeps_pushWord (hs : Reg.sp ∈ i.regsWritten) (hp : i.pushes ≠ 0) (w : Word) : (pushWord w).Keeps R :=
  hR.bind (keeps_push hR hw hs hp _) fun _ => keeps_push hR hw hs hp _

theorem keeps_pullWord (hs : Reg.sp ∈ i.regsWritten) : pullWord.Keeps R :=
  hR.bind (keeps_pull hR hw hs) fun _ => hR.bind (keeps_pull hR hw hs) fun _ => hR.pure _

theorem keeps_branch
    (hp : i.mnemonic ∈ [.bcc, .bcs, .beq, .bmi, .bne, .bpl, .bvc, .bvs, .jmp, .jsr, .rts, .brk, .rti])
    (cond : Flags → Bool) (op off : Byte) : (branch cond op off).Keeps R :=
  hR.bind (hR.resolve _) fun ea => hR.bind (hR.addExtra op) fun _ => hR.bind (hR.get _) fun f => by
    cases cond f
    · exact hR.pure _
    · exact hR.bind (hR.addCycles 1) fun _ => keeps_setPc hw hp ea

theorem keeps_flagOp (f : Flags → Flags) (hf : ∀ fl c g, g ∉ i.flagsWritten c → (f fl).get g = fl.get g) (op : Byte) :
    (flagOp f op).Keeps R :=
  hR.bind (hR.addExtra op) fun _ => keeps_update fun s => hw.flags s _ (hf s.flags s.cfg)

theorem keeps_softwareBreak (hi : i.mnemonic = .brk) (hs : Reg.sp ∈ i.regsWritten) (hp : i.pushes ≠ 0)
    (hf : ∀ c, i.flagsWritten c = if c.brkSetsI then [.b, .i] else [.b]) (op : Byte) :
    (softwareBreak op).Keeps R := by
  have hj : i.mnemonic ∈ [.bcc, .bcs, .beq, .bmi, .bne, .bpl, .bvc, .bvs, .jmp, .jsr, .rts, .brk, .rti] := by
    rw [hi]; decide
  refine hR.bind (hR.addExtra op) fun _ => hR.bind (hR.get _) fun pc =>
    hR.bind (keeps_pushWord hR hw hs hp _) fun _ => keeps_get_bind fun s w t h => ?_
  obtain ⟨_, u, h1, h2⟩ := act_bind_eq_ok.mp h
  have hu := push_ok h1
  have e : u.flags = s.flags := by rw [hu]; simp
  refine hR.trans (keeps_push hR hw hs hp _ _ _ _ h1) ?_
  simp only [act_bind, act_get, setFlags, act_update] at h2
  refine hR.trans (hw.flags u (brkFlags u.cfg s.flags) ?_)
    (hR.bind (hR.readWord brkVector) (fun v => keeps_setPc hw hj v) _ w t ((act_bind _ _).trans h2))
  intro g hg
  rw [hf] at hg
  rw [← e]
  clear hu h1 h2 h e hf
  cases hb : u.cfg.brkSetsI <;> cases g <;> simp [hb, brkFlags, Flags.get] at hg ⊢

/-- Between the states before and after an instruction's meaning every kept relation holds. -/
theorem instrAction_keeps : (instrAction i).Keeps R := by
  unfold instrAction
  split
  all_goals try have hm := ‹i.mnemonic = _›
  · exact keeps_arith hR hw (by simp [Instr.regsWritten, hm]) adcResult
      (fun a m f c g hg => adcResult_flags a m f g (by simpa [Instr.flagsWritten, hm] using hg)) _ _
  · exact keeps_arith hR hw (by simp [Instr.regsWritten, hm]) sbcResult
      (fun a m f c g hg => sbcResult_flags a m f g (by simpa [Instr.flagsWritten, hm] using hg)) _ _
  iterate 3 exact keeps_logic hR hw (by simp [Instr.regsWritten, hm]) (by simp [Instr.flagsWritten, hm]) _ _ _
  iterate 3
    exact hR.bind (hR.loadOperand _ _) fun m => keeps_setFlags hw _ fun s g hg =>
      compareFlags_flags _ _ _ g (by simpa [Instr.flagsWritten, hm] using hg)
  · exact hR.bind (hR.loadOperand _ _) fun m => keeps_setFlags hw _ fun s g hg =>
      bitFlags_flags _ _ _ g (by simpa [Instr.flagsWritten, hm] using hg)
  · exact keeps_lda hR hw (by simp [Instr.regsWritten, hm]) (by simp [Instr.flagsWritten, hm]) _ _
  · exact keeps_ldx hR hw (by simp [Instr.regsWritten, hm]) (by simp [Instr.flagsWritten, hm]) _ _
  · exact keeps_ldy hR hw (by simp [Instr.regsWritten, hm]) (by simp [Instr.flagsWritten, hm]) _ _
  iterate 3 exact keeps_store hR hw (by simp [Instr.storesOperand, hm]) _ _ _
  iterate 4
    exact keeps_modifyOperand hR hw (storesOperand_of_operand (by simp [hm]) ‹i.operand = some _›) _
      (fun m f c g hg => shiftResult_flags _ (by simp) m f g (by simpa [Instr.flagsWritten, hm] using hg)) _ _
  iterate 2
    exact keeps_modifyOperand hR hw (by simp [Instr.storesOperand, hm]) _
      (fun m f c g hg => countResult_flags _ (by simp) m f g (by simpa [Instr.flagsWritten, hm] using hg)) _ _
  iterate 4
    exact keeps_regA hR hw (regsWritten_of_no_operand (by simp [hm]) ‹i.operand = none›) _ (fun s g hg =>
      shiftResult_flags _ (by simp) _ _ g (by simpa [Instr.flagsWritten, hm] using hg)) _
  iterate 2
    exact keeps_regX hR hw (by simp [Instr.regsWritten, hm]) _ (fun s g hg =>
      countResult_flags _ (by simp) _ _ g (by simpa [Instr.flagsWritten, hm] using hg)) _
  iterate 2
    exact keeps_regY hR hw (by simp [Instr.regsWritten, hm]) _ (fun s g hg =>
      countResult_flags _ (by simp) _ _ g (by simpa [Instr.flagsWritten, hm] using hg)) _
  · exact keeps_regX hR hw (by simp [Instr.regsWritten, hm]) _ (fun s g hg =>
      loadResult_flags _ _ g (by simpa [Instr.flagsWritten, hm] using hg)) _
  · exact keeps_regY hR hw (by simp [Instr.regsWritten, hm]) _ (fun s g hg =>
      loadResult_flags _ _ g (by simpa [Instr.flagsWritten, hm] using hg)) _
  iterate 2
    exact keeps_regA hR hw (by simp [Instr.regsWritten, hm]) _ (fun s g hg =>
      loadResult_flags _ _ g (by simpa [Instr.flagsWritten, hm] using hg)) _
  · exact keeps_regX hR hw (by simp [Instr.regsWritten, hm]) _ (fun s g hg =>
      loadResult_flags _ _ g (by simpa [Instr.flagsWritten, hm] using hg)) _
  · exact hR.bind (hR.addExtra _) fun _ => hR.bind (hR.get _) fun _ =>
      keeps_setSp hw (by simp [Instr.regsWritten, hm]) _
  iterate 2
    exact hR.bind (hR.addExtra _) fun _ => hR.bind (hR.get _) fun _ =>
      keeps_push hR hw (by simp [Instr.regsWritten, hm]) (by simp [Instr.pushes, hm]) _
  · exact hR.bind (hR.addExtra _) fun _ => hR.bind (keeps_pull hR hw (by simp [Instr.regsWritten, hm])) fun m =>
      keeps_loadA hR hw (by simp [Instr.regsWritten, hm]) (by simp [Instr.flagsWritten, hm]) m
  · exact hR.bind (hR.addExtra _) fun _ => hR.bind (keeps_pull hR hw (by simp [Instr.regsWritten, hm])) fun p =>
      keeps_update fun s => hw.flags s _ fun g hg => by cases g <;> simp [Instr.flagsWritten, hm] at hg
  iterate 8 exact keeps_branch hR hw (by simp [hm]) _ _ _
  · exact hR.bind (hR.resolve _) fun ea => hR.bind (hR.addExtra _) fun _ => keeps_setPc hw (by simp [hm]) ea
  · exact hR.bind (hR.resolve _) fun ea => hR.bind (hR.addExtra _) fun _ => hR.bind (hR.get _) fun pc =>
      hR.bind (keeps_pushWord hR hw (by simp [Instr.regsWritten, hm]) (by simp [Instr.pushes, hm]) _) fun _ =>
        keeps_setPc hw (by simp [hm]) ea
  · exact hR.bind (hR.addExtra _) fun _ =>
      hR.bind (keeps_pullWord hR hw (by simp [Instr.regsWritten, hm])) fun w => keeps_setPc hw (by simp [hm]) _
  · exact keeps_softwareBreak hR hw hm (by simp [Instr.regsWritten, hm]) (by simp [Instr.pushes, hm])
      (by simp [Instr.flagsWritten, hm]) _
  · exact hR.bind (hR.addExtra _) fun _ => hR.bind (keeps_pull hR hw (by simp [Instr.regsWritten, hm])) fun p =>
      hR.bind (keeps_update fun s => hw.flags s _ fun g hg => by cases g <;> simp [Instr.flagsWritten, hm] at hg)
        fun _ => hR.bind (keeps_pullWord hR hw (by simp [Instr.regsWritten, hm])) fun w =>
          keeps_setPc hw (by simp [hm]) _
  iterate 7
    exact keeps_flagOp hR hw _ (fun f c g hg => by
      cases g <;> simp [Instr.flagsWritten, hm, Flags.get] at hg ⊢) _
  · exact hR.addExtra _

end families

/-- Every meaning only extends the trace, and records the fault it stops with. -/
theorem instrAction_traced (i : Instr) : (instrAction i).Traced := by
  unfold instrAction
  split
  all_goals
    try simp only [adc, sbc, logic, Machine.compare, bitTest, lda, ldx, ldy, Machine.store, storeOperand, loadOperand,
      modifyOperand, readOperand, resolve, decimalGuard, shiftA, modifyX, modifyY, transferToA, transferToX,
      transferToY, txs, pushByte, pla, plp, branch, jump, callSubroutine, returnFromSubroutine, softwareBreak,
      returnFromBreak, enterTrap, returnFromTrap, flagOp, noOperation, push, pull, pushWord, pullWord, readWord,
      readWordBug, addExtra, addCycles, setSp, setPc, setFlags, setAWith, setXWith, setYWith, changeFlags]
  all_goals
    repeat' first
      | apply traced_bind
      | intro _
      | exact traced_pure _
      | exact traced_get _
      | exact traced_update fun _ => rfl
      | exact traced_raise _
      | exact traced_memRead _
      | exact traced_memWrite _ _
      | split

end Sys2Proof.Machine
end

