-- ==== Sys2Proof/Laws/Step.lean ====
section
/-! SUPPORT. What a step can do, said once: its cases, the fetch and mode stages, and the host's commands. -/

namespace Sys2Proof.Machine

variable {R : State → State → Prop} {s t u : State}

/-! ### The cases of a step -/

theorem step_running (hf : s.fault = none) (hq : s.quit = false) (hr : s.running = true)
    (hp : s.pending = [] ∨ s.batchLeft ≠ 0) : step s = runInstruction s := by
  simp only [step, hf, hq, Bool.false_eq_true, if_false]
  rcases hp with h | h
  · simp [h, runOrIdle, hr]
  · cases s.pending <;> simp [State.atServicePoint, hr, h, runOrIdle]

theorem step_service {c : HostCommand} {rest : List HostCommand} (hf : s.fault = none) (hq : s.quit = false)
    (hs : s.running = false ∨ s.batchLeft = 0) (hp : s.pending = c :: rest) :
    step s = (runCommand c).outcome { s with pending := rest, batchLeft := 0 } := by
  have : s.atServicePoint = true := by simp [State.atServicePoint, hs]
  simp [step, hf, hq, hp, this, service]

/-- The outcomes of a step from a state with no fault recorded: the same state again, an instruction, or a host
command. -/
theorem step_cases (hf : s.fault = none) :
    step s = .next s ∨ (s.running = true ∧ step s = runInstruction s) ∨
    (∃ c rest, s.pending = c :: rest ∧
      step s = (runCommand c).outcome { s with pending := rest, batchLeft := 0 }) := by
  rcases Bool.eq_false_or_eq_true s.quit with hq | hq
  · exact .inl (by simp [step, hf, hq])
  · cases hp : s.pending with
    | nil =>
      cases hr : s.running
      · exact .inl (by simp [step, hf, hq, hp, runOrIdle, hr])
      · exact .inr (.inl ⟨rfl, step_running hf hq hr (.inl hp)⟩)
    | cons c rest =>
      by_cases hs : s.running = false ∨ s.batchLeft = 0
      · exact .inr (.inr ⟨c, rest, rfl, step_service hf hq hs hp⟩)
      · simp only [not_or, Bool.not_eq_false] at hs
        exact .inr (.inl ⟨hs.1, step_running hf hq hs.1 (.inr hs.2)⟩)

/-- A step that completes: no fault was recorded, and it is one of the four cases. -/
theorem step_next (h : step s = .next t) : s.fault = none ∧ (t = s ∨
    (s.running = true ∧ fetch s.countInstruction = .ok (none, t)) ∨
    (s.running = true ∧ ∃ i u, fetch s.countInstruction = .ok (some i, u) ∧ exec i u = .next t) ∨
    (∃ c rest, s.pending = c :: rest ∧ runCommand c { s with pending := rest, batchLeft := 0 } = .ok ((), t))) := by
  have hf : s.fault = none := by
    cases hf : s.fault with
    | none => rfl
    | some r => simp [step, hf] at h
  refine ⟨hf, ?_⟩
  rcases step_cases hf with e | ⟨hr, e⟩ | ⟨c, rest, hp, e⟩ <;> rw [e] at h
  · exact .inl (by simpa using h.symm)
  · unfold runInstruction at h
    split at h
    · cases h
    · rename_i hx
      simp only [Host.Outcome.next.injEq] at h
      exact .inr (.inl ⟨hr, h ▸ hx⟩)
    · rename_i hx
      exact .inr (.inr (.inl ⟨hr, _, _, hx, h⟩))
  · exact .inr (.inr (.inr ⟨c, rest, hp, act_outcome_next.mp h⟩))

/-- A step that faults: it repeats a recorded fault, or one of its parts raises it. -/
theorem step_fault {e : Fault} (h : step s = .fault e) : (∃ r, s.fault = some r ∧ e = r.toFault s) ∨
    (s.fault = none ∧ (fetch s.countInstruction = .error e ∨
    (∃ i u, fetch s.countInstruction = .ok (some i, u) ∧ exec i u = .fault e) ∨
    (∃ c rest, s.pending = c :: rest ∧ runCommand c { s with pending := rest, batchLeft := 0 } = .error e))) := by
  rcases Option.eq_none_or_eq_some s.fault with hf | ⟨r, hf⟩
  · refine .inr ⟨hf, ?_⟩
    rcases step_cases hf with x | ⟨hr, x⟩ | ⟨c, rest, hp, x⟩ <;> rw [x] at h
    · cases h
    · unfold runInstruction at h
      split at h
      · rename_i hx
        simp only [Host.Outcome.fault.injEq] at h
        exact .inl (h ▸ hx)
      · cases h
      · rename_i hx
        exact .inr (.inl ⟨_, _, hx, h⟩)
    · exact .inr (.inr ⟨c, rest, hp, act_outcome_fault.mp h⟩)
  · exact .inl ⟨r, hf, by simpa [step, hf] using h.symm⟩

/-! ### The fetch and mode stages -/

theorem fetchOperands_keeps (hR : FrameRel R) (hp : ∀ s v, R s { s with pc := v }) (r : Row) :
    (fetchOperands r).Keeps R := by
  have hpc : ∀ v, (setPc v).Keeps R := fun v => keeps_update fun s => hp s v
  refine hR.bind (hR.addCycles _) fun _ => ?_
  cases r.mode
  case imp => exact hR.pure _
  case acc => exact hR.pure _
  case imm =>
    exact hR.bind (hR.bind (hR.get _) fun _ => hR.bind (hR.get _) fun _ => hR.bind (hpc _) fun _ => hR.pure _)
      fun _ => hR.pure _
  case abs | absx | absy | ind =>
    exact hR.bind (hR.bind (hR.get _) fun _ => hR.bind (hR.readWord _) fun _ => hR.bind (hpc _) fun _ => hR.pure _)
      fun _ => hR.pure _
  all_goals
    exact hR.bind (hR.bind (hR.get _) fun _ => hR.bind (hR.memRead _) fun _ => hR.bind (hpc _) fun _ => hR.pure _)
      fun _ => hR.pure _

theorem fetch_keeps (hR : FrameRel R) (hp : ∀ s v, R s { s with pc := v })
    (hh : ∀ s a op, R s { s with haltInfo := some (a, op), running := false }) : fetch.Keeps R := by
  refine hR.bind (hR.get _) fun a0 => hR.bind (hR.addCycles 2) fun _ =>
    hR.bind (hR.bind (hR.get _) fun _ => hR.bind (hR.memRead _) fun _ =>
      hR.bind (keeps_update fun s => hp s _) fun _ => hR.pure _) fun op => ?_
  have hhalt : (halt a0 op).Keeps R := keeps_update fun s => hh s a0 op
  cases lookup op with
  | none => exact hR.bind hhalt fun _ => hR.pure _
  | some r =>
    refine hR.bind (fetchOperands_keeps hR hp r) fun bytes => ?_
    cases decode (op :: bytes) with
    | ok p => exact hR.pure _
    | error e => exact hR.bind hhalt fun _ => hR.pure _

theorem fetch_traced : fetch.Traced := by
  unfold fetch fetchOperands fetchByte fetchWord fetchImmediate readWord halt addCycles setPc
  repeat' first
    | apply traced_bind
    | intro _
    | exact traced_pure _
    | exact traced_get _
    | exact traced_update fun _ => rfl
    | exact traced_memRead _
    | split

/-- PC written on both sides. -/
theorem onlyBus_withPc (h : OnlyBus s t) (pc : Word) : OnlyBus { s with pc := pc } { t with pc := pc } := by
  unfold OnlyBus at h ⊢
  rw [h]

theorem fetchByte_ok {b : Byte} (h : fetchByte s = .ok (b, t)) :
    ∃ u, memRead s.pc s = .ok (b, u) ∧ t = { u with pc := s.pc + 1 } := by
  simp only [fetchByte, setPc, act_bind_eq_ok, act_get, act_update, act_pure, Except.ok.injEq, Prod.mk.injEq] at h
  obtain ⟨_, _, ⟨rfl, rfl⟩, _, u, h1, _, _, ⟨-, rfl⟩, rfl, rfl⟩ := h
  exact ⟨u, h1, rfl⟩

/-- The operand stage: PC past the operand bytes, the mode delta counted, otherwise only the bus. -/
theorem fetchOperands_ok {r : Row} {bytes : List Byte} (h : fetchOperands r s = .ok (bytes, t)) :
    OnlyBus { s with pc := s.pc + BitVec.ofNat 16 r.mode.operandBytes } t ∧
      t.cycles = ((s.cycles : Int) + r.delta).toNat ∧ bytes.length = r.mode.operandBytes := by
  unfold fetchOperands at h
  rw [act_bind, addCycles, act_update] at h
  dsimp only at h
  have one : ∀ {v : State} {b : Byte}, fetchByte v = .ok (b, t) →
      OnlyBus { v with pc := v.pc + BitVec.ofNat 16 1 } t ∧ t.cycles = v.cycles := by
    intro v b hb
    obtain ⟨u, h1, rfl⟩ := fetchByte_ok hb
    refine ⟨?_, memRead_cycles (t := u) h1⟩
    have := memRead_onlyBus h1
    unfold OnlyBus at this ⊢
    rw [this]
    rfl
  have two : ∀ {v : State} {w : Word}, fetchWord v = .ok (w, t) →
      OnlyBus { v with pc := v.pc + BitVec.ofNat 16 2 } t ∧ t.cycles = v.cycles := by
    intro v w hw
    simp only [fetchWord, setPc, act_bind_eq_ok, act_get, act_update, act_pure, Except.ok.injEq, Prod.mk.injEq] at hw
    obtain ⟨_, _, ⟨rfl, rfl⟩, _, u, h1, _, _, ⟨-, rfl⟩, -, rfl⟩ := hw
    refine ⟨?_, readWord_cycles (t := u) h1⟩
    have := readWord_onlyBus h1
    unfold OnlyBus at this ⊢
    rw [this]
    rfl
  cases hm : r.mode <;> rw [hm] at h
  case imp | acc =>
    simp only [act_pure, Except.ok.injEq, Prod.mk.injEq] at h
    obtain ⟨rfl, rfl⟩ := h
    refine ⟨?_, rfl, rfl⟩
    simp [OnlyBus, State.plusCycles, Mode.operandBytes]
  case imm =>
    simp only [fetchImmediate, setPc, act_bind_eq_ok, act_get, act_update, act_pure, Except.ok.injEq,
      Prod.mk.injEq] at h
    obtain ⟨_, _, ⟨_, _, ⟨rfl, rfl⟩, _, _, ⟨rfl, rfl⟩, _, _, ⟨-, rfl⟩, -, rfl⟩, rfl, rfl⟩ := h
    exact ⟨rfl, rfl, rfl⟩
  case abs | absx | absy | ind =>
    obtain ⟨w, u, h1, h2⟩ := act_bind_eq_ok.mp h
    simp only [act_pure, Except.ok.injEq, Prod.mk.injEq] at h2
    obtain ⟨rfl, rfl⟩ := h2
    obtain ⟨g1, g2⟩ := two h1
    exact ⟨g1, g2, rfl⟩
  all_goals
    obtain ⟨w, u, h1, h2⟩ := act_bind_eq_ok.mp h
    simp only [act_pure, Except.ok.injEq, Prod.mk.injEq] at h2
    obtain ⟨rfl, rfl⟩ := h2
    obtain ⟨g1, g2⟩ := one h1
    exact ⟨g1, g2, rfl⟩

/-- The fetch and mode stages that give an instruction: PC past it, 2 and its mode delta counted, otherwise only the
bus. -/
theorem fetch_some {i : Instr} (h : fetch s = .ok (some i, t)) :
    OnlyBus { s with pc := s.pc + BitVec.ofNat 16 i.length } t ∧
      t.cycles = ((s.cycles : Int) + 2 + modeDelta i.mode (indexedWrite i.mnemonic i.mode)).toNat := by
  simp only [fetch, addCycles, act_bind_eq_ok, act_get, act_update, Except.ok.injEq, Prod.mk.injEq] at h
  obtain ⟨_, _, ⟨rfl, rfl⟩, _, _, ⟨-, rfl⟩, op, u, h1, h2⟩ := h
  obtain ⟨v, hv, rfl⟩ := fetchByte_ok h1
  cases hl : lookup op with
  | none => simp [hl, halt, act_bind, act_update, act_pure] at h2
  | some r =>
    rw [hl] at h2
    obtain ⟨bytes, w, h3, h4⟩ := act_bind_eq_ok.mp h2
    obtain ⟨g1, g2, -⟩ := fetchOperands_ok h3
    cases hd : decode (op :: bytes) with
    | error e => simp [hd, halt, act_bind, act_update, act_pure] at h4
    | ok p =>
      obtain ⟨j, rest⟩ := p
      simp only [hd, act_pure, Except.ok.injEq, Prod.mk.injEq, Option.some.injEq] at h4
      obtain ⟨rfl, rfl⟩ := h4
      obtain ⟨-, e1, e2, -⟩ := decode_row hl hd
      have hb := memRead_onlyBus hv
      have hc := memRead_cycles hv
      constructor
      · have hp := onlyBus_withPc (onlyBus_trans (onlyBus_plusCycles s 2) hb) (s.pc + BitVec.ofNat 16 j.length)
        refine onlyBus_trans hp (Eq.trans g1 ?_)
        have e : s.pc + 1 + BitVec.ofNat 16 r.mode.operandBytes = s.pc + BitVec.ofNat 16 j.length := by
          rw [Instr.length, e2, BitVec.ofNat_add, ← BitVec.add_assoc]
          rfl
        simp only [plusCycles_pc, e]
      · have h2n : (((s.cycles : Int) + 2).toNat : Int) = s.cycles + 2 := Int.toNat_of_nonneg (by omega)
        rw [g2, hc, plusCycles_cycles, h2n, Row.delta, e1, e2]

/-- The operand bytes that were fetched decode. -/
theorem decode_of_fetched {op : Byte} {r : Row} {bytes : List Byte} (hl : lookup op = some r)
    (hb : bytes.length = r.mode.operandBytes) : ∃ p, decode (op :: bytes) = .ok p := by
  simp only [decode, hl]
  unfold Row.assemble
  have two : r.mode.operandBytes ≤ 2 := by cases r.mode <;> decide
  rcases bytes with _ | ⟨b, _ | ⟨c, _ | ⟨d, rest⟩⟩⟩ <;> simp only [List.length_cons, List.length_nil] at hb
  · rw [← hb]; exact ⟨_, rfl⟩
  · rw [← hb]; exact ⟨_, rfl⟩
  · rw [← hb]; exact ⟨_, rfl⟩
  · omega

/-- The fetch stage that gives no instruction: the halt on an Absent opcode, PC one further and 2 counted. -/
theorem fetch_none (h : fetch s = .ok (none, t)) : ∃ op, lookup op = none ∧
    OnlyBus { s with pc := s.pc + 1, haltInfo := some (s.pc, op), running := false } t ∧
      t.cycles = s.cycles + 2 := by
  simp only [fetch, addCycles, act_bind_eq_ok, act_get, act_update, Except.ok.injEq, Prod.mk.injEq] at h
  obtain ⟨_, _, ⟨rfl, rfl⟩, _, _, ⟨-, rfl⟩, op, u, h1, h2⟩ := h
  obtain ⟨v, hv, rfl⟩ := fetchByte_ok h1
  cases hl : lookup op with
  | none =>
    simp only [hl, halt, act_bind, act_update, act_pure, Except.ok.injEq, Prod.mk.injEq, true_and] at h2
    refine ⟨op, hl, ?_, ?_⟩
    · have hb := memRead_onlyBus hv
      unfold OnlyBus at hb ⊢
      rw [← h2, hb]
      rfl
    · rw [← h2, memRead_cycles hv, plusCycles_cycles]
      omega
  | some r =>
    rw [hl] at h2
    obtain ⟨bytes, w, h3, h4⟩ := act_bind_eq_ok.mp h2
    obtain ⟨p, hp⟩ := decode_of_fetched hl (fetchOperands_ok h3).2.2
    simp [hp, act_pure] at h4

/-- No mode costs a negative number of cycles. -/
theorem row_delta_nonneg {r : Row} (h : r ∈ decodeTable) : 0 ≤ r.delta := by
  have key : ∀ r ∈ decodeTable, 0 ≤ r.delta := by decide +kernel
  exact key r h

/-- The operand bytes from plain memory. -/
theorem fetchOperands_plain {r : Row} (hd : 0 ≤ r.delta) (h1 : 1 ≤ r.mode.operandBytes → s.plain s.pc = true)
    (h2 : 2 ≤ r.mode.operandBytes → s.plain (s.pc + 1) = true) :
    fetchOperands r s = .ok ([s.byteAt s.pc, s.byteAt (s.pc + 1)].take r.mode.operandBytes,
      { s with pc := s.pc + BitVec.ofNat 16 r.mode.operandBytes, cycles := s.cycles + r.delta.toNat }) := by
  have hc : s.plusCycles r.delta = { s with cycles := s.cycles + r.delta.toNat } := by
    have : ((s.cycles : Int) + r.delta).toNat = s.cycles + r.delta.toNat := by omega
    simp only [State.plusCycles, this]
  have one : s.plain s.pc = true → fetchByte (s.plusCycles r.delta) =
      .ok (s.byteAt s.pc, { s.plusCycles r.delta with pc := s.pc + 1 }) := fun h => by
    have e : memRead s.pc (s.plusCycles r.delta) = .ok (s.byteAt s.pc, s.plusCycles r.delta) := memRead_plain h
    rw [fetchByte, act_bind_ok (act_get _)]
    exact act_bind_ok e _
  have two : s.plain s.pc = true → s.plain (s.pc + 1) = true → fetchWord (s.plusCycles r.delta) =
      .ok (word (s.byteAt s.pc) (s.byteAt (s.pc + 1)), { s.plusCycles r.delta with pc := s.pc + 2 }) := fun h g => by
    have e : memRead s.pc (s.plusCycles r.delta) = .ok (s.byteAt s.pc, s.plusCycles r.delta) := memRead_plain h
    have f : memRead (s.pc + 1) (s.plusCycles r.delta) = .ok (s.byteAt (s.pc + 1), s.plusCycles r.delta) :=
      memRead_plain g
    have w : readWord s.pc (s.plusCycles r.delta) =
        .ok (word (s.byteAt s.pc) (s.byteAt (s.pc + 1)), s.plusCycles r.delta) := by
      rw [readWord, act_bind_ok e]
      exact act_bind_ok f _
    rw [fetchWord, act_bind_ok (act_get _)]
    exact act_bind_ok w _
  rw [fetchOperands, addCycles, act_bind_ok (act_update _)]
  cases hm : r.mode <;> simp only [hm, Mode.operandBytes] at h1 h2 ⊢
  case imp | acc => simp [act_pure, hc]
  case imm =>
    have e : memRead s.pc (s.plusCycles r.delta) = .ok (s.byteAt s.pc, s.plusCycles r.delta) :=
      memRead_plain (h1 (by omega))
    have p : (s.plusCycles r.delta).peekByte s.pc = s.byteAt s.pc := by rw [State.peekByte, e]
    have f : fetchImmediate (s.plusCycles r.delta) =
        .ok (s.byteAt s.pc, { s.plusCycles r.delta with pc := s.pc + 1 }) := by
      rw [fetchImmediate, act_bind_ok (act_get _), act_bind_ok (act_get _), plusCycles_pc, p]
      rfl
    rw [act_bind_ok f, hc]
    rfl
  case abs | absx | absy | ind =>
    rw [act_bind_ok (two (h1 (by omega)) (h2 (by omega))), loByte_word, hiByte_word, hc]
    rfl
  all_goals
    rw [act_bind_ok (one (h1 (by omega))), hc]
    rfl

/-- The fetch and mode stages where the instruction's bytes are plain memory. -/
theorem fetch_plain {i : Instr} {rest : List Byte} (hp : ∀ k < i.length, s.plain (s.pc + BitVec.ofNat 16 k) = true)
    (hd : decode [s.byteAt s.pc, s.byteAt (s.pc + 1), s.byteAt (s.pc + 2)] = .ok (i, rest)) :
    fetch s = .ok (some i, { s with
      pc := s.pc + BitVec.ofNat 16 i.length
      cycles := s.cycles + 2 + (modeDelta i.mode (indexedWrite i.mnemonic i.mode)).toNat }) := by
  obtain ⟨op, tail, r, hb, hl, ha⟩ := decode_ok hd
  simp only [List.cons.injEq] at hb
  obtain ⟨rfl, rfl⟩ := hb
  obtain ⟨-, e1, e2, -⟩ := decode_row hl hd
  have a2 : s.pc + 1 + 1 = s.pc + 2 := by bv_omega
  have h0 := hp 0 (by simp [Instr.length])
  simp only [BitVec.add_zero] at h0
  have f1 : fetchByte (s.plusCycles 2) = .ok (s.byteAt s.pc, { s.plusCycles 2 with pc := s.pc + 1 }) := by
    have e : memRead s.pc (s.plusCycles 2) = .ok (s.byteAt s.pc, s.plusCycles 2) := memRead_plain h0
    rw [fetchByte, act_bind_ok (act_get _)]
    exact act_bind_ok e _
  have f2 := fetchOperands_plain (s := { s.plusCycles 2 with pc := s.pc + 1 }) (row_delta_nonneg (lookup_some hl).1)
    (fun h => hp 1 (by rw [Instr.length, e2]; omega))
    (fun h => by
      have := hp 2 (by rw [Instr.length, e2]; omega)
      rw [a2]
      exact this)
  have hq : ∃ q, decode (s.byteAt s.pc :: [s.byteAt (s.pc + 1), s.byteAt (s.pc + 2)].take r.mode.operandBytes) =
      .ok (i, q) := by
    simp only [decode, hl]
    unfold Row.assemble at ha ⊢
    have two : r.mode.operandBytes ≤ 2 := by cases r.mode <;> decide
    match hn : r.mode.operandBytes, two with
    | 0, _ | 1, _ | 2, _ =>
      rw [hn] at ha
      simp only [Except.ok.injEq, Prod.mk.injEq] at ha
      exact ⟨_, by rw [← ha.1]; rfl⟩
  obtain ⟨q, hq⟩ := hq
  rw [fetch, act_bind_ok (act_get _), addCycles, act_bind_ok (act_update _), act_bind_ok f1, hl]
  refine (act_bind_ok f2 _).trans ?_
  rw [a2]
  have e : s.pc + 1 + BitVec.ofNat 16 r.mode.operandBytes = s.pc + BitVec.ofNat 16 i.length := by
    rw [Instr.length, e2, BitVec.ofNat_add, ← BitVec.add_assoc]
    rfl
  have hc : ((s.cycles : Int) + 2).toNat + r.delta.toNat =
      s.cycles + 2 + (modeDelta i.mode (indexedWrite i.mnemonic i.mode)).toNat := by
    rw [Row.delta, ← e1, ← e2]
    omega
  have hb : ∀ c, State.byteAt { s.plusCycles 2 with pc := s.pc + 1 } c = s.byteAt c := fun _ => rfl
  rw [hb, hb, hq]
  refine (act_pure _).trans ?_
  simp only [e, plusCycles_a, plusCycles_x, plusCycles_y, plusCycles_sp, plusCycles_flags, plusCycles_mem,
    plusCycles_running, plusCycles_quit, plusCycles_haltInfo, plusCycles_fault, plusCycles_trace, plusCycles_peer,
    plusCycles_pending, plusCycles_responses, plusCycles_batchLeft, plusCycles_cfg, plusCycles_cycles, hc]

/-! ### The host's commands -/

theorem readAll_keeps (hR : FrameRel R) : ∀ l, (readAll l).Keeps R
  | [] => hR.pure _
  | a :: l => hR.bind (hR.memRead a) fun _ => hR.bind (readAll_keeps hR l) fun _ => hR.pure _

theorem writeAll_keeps (hR : FrameRel R) (hs : ∀ s a v, R s (s.storeRam a v)) :
    ∀ (bytes : List Byte) (a : Word), (writeAll a bytes).Keeps R
  | [], _ => hR.pure _
  | b :: bytes, a =>
    hR.bind (hR.memWrite a b fun s => hs s a b) fun _ => writeAll_keeps hR hs bytes (a + 1)

theorem disassemble_keeps (hR : FrameRel R) : ∀ (k : Nat) (a : Word), (disassemble k a).Keeps R
  | 0, _ => hR.pure _
  | k + 1, a => hR.bind (hR.memRead a) fun op => hR.bind (readAll_keeps hR _) fun bytes =>
      hR.bind (disassemble_keeps hR k _) fun rest => by
        cases decode (op :: bytes) <;> exact hR.pure _

theorem runCommand_keeps (hR : FrameRel R) (hs : ∀ s a v, R s (s.storeRam a v))
    (hresp : ∀ s r, R s { s with responses := r })
    (hreset : ∀ s pc, R s { s with pc := pc, running := true, haltInfo := none })
    (hquit : ∀ s, R s { s with quit := true }) (c : HostCommand) : (runCommand c).Keeps R := by
  cases c with
  | status => exact hR.bind (hR.get _) fun r => keeps_update fun s => hresp s _
  | readMemory first last => exact hR.bind (readAll_keeps hR _) fun _ => keeps_update fun s => hresp s _
  | writeMemory first bytes => exact writeAll_keeps hR hs bytes first
  | disassemble first count => exact hR.bind (disassemble_keeps hR _ _) fun _ => keeps_update fun s => hresp s _
  | reset => exact hR.bind (hR.readWord _) fun pc => keeps_update fun s => hreset s pc
  | quit => exact keeps_update hquit

theorem readAll_traced : ∀ l, (readAll l).Traced
  | [] => traced_pure _
  | a :: l => traced_bind (traced_memRead a) fun _ => traced_bind (readAll_traced l) fun _ => traced_pure _

theorem writeAll_traced : ∀ (bytes : List Byte) (a : Word), (writeAll a bytes).Traced
  | [], _ => traced_pure _
  | b :: bytes, a => traced_bind (traced_memWrite a b) fun _ => writeAll_traced bytes (a + 1)

theorem disassemble_traced : ∀ (k : Nat) (a : Word), (disassemble k a).Traced
  | 0, _ => traced_pure _
  | k + 1, a => traced_bind (traced_memRead a) fun op => traced_bind (readAll_traced _) fun bytes =>
      traced_bind (disassemble_traced k _) fun rest => by
        cases decode (op :: bytes) <;> exact traced_pure _

theorem runCommand_traced (c : HostCommand) : (runCommand c).Traced := by
  cases c with
  | status => exact traced_bind (traced_get _) fun r => traced_update fun _ => rfl
  | readMemory first last => exact traced_bind (readAll_traced _) fun _ => traced_update fun _ => rfl
  | writeMemory first bytes => exact writeAll_traced bytes first
  | disassemble first count => exact traced_bind (disassemble_traced _ _) fun _ => traced_update fun _ => rfl
  | reset =>
    exact traced_bind (traced_bind (traced_memRead _) fun _ => traced_bind (traced_memRead _) fun _ => traced_pure _)
      fun _ => traced_update fun _ => rfl
  | quit => exact traced_update fun _ => rfl

/-- Reading plain memory byte by byte changes nothing. -/
theorem readAll_plain : ∀ l : List Word, (∀ a ∈ l, s.plain a = true) → readAll l s = .ok (l.map s.byteAt, s)
  | [], _ => rfl
  | a :: l, h => by
    rw [readAll, act_bind_ok (memRead_plain (h a (by simp))),
      act_bind_ok (readAll_plain l fun b hb => h b (by simp [hb]))]
    rfl

/-! ### A rule over all steps -/

/-- A relation that every kind of write keeps. -/
structure AllKeep (R : State → State → Prop) : Prop where
  a : ∀ s v, R s { s with a := v }
  x : ∀ s v, R s { s with x := v }
  y : ∀ s v, R s { s with y := v }
  sp : ∀ s v, R s { s with sp := v }
  pc : ∀ s v, R s { s with pc := v }
  flags : ∀ s f, R s { s with flags := f }
  store : ∀ s a v, R s (s.storeRam a v)
  queue : ∀ s p n, R s { s with pending := p, batchLeft := n }
  responses : ∀ s r, R s { s with responses := r }
  halt : ∀ s a op, R s { s with haltInfo := some (a, op), running := false }
  reset : ∀ s pc, R s { s with pc := pc, running := true, haltInfo := none }
  quit : ∀ s, R s { s with quit := true }

theorem exec_keeps (hR : FrameRel R) (hw : AllKeep R) {i : Instr} (h : exec i s = .next t) : R s t :=
  instrAction_keeps hR ⟨fun _ => hw.a, fun _ => hw.x, fun _ => hw.y, fun _ => hw.sp, fun s f _ => hw.flags s f,
    fun _ => hw.pc, fun _ => hw.store⟩ _ _ _ (exec_next.mp h)

/-- Such a relation holds between the states before and after any step that completes. -/
theorem step_keeps (hR : FrameRel R) (hw : AllKeep R) (h : step s = .next t) : R s t := by
  have hc : R s s.countInstruction := hw.queue s s.pending _
  have hf : fetch.Keeps R := fetch_keeps hR hw.pc hw.halt
  obtain ⟨-, rfl | ⟨-, h1⟩ | ⟨-, i, u, h1, h2⟩ | ⟨c, rest, -, h1⟩⟩ := step_next h
  · exact hR.refl _
  · exact hR.trans hc (hf _ _ _ h1)
  · exact hR.trans hc (hR.trans (hf _ _ _ h1) (exec_keeps hR hw h2))
  · exact hR.trans (hw.queue s rest 0)
      (runCommand_keeps hR hw.store hw.responses hw.reset hw.quit c _ _ _ h1)

end Sys2Proof.Machine
end

