-- ==== Sys2Proof/Laws/Cycles.lean ====
section
/-! SUPPORT. What an instruction adds to the cycle counter, said once. -/

namespace Sys2Proof.Machine

variable {α β : Type} {s t : State}

/-- The action that completes leaves the parameters alone and adds `OP_EXTRA` of the opcode to the counter, or nothing
for none. -/
def Act.Costs (op : Option Byte) (m : Act α) : Prop :=
  ∀ s v t, m s = .ok (v, t) → t.cfg = s.cfg ∧
    t.cycles = match op with
      | none => s.cycles
      | some op => ((s.cycles : Int) + s.cfg.extra op).toNat

theorem costs_bind {op : Option Byte} {m : Act α} {k : α → Act β} (hm : m.Costs none) (hk : ∀ v, (k v).Costs op) :
    (m >>= k).Costs op := by
  intro s w u h
  obtain ⟨v, t, h1, h2⟩ := act_bind_eq_ok.mp h
  obtain ⟨a1, a2⟩ := hm _ _ _ h1
  obtain ⟨b1, b2⟩ := hk v _ _ _ h2
  refine ⟨b1.trans a1, ?_⟩
  cases op <;> simp only [a1, a2] at b2 ⊢ <;> exact b2

theorem costs_extra_bind {op : Byte} {k : Unit → Act β} (hk : ∀ v, (k v).Costs none) :
    (addExtra op >>= k).Costs (some op) := by
  intro s w u h
  obtain ⟨v, t, h1, h2⟩ := act_bind_eq_ok.mp h
  obtain ⟨b1, b2⟩ := hk v _ _ _ h2
  simp only [addExtra, act_update, Except.ok.injEq, Prod.mk.injEq, true_and] at h1
  subst h1
  exact ⟨b1, b2⟩

theorem costs_extra {op : Byte} : (addExtra op).Costs (some op) := by
  intro s w u h
  simp only [addExtra, act_update, Except.ok.injEq, Prod.mk.injEq, true_and] at h
  subst h
  exact ⟨rfl, rfl⟩

theorem costs_pure (v : α) : (pure v : Act α).Costs none := by
  intro s w u h
  simp only [act_pure, Except.ok.injEq, Prod.mk.injEq] at h
  rw [← h.2]
  exact ⟨rfl, rfl⟩

theorem costs_get (f : State → α) : (Act.get f).Costs none := by
  intro s w u h
  simp only [act_get, Except.ok.injEq, Prod.mk.injEq] at h
  rw [← h.2]
  exact ⟨rfl, rfl⟩

theorem costs_update {f : State → State} (h : ∀ s, (f s).cfg = s.cfg ∧ (f s).cycles = s.cycles) :
    (Act.update f).Costs none := by
  intro s w u e
  simp only [act_update, Except.ok.injEq, Prod.mk.injEq] at e
  rw [← e.2]
  exact h s

theorem costs_raise (r : FaultRecord) : (raise r : Act α).Costs none := fun _ _ _ h => absurd h raise_ne_ok

theorem costs_memRead (a : Word) : (memRead a).Costs none := by
  intro s v t h
  have := memRead_onlyBus h
  exact ⟨by rw [this], memRead_cycles h⟩

theorem costs_memWrite (a : Word) (v : Byte) : (memWrite a v).Costs none := by
  intro s w t h
  have := memWrite_ok h
  exact ⟨by rw [this]; simp, by rw [this]; simp⟩

theorem costs_readWord (a : Word) : (readWord a).Costs none :=
  costs_bind (costs_memRead a) fun _ => costs_bind (costs_memRead _) fun _ => costs_pure _

theorem costs_resolve (o : Operand) : (resolve o).Costs none := by
  intro s v t h
  obtain ⟨h1, h2⟩ := resolve_ok h
  exact ⟨by rw [h1], h2⟩

theorem costs_readOperand (o : Operand) (ea : Word) : (readOperand o ea).Costs none := by
  intro s v t h
  obtain ⟨h1, h2⟩ := readOperand_ok h
  exact ⟨by rw [h1], h2⟩

theorem costs_decimalGuard (op : Byte) (o : Operand) : (decimalGuard op o).Costs none :=
  costs_bind (costs_get _) fun f => costs_bind (costs_get _) fun _ => by
    split
    · exact costs_raise _
    · exact costs_pure _

theorem costs_loadOperand (op : Byte) (o : Operand) : (loadOperand op o).Costs (some op) :=
  costs_bind (costs_resolve o) fun _ => costs_extra_bind fun _ => costs_readOperand o _

/-- What comes after the operand load costs nothing. -/
theorem costs_bind_right {op : Byte} {m : Act α} {k : α → Act β} (hm : m.Costs (some op)) (hk : ∀ v, (k v).Costs none) :
    (m >>= k).Costs (some op) := by
  intro s w u h
  obtain ⟨v, t, h1, h2⟩ := act_bind_eq_ok.mp h
  obtain ⟨a1, a2⟩ := hm _ _ _ h1
  obtain ⟨b1, b2⟩ := hk v _ _ _ h2
  exact ⟨b1.trans a1, b2.trans a2⟩

theorem costs_push (v : Byte) : (push v).Costs none :=
  costs_bind (costs_get _) fun _ => costs_bind (costs_memWrite _ v) fun _ => costs_update fun _ => ⟨rfl, rfl⟩

theorem costs_pull : pull.Costs none :=
  costs_bind (costs_get _) fun _ => costs_bind (costs_update fun _ => ⟨rfl, rfl⟩) fun _ => costs_memRead _

theorem costs_pushWord (w : Word) : (pushWord w).Costs none :=
  costs_bind (costs_push _) fun _ => costs_push _

theorem costs_pullWord : pullWord.Costs none :=
  costs_bind costs_pull fun _ => costs_bind costs_pull fun _ => costs_pure _

theorem costs_setPc (v : Word) : (setPc v).Costs none := costs_update fun _ => ⟨rfl, rfl⟩

theorem costs_setFlags (f : Flags) : (setFlags f).Costs none := costs_update fun _ => ⟨rfl, rfl⟩

theorem costs_enterTrap (w : Word) : (enterTrap w).Costs none :=
  costs_bind (costs_pushWord w) fun _ => costs_bind (costs_get _) fun _ => costs_bind (costs_push _) fun _ =>
    costs_bind (costs_get _) fun _ => costs_bind (costs_setFlags _) fun _ => costs_bind (costs_readWord _) fun _ =>
      costs_setPc _

theorem costs_returnFromTrap : returnFromTrap.Costs none :=
  costs_bind costs_pull fun _ => costs_bind (costs_setFlags _) fun _ => costs_bind costs_pullWord fun _ => costs_setPc _

/-- Every meaning but a branch's adds `OP_EXTRA` of its opcode and nothing else. -/
theorem instrAction_costs {i : Instr} (hb : i.mnemonic ∉ [.bcc, .bcs, .beq, .bmi, .bne, .bpl, .bvc, .bvs]) :
    (instrAction i).Costs (some i.opcode) := by
  have arith : ∀ (op : Byte) (o : Operand) (k : Byte → Act Unit), (∀ m, (k m).Costs none) →
      (resolve o >>= fun ea => decimalGuard op o >>= fun _ => addExtra op >>= fun _ => readOperand o ea >>= k).Costs
        (some op) := fun op o k hk =>
    costs_bind (costs_resolve o) fun ea => costs_bind (costs_decimalGuard op o) fun _ => costs_extra_bind fun _ =>
      costs_bind (costs_readOperand o ea) hk
  have up : ∀ (k : State → State → State), (∀ s' s, (k s' s).cfg = s.cfg ∧ (k s' s).cycles = s.cycles) →
      (Act.get id >>= fun s' => Act.update (k s')).Costs none :=
    fun k hk => costs_bind (costs_get _) fun s' => costs_update (hk s')
  unfold instrAction
  split
  all_goals try have hm := ‹i.mnemonic = _›
  iterate 2 exact arith _ _ _ fun m => up _ fun _ _ => ⟨rfl, rfl⟩
  iterate 7 exact costs_bind_right (costs_loadOperand _ _) fun m => up _ fun _ _ => ⟨rfl, rfl⟩
  iterate 3
    exact costs_bind_right (costs_loadOperand _ _) fun m =>
      costs_bind (costs_get _) fun f => costs_update fun _ => ⟨rfl, rfl⟩
  iterate 3
    exact costs_bind (costs_get _) fun v => costs_bind (costs_resolve _) fun ea => costs_extra_bind fun _ =>
      costs_memWrite ea v
  iterate 6
    exact costs_bind (costs_resolve _) fun ea => costs_extra_bind fun _ => costs_bind (costs_memRead ea) fun m =>
      costs_bind (costs_get _) fun f => costs_bind (costs_setFlags _) fun _ => costs_memWrite ea _
  iterate 13 exact costs_extra_bind fun _ => up _ fun _ _ => ⟨rfl, rfl⟩
  · exact costs_extra_bind fun _ => costs_bind (costs_get _) fun _ => costs_update fun _ => ⟨rfl, rfl⟩
  iterate 2 exact costs_extra_bind fun _ => costs_bind (costs_get _) fun v => costs_push v
  · exact costs_extra_bind fun _ => costs_bind costs_pull fun m =>
      costs_bind (costs_get _) fun f => costs_update fun _ => ⟨rfl, rfl⟩
  · exact costs_extra_bind fun _ => costs_bind costs_pull fun m => costs_setFlags _
  iterate 8 exact absurd hb (by simp [hm])
  · exact costs_bind (costs_resolve _) fun ea => costs_extra_bind fun _ => costs_setPc ea
  · exact costs_bind (costs_resolve _) fun ea => costs_extra_bind fun _ => costs_bind (costs_get _) fun pc =>
      costs_bind (costs_pushWord _) fun _ => costs_setPc ea
  · exact costs_extra_bind fun _ => costs_bind costs_pullWord fun w => costs_setPc _
  · exact costs_extra_bind fun _ => costs_bind (costs_get _) fun pc => costs_enterTrap _
  · exact costs_extra_bind fun _ => costs_returnFromTrap
  iterate 7 exact costs_extra_bind fun _ => costs_update fun _ => ⟨rfl, rfl⟩
  · exact costs_extra

/-- A branch: `OP_EXTRA`, and where it is taken one cycle more and PC. -/
theorem branch_eq (cond : Flags → Bool) (op off : Byte) (s : State) :
    branch cond op off s = .ok ((), if cond s.flags then
      { (s.plusCycles (s.cfg.extra op)).plusCycles 1 with pc := s.pc + sext off }
      else s.plusCycles (s.cfg.extra op)) := by
  have hr : resolve (.rel off) s = .ok (s.pc + sext off, s) := rfl
  rw [branch, act_bind_ok hr, act_bind_ok (t := s.plusCycles (s.cfg.extra op)) rfl, act_bind_ok (act_get _)]
  rw [plusCycles_flags]
  cases cond s.flags <;> rfl

/-- The branches by mnemonic. -/
theorem exec_branch {i : Instr} {off : Byte} (ho : i.operand = some (.rel off)) (s : State) :
    exec i s = .next (if branchTaken i.mnemonic s.flags then
      { (s.plusCycles (s.cfg.extra i.opcode)).plusCycles 1 with pc := s.pc + sext off }
      else s.plusCycles (s.cfg.extra i.opcode)) := by
  rw [exec_next]
  cases i <;> cases ho <;> exact branch_eq _ _ _ s

/-- A branch has a relative operand. -/
theorem branch_operand {i : Instr} (h : i.mnemonic ∈ [.bcc, .bcs, .beq, .bmi, .bne, .bpl, .bvc, .bvs]) :
    ∃ off, i.operand = some (.rel off) := by
  cases i <;> first | exact ⟨_, rfl⟩ | (simp [Instr.mnemonic] at h)

/-- Every meaning leaves the parameters alone and adds `OP_EXTRA`, and a taken branch one cycle more. -/
theorem exec_cycles {i : Instr} (h : exec i s = .next t) :
    t.cfg = s.cfg ∧
    t.cycles = ((s.cycles : Int) + s.cfg.extra i.opcode).toNat + (branchTaken i.mnemonic s.flags).toNat := by
  by_cases hb : i.mnemonic ∈ [.bcc, .bcs, .beq, .bmi, .bne, .bpl, .bvc, .bvs]
  · obtain ⟨off, ho⟩ := branch_operand hb
    rw [exec_branch ho, Host.Outcome.next.injEq] at h
    rw [← h]
    cases branchTaken i.mnemonic s.flags
    · exact ⟨rfl, rfl⟩
    · refine ⟨rfl, ?_⟩
      simp only [if_true, plusCycles_cycles, Bool.toNat_true]
      omega
  · have hn : branchTaken i.mnemonic s.flags = false := by
      revert hb
      cases i.mnemonic <;> simp [branchTaken]
    simpa [hn] using instrAction_costs hb _ _ _ (exec_next.mp h)

end Sys2Proof.Machine
end

