-- ==== Sys2Proof/Laws/Decimal.lean ====
section
/-! SUPPORT. Where the decimal-mode fault does not come from: no access, no resolver, and no meaning but ADC's and
SBC's. -/

namespace Sys2Proof.Machine

variable {α β : Type}

/-- The action never raises the decimal-mode fault. -/
structure Act.NeverDecimal (m : Act α) : Prop where
  not_error : ∀ s a0 op t, m s ≠ .error (.decimalMode a0 op t)

theorem neverDecimal_bind {m : Act α} {k : α → Act β} (hm : m.NeverDecimal) (hk : ∀ v, (k v).NeverDecimal) :
    (m >>= k).NeverDecimal := by
  refine ⟨fun s a0 op t h => ?_⟩
  rcases act_bind_eq_error.mp h with h | ⟨v, u, -, h⟩
  · exact hm.not_error _ _ _ _ h
  · exact (hk v).not_error _ _ _ _ h

theorem neverDecimal_pure (v : α) : (pure v : Act α).NeverDecimal := ⟨fun _ _ _ _ h => by cases h⟩

theorem neverDecimal_get (f : State → α) : (Act.get f).NeverDecimal := ⟨fun _ _ _ _ h => by cases h⟩

theorem neverDecimal_update (f : State → State) : (Act.update f).NeverDecimal := ⟨fun _ _ _ _ h => by cases h⟩

theorem neverDecimal_memRead (a : Word) : (memRead a).NeverDecimal := by
  refine ⟨fun s a0 op t h => ?_⟩
  unfold memRead at h
  split at h
  · cases h
  · cases h
  · exact absurd (exchange_error h) (by simp)
  · simp [raise, FaultRecord.toFault] at h

theorem neverDecimal_memWrite (a : Word) (v : Byte) : (memWrite a v).NeverDecimal := by
  refine ⟨fun s a0 op t h => ?_⟩
  unfold memWrite at h
  split_ifs at h with h1 h2
  · simp [raise, FaultRecord.toFault] at h
  · cases hx : exchange (writeFrame s.cycles a v) (s.storeRam a v) with
    | ok p => rw [hx] at h; cases h
    | error r =>
      rw [hx, Except.error.injEq] at h
      exact absurd (h.symm.trans (exchange_error hx)) (by simp)

theorem neverDecimal_resolve (o : Operand) : (resolve o).NeverDecimal := by
  unfold resolve readWordBug
  repeat' first
    | with_reducible exact neverDecimal_pure _
    | with_reducible exact neverDecimal_get _
    | with_reducible exact neverDecimal_memRead _
    | with_reducible apply neverDecimal_bind
    | intro _
    | split

theorem neverDecimal_loadOperand (op : Byte) (o : Operand) : (loadOperand op o).NeverDecimal :=
  neverDecimal_bind (neverDecimal_resolve o) fun _ => neverDecimal_bind (neverDecimal_update _) fun _ =>
    neverDecimal_bind (neverDecimal_memRead _) fun _ => by cases o <;> exact neverDecimal_pure _

theorem instrAction_neverDecimal {i : Instr} (h1 : i.mnemonic ≠ .adc) (h2 : i.mnemonic ≠ .sbc) :
    (instrAction i).NeverDecimal := by
  unfold instrAction
  split
  · contradiction
  · contradiction
  all_goals
    try simp only [logic, Machine.compare, bitTest, lda, ldx, ldy, Machine.store, storeOperand, modifyOperand, shiftA,
      modifyX, modifyY, transferToA, transferToX, transferToY, txs, pushByte, pla, plp, branch, jump, callSubroutine,
      returnFromSubroutine, softwareBreak, returnFromBreak, enterTrap, returnFromTrap, flagOp, noOperation, push, pull,
      pushWord, pullWord, readWord, addExtra, addCycles, setSp, setPc, setFlags, setAWith, setXWith, setYWith,
      changeFlags]
  all_goals
    repeat' first
      | with_reducible exact neverDecimal_pure _
      | with_reducible exact neverDecimal_get _
      | with_reducible exact neverDecimal_update _
      | with_reducible exact neverDecimal_memRead _
      | with_reducible exact neverDecimal_memWrite _ _
      | with_reducible exact neverDecimal_resolve _
      | with_reducible exact neverDecimal_loadOperand _ _
      | with_reducible apply neverDecimal_bind
      | intro _
      | split

end Sys2Proof.Machine
end

