-- ==== Sys2Proof/Laws/Host.lean ====
section
/-! SUPPORT. The host's block accesses as runs of single accesses, and what construction leaves in memory. -/

namespace Sys2Proof.Machine

/-- A block read is one `MemRead` after another. -/
theorem readAll_eq_mapM (l : List Word) : readAll l = l.mapM memRead := by
  induction l with
  | nil => rfl
  | cons a rest ih => rw [readAll, ih, List.mapM_cons]

/-- The addresses of a block are distinct steps from its first. -/
theorem addressesFrom_succ (a : Word) (n : Nat) : addressesFrom a (n + 1) = a :: addressesFrom (a + 1) n := by
  rw [addressesFrom, List.range_succ_eq_map, List.map_cons, List.map_map, addressesFrom]
  refine congrArg₂ _ (BitVec.add_zero a) (List.map_congr_left fun k _ => ?_)
  simp only [Function.comp, BitVec.ofNat_add, Nat.succ_eq_add_one]
  ac_rfl

/-- A block write is one `MemWrite` after another, at the byte's own place after the first address. -/
theorem writeAll_eq_forM (a : Word) (bytes : List Byte) (k : Nat) :
    writeAll (a + BitVec.ofNat 16 k) bytes =
      (bytes.zipIdx k).forM fun p => memWrite (a + BitVec.ofNat 16 p.2) p.1 := by
  induction bytes generalizing k with
  | nil => rfl
  | cons b rest ih =>
    have e : a + BitVec.ofNat 16 k + 1 = a + BitVec.ofNat 16 (k + 1) := by
      rw [BitVec.ofNat_add, BitVec.add_assoc]
      rfl
    rw [writeAll, List.zipIdx_cons, List.forM, e, ih (k + 1)]

/-- What construction puts in memory: each window holds its image, zero past the image's end (R300; log 4, log 5). -/
theorem construct_memory {cfg : Config} (h : cfg.wf = true) (ram rom : List Byte) :
    let mem := Memory.load (Memory.load [] cfg.romBase (rom.take cfg.romSize)) cfg.ramBase (ram.take cfg.ramSize)
    (∀ k < cfg.ramSize, Memory.read mem (cfg.ramBase + k) = (ram[k]?).getD 0) ∧
    (∀ k < cfg.romSize, Memory.read mem (cfg.romBase + k) = (rom[k]?).getD 0) := by
  simp only [Config.wf, Config.ramBelowRom, Config.romFits, Bool.and_eq_true, decide_eq_true_eq] at h
  have hrom : (rom.take cfg.romSize).length ≤ cfg.romSize := List.length_take_le _ _
  have hram : (ram.take cfg.ramSize).length ≤ cfg.ramSize := List.length_take_le _ _
  have hw : Memory.wf (Memory.load [] cfg.romBase (rom.take cfg.romSize)) = true :=
    memory_wf_load rfl _ _ (by omega)
  refine ⟨fun k hk => ?_, fun k hk => ?_⟩
  · rw [memory_read_load hw (by omega), memory_read_load_outside (.inl (by omega)), List.getElem?_take_of_lt hk]
    rfl
  · rw [memory_read_load_outside (.inr (by omega)), memory_read_load rfl (by omega), List.getElem?_take_of_lt hk]
    rfl

end Sys2Proof.Machine
end

