-- ==== Sys2Proof/Laws/PerInstr.lean ====
section
/-! SUPPORT. Statements about every instruction as syntax, one lemma per constructor. -/

namespace Sys2Proof.Laws.FormListed

/-- The instruction's form is one the opcode map lists (30_encoding.md R95). -/
def Statement (i : Instr) : Prop :=
  i.wf = true

theorem adcImm (v : Byte) : Statement (.adcImm v) := rfl
theorem adcZp (b : Byte) : Statement (.adcZp b) := rfl
theorem adcZpx (b : Byte) : Statement (.adcZpx b) := rfl
theorem adcAbs (w : Word) : Statement (.adcAbs w) := rfl
theorem adcAbsx (w : Word) : Statement (.adcAbsx w) := rfl
theorem adcAbsy (w : Word) : Statement (.adcAbsy w) := rfl
theorem adcIndx (b : Byte) : Statement (.adcIndx b) := rfl
theorem adcIndy (b : Byte) : Statement (.adcIndy b) := rfl
theorem sbcImm (v : Byte) : Statement (.sbcImm v) := rfl
theorem sbcZp (b : Byte) : Statement (.sbcZp b) := rfl
theorem sbcZpx (b : Byte) : Statement (.sbcZpx b) := rfl
theorem sbcAbs (w : Word) : Statement (.sbcAbs w) := rfl
theorem sbcAbsx (w : Word) : Statement (.sbcAbsx w) := rfl
theorem sbcAbsy (w : Word) : Statement (.sbcAbsy w) := rfl
theorem sbcIndx (b : Byte) : Statement (.sbcIndx b) := rfl
theorem sbcIndy (b : Byte) : Statement (.sbcIndy b) := rfl
theorem andImm (v : Byte) : Statement (.andImm v) := rfl
theorem andZp (b : Byte) : Statement (.andZp b) := rfl
theorem andZpx (b : Byte) : Statement (.andZpx b) := rfl
theorem andAbs (w : Word) : Statement (.andAbs w) := rfl
theorem andAbsx (w : Word) : Statement (.andAbsx w) := rfl
theorem andAbsy (w : Word) : Statement (.andAbsy w) := rfl
theorem andIndx (b : Byte) : Statement (.andIndx b) := rfl
theorem andIndy (b : Byte) : Statement (.andIndy b) := rfl
theorem oraImm (v : Byte) : Statement (.oraImm v) := rfl
theorem oraZp (b : Byte) : Statement (.oraZp b) := rfl
theorem oraZpx (b : Byte) : Statement (.oraZpx b) := rfl
theorem oraAbs (w : Word) : Statement (.oraAbs w) := rfl
theorem oraAbsx (w : Word) : Statement (.oraAbsx w) := rfl
theorem oraAbsy (w : Word) : Statement (.oraAbsy w) := rfl
theorem oraIndx (b : Byte) : Statement (.oraIndx b) := rfl
theorem oraIndy (b : Byte) : Statement (.oraIndy b) := rfl
theorem eorImm (v : Byte) : Statement (.eorImm v) := rfl
theorem eorZp (b : Byte) : Statement (.eorZp b) := rfl
theorem eorZpx (b : Byte) : Statement (.eorZpx b) := rfl
theorem eorAbs (w : Word) : Statement (.eorAbs w) := rfl
theorem eorAbsx (w : Word) : Statement (.eorAbsx w) := rfl
theorem eorAbsy (w : Word) : Statement (.eorAbsy w) := rfl
theorem eorIndx (b : Byte) : Statement (.eorIndx b) := rfl
theorem eorIndy (b : Byte) : Statement (.eorIndy b) := rfl
theorem cmpImm (v : Byte) : Statement (.cmpImm v) := rfl
theorem cmpZp (b : Byte) : Statement (.cmpZp b) := rfl
theorem cmpZpx (b : Byte) : Statement (.cmpZpx b) := rfl
theorem cmpAbs (w : Word) : Statement (.cmpAbs w) := rfl
theorem cmpAbsx (w : Word) : Statement (.cmpAbsx w) := rfl
theorem cmpAbsy (w : Word) : Statement (.cmpAbsy w) := rfl
theorem cmpIndx (b : Byte) : Statement (.cmpIndx b) := rfl
theorem cmpIndy (b : Byte) : Statement (.cmpIndy b) := rfl
theorem cpxImm (v : Byte) : Statement (.cpxImm v) := rfl
theorem cpxZp (b : Byte) : Statement (.cpxZp b) := rfl
theorem cpxAbs (w : Word) : Statement (.cpxAbs w) := rfl
theorem cpyImm (v : Byte) : Statement (.cpyImm v) := rfl
theorem cpyZp (b : Byte) : Statement (.cpyZp b) := rfl
theorem cpyAbs (w : Word) : Statement (.cpyAbs w) := rfl
theorem bitZp (b : Byte) : Statement (.bitZp b) := rfl
theorem bitAbs (w : Word) : Statement (.bitAbs w) := rfl
theorem ldaImm (v : Byte) : Statement (.ldaImm v) := rfl
theorem ldaZp (b : Byte) : Statement (.ldaZp b) := rfl
theorem ldaZpx (b : Byte) : Statement (.ldaZpx b) := rfl
theorem ldaAbs (w : Word) : Statement (.ldaAbs w) := rfl
theorem ldaAbsx (w : Word) : Statement (.ldaAbsx w) := rfl
theorem ldaAbsy (w : Word) : Statement (.ldaAbsy w) := rfl
theorem ldaIndx (b : Byte) : Statement (.ldaIndx b) := rfl
theorem ldaIndy (b : Byte) : Statement (.ldaIndy b) := rfl
theorem ldxImm (v : Byte) : Statement (.ldxImm v) := rfl
theorem ldxZp (b : Byte) : Statement (.ldxZp b) := rfl
theorem ldxZpy (b : Byte) : Statement (.ldxZpy b) := rfl
theorem ldxAbs (w : Word) : Statement (.ldxAbs w) := rfl
theorem ldxAbsy (w : Word) : Statement (.ldxAbsy w) := rfl
theorem ldyImm (v : Byte) : Statement (.ldyImm v) := rfl
theorem ldyZp (b : Byte) : Statement (.ldyZp b) := rfl
theorem ldyZpx (b : Byte) : Statement (.ldyZpx b) := rfl
theorem ldyAbs (w : Word) : Statement (.ldyAbs w) := rfl
theorem ldyAbsx (w : Word) : Statement (.ldyAbsx w) := rfl
theorem staZp (b : Byte) : Statement (.staZp b) := rfl
theorem staZpx (b : Byte) : Statement (.staZpx b) := rfl
theorem staAbs (w : Word) : Statement (.staAbs w) := rfl
theorem staAbsx (w : Word) : Statement (.staAbsx w) := rfl
theorem staAbsy (w : Word) : Statement (.staAbsy w) := rfl
theorem staIndx (b : Byte) : Statement (.staIndx b) := rfl
theorem staIndy (b : Byte) : Statement (.staIndy b) := rfl
theorem stxZp (b : Byte) : Statement (.stxZp b) := rfl
theorem stxZpy (b : Byte) : Statement (.stxZpy b) := rfl
theorem stxAbs (w : Word) : Statement (.stxAbs w) := rfl
theorem styZp (b : Byte) : Statement (.styZp b) := rfl
theorem styZpx (b : Byte) : Statement (.styZpx b) := rfl
theorem styAbs (w : Word) : Statement (.styAbs w) := rfl
theorem aslAcc : Statement (.aslAcc) := rfl
theorem aslZp (b : Byte) : Statement (.aslZp b) := rfl
theorem aslZpx (b : Byte) : Statement (.aslZpx b) := rfl
theorem aslAbs (w : Word) : Statement (.aslAbs w) := rfl
theorem aslAbsx (w : Word) : Statement (.aslAbsx w) := rfl
theorem lsrAcc : Statement (.lsrAcc) := rfl
theorem lsrZp (b : Byte) : Statement (.lsrZp b) := rfl
theorem lsrZpx (b : Byte) : Statement (.lsrZpx b) := rfl
theorem lsrAbs (w : Word) : Statement (.lsrAbs w) := rfl
theorem lsrAbsx (w : Word) : Statement (.lsrAbsx w) := rfl
theorem rolAcc : Statement (.rolAcc) := rfl
theorem rolZp (b : Byte) : Statement (.rolZp b) := rfl
theorem rolZpx (b : Byte) : Statement (.rolZpx b) := rfl
theorem rolAbs (w : Word) : Statement (.rolAbs w) := rfl
theorem rolAbsx (w : Word) : Statement (.rolAbsx w) := rfl
theorem rorAcc : Statement (.rorAcc) := rfl
theorem rorZp (b : Byte) : Statement (.rorZp b) := rfl
theorem rorZpx (b : Byte) : Statement (.rorZpx b) := rfl
theorem rorAbs (w : Word) : Statement (.rorAbs w) := rfl
theorem rorAbsx (w : Word) : Statement (.rorAbsx w) := rfl
theorem incZp (b : Byte) : Statement (.incZp b) := rfl
theorem incZpx (b : Byte) : Statement (.incZpx b) := rfl
theorem incAbs (w : Word) : Statement (.incAbs w) := rfl
theorem incAbsx (w : Word) : Statement (.incAbsx w) := rfl
theorem decZp (b : Byte) : Statement (.decZp b) := rfl
theorem decZpx (b : Byte) : Statement (.decZpx b) := rfl
theorem decAbs (w : Word) : Statement (.decAbs w) := rfl
theorem decAbsx (w : Word) : Statement (.decAbsx w) := rfl
theorem inx : Statement (.inx) := rfl
theorem iny : Statement (.iny) := rfl
theorem dex : Statement (.dex) := rfl
theorem dey : Statement (.dey) := rfl
theorem tax : Statement (.tax) := rfl
theorem tay : Statement (.tay) := rfl
theorem txa : Statement (.txa) := rfl
theorem tya : Statement (.tya) := rfl
theorem tsx : Statement (.tsx) := rfl
theorem txs : Statement (.txs) := rfl
theorem pha : Statement (.pha) := rfl
theorem php : Statement (.php) := rfl
theorem pla : Statement (.pla) := rfl
theorem plp : Statement (.plp) := rfl
theorem bcc (o : Byte) : Statement (.bcc o) := rfl
theorem bcs (o : Byte) : Statement (.bcs o) := rfl
theorem beq (o : Byte) : Statement (.beq o) := rfl
theorem bmi (o : Byte) : Statement (.bmi o) := rfl
theorem bne (o : Byte) : Statement (.bne o) := rfl
theorem bpl (o : Byte) : Statement (.bpl o) := rfl
theorem bvc (o : Byte) : Statement (.bvc o) := rfl
theorem bvs (o : Byte) : Statement (.bvs o) := rfl
theorem jmpAbs (w : Word) : Statement (.jmpAbs w) := rfl
theorem jmpInd (p : Word) : Statement (.jmpInd p) := rfl
theorem jsr (w : Word) : Statement (.jsr w) := rfl
theorem rts : Statement (.rts) := rfl
theorem brk : Statement (.brk) := rfl
theorem rti : Statement (.rti) := rfl
theorem clc : Statement (.clc) := rfl
theorem cld : Statement (.cld) := rfl
theorem cli : Statement (.cli) := rfl
theorem clv : Statement (.clv) := rfl
theorem sec : Statement (.sec) := rfl
theorem sed : Statement (.sed) := rfl
theorem sei : Statement (.sei) := rfl
theorem nop : Statement (.nop) := rfl

end Sys2Proof.Laws.FormListed
end

