-- ==== Sys2Proof/Laws/Resolve.lean ====
section
/-! SUPPORT. The resolver comes first: whatever its accesses sent is in the trace of the state an instruction leaves, and
in that of the fault it stops with. -/

namespace Sys2Proof.Machine

/-- The action runs the resolver of `o` before any other access: whatever the resolver's accesses sent is in the trace the
action leaves, and in that of the fault it stops with. -/
def Act.Resolves {α : Type} (o : Operand) (m : Act α) : Prop :=
  ∀ s ea v, resolve o s = .ok (ea, v) →
    (∀ w t, m s = .ok (w, t) → v.trace <+: t.trace) ∧
    (∀ e, m s = .error e → ∃ r t, e = FaultRecord.toFault r t ∧ t.fault = some r ∧ v.trace <+: t.trace)

theorem resolves_bind {α β : Type} {o : Operand} {m : Act α} {k : α → Act β} (hm : m.Resolves o)
    (hk : ∀ v, (k v).Traced) : (m >>= k).Resolves o := by
  refine fun s ea v hv => ⟨fun w t h => ?_, fun e h => ?_⟩
  · obtain ⟨x, u, h1, h2⟩ := act_bind_eq_ok.mp h
    exact ((hm s ea v hv).1 x u h1).trans ((hk x).grows _ _ _ h2)
  · rcases act_bind_eq_error.mp h with h1 | ⟨x, u, h1, h2⟩
    · exact (hm s ea v hv).2 e h1
    · obtain ⟨r, t, he, hf, hp⟩ := (hk x).records _ _ h2
      exact ⟨r, t, he, hf, ((hm s ea v hv).1 x u h1).trans hp⟩

theorem resolves_get_bind {α β : Type} {o : Operand} {f : State → α} {k : α → Act β} (hk : ∀ v, (k v).Resolves o) :
    (Act.get f >>= k).Resolves o := fun s => hk (f s) s

theorem resolves_resolve (o : Operand) : (resolve o).Resolves o := by
  refine fun s ea v hv => ⟨fun w t h => ?_, fun e h => ?_⟩ <;> rw [hv] at h
  · simp only [Except.ok.injEq, Prod.mk.injEq] at h
    rw [h.2]
  · cases h

section resolves

variable (op : Byte) (o : Operand)

theorem traced_addExtra : (addExtra op).Traced := traced_update fun _ => rfl

theorem traced_readOperand (ea : Word) : (readOperand o ea).Traced :=
  traced_bind (traced_memRead ea) fun _ => by cases o <;> exact traced_pure _

theorem traced_decimalGuard : (decimalGuard op o).Traced := by
  refine traced_bind (traced_get _) fun f => traced_bind (traced_get _) fun _ => ?_
  split
  · exact traced_raise _
  · exact traced_pure _

theorem traced_push (v : Byte) : (push v).Traced :=
  traced_bind (traced_get _) fun _ => traced_bind (traced_memWrite _ _) fun _ => traced_update fun _ => rfl

/-- An action that starts with the resolver. -/
theorem resolves_first {α : Type} {k : Word → Act α} (hk : ∀ ea, (k ea).Traced) : (resolve o >>= k).Resolves o :=
  resolves_bind (resolves_resolve o) hk

theorem resolves_loadOperand : (loadOperand op o).Resolves o :=
  resolves_first o fun _ => traced_bind (traced_addExtra op) fun _ => traced_readOperand o _

/-- An operand load, and then register and flag writes computed from the state. -/
theorem resolves_load_update {α : Type} (f : State → α) (g : Byte → α → State → State)
    (hg : ∀ m a s, (g m a s).trace = s.trace) :
    (loadOperand op o >>= fun m => Act.get f >>= fun a => Act.update (g m a)).Resolves o :=
  resolves_bind (resolves_loadOperand op o) fun m => traced_bind (traced_get f) fun a => traced_update (hg m a)

/-- The guard, the operand, and then register and flag writes: ADC and SBC. -/
theorem resolves_guarded (g : Byte → State → State → State) (hg : ∀ m a s, (g m a s).trace = s.trace) :
    (resolve o >>= fun ea => decimalGuard op o >>= fun _ => addExtra op >>= fun _ => readOperand o ea >>= fun m =>
      Act.get id >>= fun a => Act.update (g m a)).Resolves o :=
  resolves_first o fun ea => traced_bind (traced_decimalGuard op o) fun _ => traced_bind (traced_addExtra op) fun _ =>
    traced_bind (traced_readOperand o ea) fun m => traced_bind (traced_get id) fun a => traced_update (hg m a)

theorem resolves_adc : (adc op o).Resolves o := resolves_guarded op o _ fun _ _ _ => rfl

theorem resolves_sbc : (sbc op o).Resolves o := resolves_guarded op o _ fun _ _ _ => rfl

theorem resolves_logic (f : Byte → Byte → Byte) : (logic f op o).Resolves o :=
  resolves_load_update op o id _ fun _ _ _ => rfl

theorem resolves_compare (reg : State → Byte) : (Machine.compare reg op o).Resolves o :=
  resolves_load_update op o id _ fun _ _ _ => rfl

theorem resolves_bitTest : (bitTest op o).Resolves o := resolves_load_update op o id _ fun _ _ _ => rfl

theorem resolves_lda : (lda op o).Resolves o := resolves_load_update op o State.flags _ fun _ _ _ => rfl

theorem resolves_ldx : (ldx op o).Resolves o := resolves_load_update op o State.flags _ fun _ _ _ => rfl

theorem resolves_ldy : (ldy op o).Resolves o := resolves_load_update op o State.flags _ fun _ _ _ => rfl

theorem resolves_store (reg : State → Byte) : (Machine.store reg op o).Resolves o :=
  resolves_get_bind fun _ => resolves_first o fun _ => traced_bind (traced_addExtra op) fun _ => traced_memWrite _ _

theorem resolves_modifyOperand (f : Byte → Flags → Byte × Flags) : (modifyOperand op o f).Resolves o :=
  resolves_first o fun _ => traced_bind (traced_addExtra op) fun _ => traced_bind (traced_memRead _) fun _ =>
    traced_bind (traced_get _) fun _ => traced_bind (traced_update fun _ => rfl) fun _ => traced_memWrite _ _

theorem resolves_jump : (jump op o).Resolves o :=
  resolves_first o fun _ => traced_bind (traced_addExtra op) fun _ => traced_update fun _ => rfl

theorem resolves_branch (cond : Flags → Bool) (off : Byte) : (branch cond op off).Resolves (.rel off) := by
  refine resolves_first _ fun _ => traced_bind (traced_addExtra op) fun _ => traced_bind (traced_get _) fun f => ?_
  split
  · exact traced_bind (traced_update fun _ => rfl) fun _ => traced_update fun _ => rfl
  · exact traced_pure _

theorem resolves_callSubroutine : (callSubroutine op o).Resolves o :=
  resolves_first o fun _ => traced_bind (traced_addExtra op) fun _ => traced_bind (traced_get _) fun _ =>
    traced_bind (traced_bind (traced_push _) fun _ => traced_push _) fun _ => traced_update fun _ => rfl

end resolves

/-- A meaning with an operand runs its resolver before any other access. -/
theorem instrAction_resolves {i : Instr} {o : Operand} (ho : i.operand = some o) : (instrAction i).Resolves o := by
  cases i <;> simp only [Instr.operand, Option.some.injEq, reduceCtorEq] at ho <;> subst ho <;>
    simp only [instrAction, Instr.mnemonic, Instr.operand]
  all_goals
    with_reducible first
      | exact resolves_adc _ _
      | exact resolves_sbc _ _
      | exact resolves_logic _ _ _
      | exact resolves_compare _ _ _
      | exact resolves_bitTest _ _
      | exact resolves_lda _ _
      | exact resolves_ldx _ _
      | exact resolves_ldy _ _
      | exact resolves_store _ _ _
      | exact resolves_modifyOperand _ _ _
      | exact resolves_branch _ _ _
      | exact resolves_jump _ _
      | exact resolves_callSubroutine _ _

end Sys2Proof.Machine
end

