-- ==== Sys2Proof/Laws/Stack.lean ====
section
/-! SUPPORT. The stack where its page is RAM and not forwarded: every push and pull completes, and what it leaves. -/

namespace Sys2Proof.Machine

variable {s : State}

/-- Whether the stack page is RAM depends on the parameters alone. -/
theorem stackIsRam_congr {t : State} (hs : s.StackIsRam) (h : t.cfg = s.cfg) : t.StackIsRam := by
  intro sp
  rw [h]
  exact hs sp

theorem toNat_stackAddress (sp : Byte) : (stackAddress sp).toNat = 0x100 + sp.toNat := by
  have := sp.isLt
  have hb : BitVec.toNat (0x0100 : Word) = 0x100 := rfl
  rw [stackAddress, BitVec.toNat_add, BitVec.toNat_setWidth, hb]
  omega

/-- Different values of SP designate different bytes. -/
theorem stackAddress_ne {p q : Byte} (h : p ≠ q) : (stackAddress p).toNat ≠ (stackAddress q).toNat := by
  intro e
  rw [toNat_stackAddress, toNat_stackAddress] at e
  exact h (BitVec.eq_of_toNat_eq (by omega))

theorem push_ram (hs : s.StackIsRam) (v : Byte) :
    push v s =
      .ok ((), { s with mem := Memory.write s.mem (stackAddress s.sp).toNat v, sp := s.sp - 1 }) :=
  push_eq_ok.mpr ⟨_, memWrite_ram (hs s.sp).1 (hs s.sp).2, rfl⟩

theorem pull_ram (hs : s.StackIsRam) :
    pull s = .ok (s.byteAt (stackAddress (s.sp + 1)), { s with sp := s.sp + 1 }) := by
  rw [pull_eq, memRead_plain]
  · rfl
  · exact (plain_iff _).mpr (.inl (hs (s.sp + 1)).1)

theorem pushWord_ram (hs : s.StackIsRam) (w : Word) :
    pushWord w s = .ok ((), { s with
      mem := Memory.write (Memory.write s.mem (stackAddress s.sp).toNat (hiByte w)) (stackAddress (s.sp - 1)).toNat
        (loByte w)
      sp := s.sp - 1 - 1 }) :=
  pushWord_eq_ok.mpr ⟨_, push_ram hs _,
    push_ram (s := { s with mem := Memory.write s.mem (stackAddress s.sp).toNat (hiByte w), sp := s.sp - 1 }) hs _⟩

theorem pullWord_ram (hs : s.StackIsRam) :
    pullWord s = .ok (word (s.byteAt (stackAddress (s.sp + 1))) (s.byteAt (stackAddress (s.sp + 1 + 1))),
      { s with sp := s.sp + 1 + 1 }) :=
  pullWord_eq_ok.mpr ⟨_, _, _, pull_ram hs, pull_ram (s := { s with sp := s.sp + 1 }) hs, rfl⟩

end Sys2Proof.Machine
end

