-- ==== Sys2Proof/Tests/Slice0.lean ====
section
/-! SUPPORT. The model's own tests: ill-formed terms that the checks refuse, one word of each opcode decoded, steps whose
results are the vectors of 95_test_vectors.md, and for every statement with hypotheses a state that meets them. -/

namespace Sys2Proof.Tests

open Machine

/-! ### Ill-formed terms -/

/-- STA has no immediate form, and BIT no indexed one (30_encoding.md R95). -/
theorem test_form_refused :
    formExists .sta .imm = false ∧ formExists .bit .zpx = false ∧ formExists .jmp .rel = false := by decide

theorem test_form_listed : formExists .sta .indy = true ∧ (Instr.staIndy 0x20).wf = true := by decide

/-- RAM that runs into the ROM (00_scope.md R9). -/
theorem test_config_ram_overlaps_rom :
    Config.ramBelowRom { Config.reference with ramSize := 0xD001 } = false ∧
    Config.wf { Config.reference with ramSize := 0xD001 } = false := by decide

/-- A ROM that runs past the address space (R9). -/
theorem test_config_rom_too_long :
    Config.romFits { Config.reference with romSize := 0x3001 } = false ∧
    Config.wf { Config.reference with romSize := 0x3001 } = false := by decide

/-- An empty batch (R9). -/
theorem test_config_no_batch :
    Config.batchPositive { Config.reference with batch := 0 } = false ∧
    Config.wf { Config.reference with batch := 0 } = false := by decide

/-- A ROM image of another size (R9). -/
theorem test_config_rom_image : Config.romImageFits Config.reference [0x00, 0x01] = false := by decide

theorem test_config_reference : Config.wf Config.reference = true := by decide

/-- A memory list out of order, and one that lists an unlisted address's value. -/
theorem test_memory_not_canonical :
    Memory.wf [(2, 1), (1, 1)] = false ∧ Memory.wf [(1, 0)] = false ∧ Memory.wf [(0x10000, 1)] = false := by decide

/-! ### Decoding: the word of every opcode, written out from spec/opcode_table.json -/

/-- Each list of bytes decodes to the instruction beside it, with no byte left. -/
def decodesTo (rows : List (List Byte × Instr)) : Bool :=
  rows.all fun r =>
    match decode r.1 with
    | .ok (i, []) => i == r.2
    | _ => false

/-- Rows 0x and 1x of the opcode map. -/
theorem test_decode_01 :
    decodesTo
      [([0x00], .brk), ([0x01, 0x40], .oraIndx 0x40), ([0x05, 0x40], .oraZp 0x40), ([0x06, 0x40], .aslZp 0x40),
       ([0x08], .php), ([0x09, 0x40], .oraImm 0x40), ([0x0A], .aslAcc), ([0x0D, 0x34, 0x12], .oraAbs 0x1234),
       ([0x0E, 0x34, 0x12], .aslAbs 0x1234), ([0x10, 0x40], .bpl 0x40), ([0x11, 0x40], .oraIndy 0x40),
       ([0x15, 0x40], .oraZpx 0x40), ([0x16, 0x40], .aslZpx 0x40), ([0x18], .clc),
       ([0x19, 0x34, 0x12], .oraAbsy 0x1234), ([0x1D, 0x34, 0x12], .oraAbsx 0x1234),
       ([0x1E, 0x34, 0x12], .aslAbsx 0x1234)] = true := by decide

/-- Rows 2x and 3x of the opcode map. -/
theorem test_decode_23 :
    decodesTo
      [([0x20, 0x34, 0x12], .jsr 0x1234), ([0x21, 0x40], .andIndx 0x40), ([0x24, 0x40], .bitZp 0x40),
       ([0x25, 0x40], .andZp 0x40), ([0x26, 0x40], .rolZp 0x40), ([0x28], .plp), ([0x29, 0x40], .andImm 0x40),
       ([0x2A], .rolAcc), ([0x2C, 0x34, 0x12], .bitAbs 0x1234), ([0x2D, 0x34, 0x12], .andAbs 0x1234),
       ([0x2E, 0x34, 0x12], .rolAbs 0x1234), ([0x30, 0x40], .bmi 0x40), ([0x31, 0x40], .andIndy 0x40),
       ([0x35, 0x40], .andZpx 0x40), ([0x36, 0x40], .rolZpx 0x40), ([0x38], .sec),
       ([0x39, 0x34, 0x12], .andAbsy 0x1234), ([0x3D, 0x34, 0x12], .andAbsx 0x1234),
       ([0x3E, 0x34, 0x12], .rolAbsx 0x1234)] = true := by decide

/-- Rows 4x and 5x of the opcode map. -/
theorem test_decode_45 :
    decodesTo
      [([0x40], .rti), ([0x41, 0x40], .eorIndx 0x40), ([0x45, 0x40], .eorZp 0x40), ([0x46, 0x40], .lsrZp 0x40),
       ([0x48], .pha), ([0x49, 0x40], .eorImm 0x40), ([0x4A], .lsrAcc), ([0x4C, 0x34, 0x12], .jmpAbs 0x1234),
       ([0x4D, 0x34, 0x12], .eorAbs 0x1234), ([0x4E, 0x34, 0x12], .lsrAbs 0x1234), ([0x50, 0x40], .bvc 0x40),
       ([0x51, 0x40], .eorIndy 0x40), ([0x55, 0x40], .eorZpx 0x40), ([0x56, 0x40], .lsrZpx 0x40),
       ([0x58], .cli), ([0x59, 0x34, 0x12], .eorAbsy 0x1234), ([0x5D, 0x34, 0x12], .eorAbsx 0x1234),
       ([0x5E, 0x34, 0x12], .lsrAbsx 0x1234)] = true := by decide

/-- Rows 6x and 7x of the opcode map. -/
theorem test_decode_67 :
    decodesTo
      [([0x60], .rts), ([0x61, 0x40], .adcIndx 0x40), ([0x65, 0x40], .adcZp 0x40), ([0x66, 0x40], .rorZp 0x40),
       ([0x68], .pla), ([0x69, 0x40], .adcImm 0x40), ([0x6A], .rorAcc), ([0x6C, 0x34, 0x12], .jmpInd 0x1234),
       ([0x6D, 0x34, 0x12], .adcAbs 0x1234), ([0x6E, 0x34, 0x12], .rorAbs 0x1234), ([0x70, 0x40], .bvs 0x40),
       ([0x71, 0x40], .adcIndy 0x40), ([0x75, 0x40], .adcZpx 0x40), ([0x76, 0x40], .rorZpx 0x40),
       ([0x78], .sei), ([0x79, 0x34, 0x12], .adcAbsy 0x1234), ([0x7D, 0x34, 0x12], .adcAbsx 0x1234),
       ([0x7E, 0x34, 0x12], .rorAbsx 0x1234)] = true := by decide

/-- Rows 8x and 9x of the opcode map. -/
theorem test_decode_89 :
    decodesTo
      [([0x81, 0x40], .staIndx 0x40), ([0x84, 0x40], .styZp 0x40), ([0x85, 0x40], .staZp 0x40),
       ([0x86, 0x40], .stxZp 0x40), ([0x88], .dey), ([0x8A], .txa), ([0x8C, 0x34, 0x12], .styAbs 0x1234),
       ([0x8D, 0x34, 0x12], .staAbs 0x1234), ([0x8E, 0x34, 0x12], .stxAbs 0x1234), ([0x90, 0x40], .bcc 0x40),
       ([0x91, 0x40], .staIndy 0x40), ([0x94, 0x40], .styZpx 0x40), ([0x95, 0x40], .staZpx 0x40),
       ([0x96, 0x40], .stxZpy 0x40), ([0x98], .tya), ([0x99, 0x34, 0x12], .staAbsy 0x1234), ([0x9A], .txs),
       ([0x9D, 0x34, 0x12], .staAbsx 0x1234)] = true := by decide

/-- Rows Ax and Bx of the opcode map. -/
theorem test_decode_AB :
    decodesTo
      [([0xA0, 0x40], .ldyImm 0x40), ([0xA1, 0x40], .ldaIndx 0x40), ([0xA2, 0x40], .ldxImm 0x40),
       ([0xA4, 0x40], .ldyZp 0x40), ([0xA5, 0x40], .ldaZp 0x40), ([0xA6, 0x40], .ldxZp 0x40), ([0xA8], .tay),
       ([0xA9, 0x40], .ldaImm 0x40), ([0xAA], .tax), ([0xAC, 0x34, 0x12], .ldyAbs 0x1234),
       ([0xAD, 0x34, 0x12], .ldaAbs 0x1234), ([0xAE, 0x34, 0x12], .ldxAbs 0x1234), ([0xB0, 0x40], .bcs 0x40),
       ([0xB1, 0x40], .ldaIndy 0x40), ([0xB4, 0x40], .ldyZpx 0x40), ([0xB5, 0x40], .ldaZpx 0x40),
       ([0xB6, 0x40], .ldxZpy 0x40), ([0xB8], .clv), ([0xB9, 0x34, 0x12], .ldaAbsy 0x1234), ([0xBA], .tsx),
       ([0xBC, 0x34, 0x12], .ldyAbsx 0x1234), ([0xBD, 0x34, 0x12], .ldaAbsx 0x1234),
       ([0xBE, 0x34, 0x12], .ldxAbsy 0x1234)] = true := by decide

/-- Rows Cx and Dx of the opcode map. -/
theorem test_decode_CD :
    decodesTo
      [([0xC0, 0x40], .cpyImm 0x40), ([0xC1, 0x40], .cmpIndx 0x40), ([0xC4, 0x40], .cpyZp 0x40),
       ([0xC5, 0x40], .cmpZp 0x40), ([0xC6, 0x40], .decZp 0x40), ([0xC8], .iny), ([0xC9, 0x40], .cmpImm 0x40),
       ([0xCA], .dex), ([0xCC, 0x34, 0x12], .cpyAbs 0x1234), ([0xCD, 0x34, 0x12], .cmpAbs 0x1234),
       ([0xCE, 0x34, 0x12], .decAbs 0x1234), ([0xD0, 0x40], .bne 0x40), ([0xD1, 0x40], .cmpIndy 0x40),
       ([0xD5, 0x40], .cmpZpx 0x40), ([0xD6, 0x40], .decZpx 0x40), ([0xD8], .cld),
       ([0xD9, 0x34, 0x12], .cmpAbsy 0x1234), ([0xDD, 0x34, 0x12], .cmpAbsx 0x1234),
       ([0xDE, 0x34, 0x12], .decAbsx 0x1234)] = true := by decide

/-- Rows Ex and Fx of the opcode map. -/
theorem test_decode_EF :
    decodesTo
      [([0xE0, 0x40], .cpxImm 0x40), ([0xE1, 0x40], .sbcIndx 0x40), ([0xE4, 0x40], .cpxZp 0x40),
       ([0xE5, 0x40], .sbcZp 0x40), ([0xE6, 0x40], .incZp 0x40), ([0xE8], .inx), ([0xE9, 0x40], .sbcImm 0x40),
       ([0xEA], .nop), ([0xEC, 0x34, 0x12], .cpxAbs 0x1234), ([0xED, 0x34, 0x12], .sbcAbs 0x1234),
       ([0xEE, 0x34, 0x12], .incAbs 0x1234), ([0xF0, 0x40], .beq 0x40), ([0xF1, 0x40], .sbcIndy 0x40),
       ([0xF5, 0x40], .sbcZpx 0x40), ([0xF6, 0x40], .incZpx 0x40), ([0xF8], .sed),
       ([0xF9, 0x34, 0x12], .sbcAbsy 0x1234), ([0xFD, 0x34, 0x12], .sbcAbsx 0x1234),
       ([0xFE, 0x34, 0x12], .incAbsx 0x1234)] = true := by decide

/-! ### The cycles column of 30_encoding.md R96 -/

/-- The cycles column of the opcodes of rows 0x and 1x. -/
theorem test_cycles_01 :
    decodeTable01.map (fun r => r.cycles Config.reference) =
      [7, 6, 3, 5, 3, 2, 2, 4, 6, 2, 5, 4, 6, 2, 4, 4, 7] := by decide

/-- The cycles column of the opcodes of rows 2x and 3x. -/
theorem test_cycles_23 :
    decodeTable23.map (fun r => r.cycles Config.reference) =
      [6, 6, 3, 3, 5, 4, 2, 2, 4, 4, 6, 2, 5, 4, 6, 2, 4, 4, 7] := by decide

/-- The cycles column of the opcodes of rows 4x and 5x. -/
theorem test_cycles_45 :
    decodeTable45.map (fun r => r.cycles Config.reference) =
      [6, 6, 3, 5, 3, 2, 2, 3, 4, 6, 2, 5, 4, 6, 2, 4, 4, 7] := by decide

/-- The cycles column of the opcodes of rows 6x and 7x. -/
theorem test_cycles_67 :
    decodeTable67.map (fun r => r.cycles Config.reference) =
      [6, 6, 3, 5, 4, 2, 2, 5, 4, 6, 2, 5, 4, 6, 2, 4, 4, 7] := by decide

/-- The cycles column of the opcodes of rows 8x and 9x. -/
theorem test_cycles_89 :
    decodeTable89.map (fun r => r.cycles Config.reference) =
      [6, 3, 3, 3, 2, 2, 4, 4, 4, 2, 6, 4, 4, 4, 2, 5, 2, 5] := by decide

/-- The cycles column of the opcodes of rows Ax and Bx. -/
theorem test_cycles_AB :
    decodeTableAB.map (fun r => r.cycles Config.reference) =
      [2, 6, 2, 3, 3, 3, 2, 2, 2, 4, 4, 4, 2, 5, 4, 4, 4, 2, 4, 2, 4, 4, 4] := by decide

/-- The cycles column of the opcodes of rows Cx and Dx. -/
theorem test_cycles_CD :
    decodeTableCD.map (fun r => r.cycles Config.reference) =
      [2, 6, 3, 3, 5, 2, 2, 2, 4, 4, 6, 2, 5, 4, 6, 2, 4, 4, 7] := by decide

/-- The cycles column of the opcodes of rows Ex and Fx. -/
theorem test_cycles_EF :
    decodeTableEF.map (fun r => r.cycles Config.reference) =
      [2, 6, 3, 3, 5, 2, 2, 2, 4, 4, 6, 2, 5, 4, 6, 2, 4, 4, 7] := by decide

/-! ### Single steps, from 95_test_vectors.md -/

/-- The start state of the vectors: the code at 0x0300 and the given bytes in RAM. -/
def code (bytes : List Byte) (data : List Host.Cell) : State :=
  let mem := data.foldl (fun m c => Memory.write m c.1 c.2) []
  { State.reset with pc := 0x0300, mem := Memory.load mem 0x0300 bytes }

/-- What is seen of the state after one step. -/
def after {α : Type} (s : State) (f : State → α) : Option α :=
  match step s with
  | .next t => some (f t)
  | _ => none

/-- The record of the fatal fault a step ends in. -/
def faultOf (s : State) : Option (Option FaultRecord × Nat) :=
  match step s with
  | .fault (.decimalMode _ _ t) | .fault (.decodeViolation _ _ t) | .fault (.transportFailure _ t) =>
    some (t.fault, t.cycles)
  | _ => none

/-- A1: `ADC #$FF`. -/
theorem test_A1_adc :
    after { code [0x69, 0xFF] [] with
      a := 0xFF, flags := { PowerOn.reference.flags with c := true } }
      (fun t => (t.a, statusByte t.flags)) =
      some (0xFF, 0xB1) := by decide

/-- A2: `ADC #$80`. -/
theorem test_A2_adc :
    after { code [0x69, 0x80] [] with
      a := 0x80, flags := { PowerOn.reference.flags with c := false } }
      (fun t => (t.a, statusByte t.flags)) =
      some (0x00, 0x73) := by decide

/-- A6: `ADC $FFFF,X`. -/
theorem test_A6_adc :
    after { code [0x7D, 0xFF, 0xFF] [(0x0001, 0x02)] with
      a := 0x01, x := 0x02, flags := { PowerOn.reference.flags with c := false } }
      (fun t => (t.a, statusByte t.flags)) =
      some (0x03, 0x30) := by decide

/-- A9: `SBC #$01`. -/
theorem test_A9_sbc :
    after { code [0xE9, 0x01] [] with
      a := 0x00, flags := { PowerOn.reference.flags with c := true } }
      (fun t => (t.a, statusByte t.flags)) =
      some (0xFF, 0xB0) := by decide

/-- A11: `SBC #$FF`. -/
theorem test_A11_sbc :
    after { code [0xE9, 0xFF] [] with
      a := 0x7F, flags := { PowerOn.reference.flags with c := true } }
      (fun t => (t.a, statusByte t.flags)) =
      some (0x80, 0xF0) := by decide

/-- A16: `AND #$0F`. -/
theorem test_A16_and :
    after { code [0x29, 0x0F] [] with a := 0xF0 } (fun t => (t.a, statusByte t.flags)) =
      some (0x00, 0x32) := by decide

/-- A18: `ORA #$80`. -/
theorem test_A18_ora :
    after { code [0x09, 0x80] [] with a := 0x01 } (fun t => (t.a, statusByte t.flags)) =
      some (0x81, 0xB0) := by decide

/-- A20: `EOR #$FF`. -/
theorem test_A20_eor :
    after { code [0x49, 0xFF] [] with a := 0xFF } (fun t => (t.a, statusByte t.flags)) =
      some (0x00, 0x32) := by decide

/-- A23: `CMP #$20`. -/
theorem test_A23_cmp :
    after { code [0xC9, 0x20] [] with a := 0x10 } (fun t => statusByte t.flags) =
      some 0xB0 := by decide

/-- A27: `CMP #$7F`. -/
theorem test_A27_cmp :
    after { code [0xC9, 0x7F] [] with a := 0xFF } (fun t => statusByte t.flags) =
      some 0xB1 := by decide

/-- A29: `CPX $10`. -/
theorem test_A29_cpx :
    after { code [0xE4, 0x10] [(0x0010, 0x01)] with x := 0x00 } (fun t => statusByte t.flags) =
      some 0xB0 := by decide

/-- A31: `CPY $1234`. -/
theorem test_A31_cpy :
    after { code [0xCC, 0x34, 0x12] [(0x1234, 0x41)] with y := 0x40 } (fun t => statusByte t.flags) =
      some 0xB0 := by decide

/-- A32: `BIT $10`. -/
theorem test_A32_bit :
    after { code [0x24, 0x10] [(0x0010, 0xC0)] with a := 0x00 } (fun t => statusByte t.flags) =
      some 0xF2 := by decide

/-- A34: `BIT $1234`. -/
theorem test_A34_bit :
    after { code [0x2C, 0x34, 0x12] [(0x1234, 0x01)] with
      a := 0xFF, flags := { PowerOn.reference.flags with n := true, v := true } }
      (fun t => statusByte t.flags) =
      some 0x30 := by decide

/-- L4: `LDA $10,X`. -/
theorem test_L4_lda :
    after { code [0xB5, 0x10] [(0x0005, 0x42), (0x0105, 0x99)] with x := 0xF5 } (fun t => (t.a, statusByte t.flags)) =
      some (0x42, 0x30) := by decide

/-- L7: `LDA $FFFF,X`. -/
theorem test_L7_lda :
    after { code [0xBD, 0xFF, 0xFF] [(0x0000, 0xAA)] with x := 0x01 } (fun t => (t.a, statusByte t.flags)) =
      some (0xAA, 0xB0) := by decide

/-- L9: `LDA ($FF,X)`. -/
theorem test_L9_lda :
    after { code [0xA1, 0xFF] [(0x0000, 0x12), (0x00FF, 0x00), (0x0100, 0x34), (0x1200, 0x77)] with
      x := 0x00 }
      (fun t => (t.a, statusByte t.flags)) =
      some (0x77, 0x30) := by decide

/-- L11: `LDA ($FF),Y`. -/
theorem test_L11_lda :
    after { code [0xB1, 0xFF] [(0x0000, 0x12), (0x00FF, 0xFF), (0x1300, 0x66)] with
      y := 0x01 }
      (fun t => (t.a, statusByte t.flags)) =
      some (0x66, 0x30) := by decide

/-- L12: `LDA ($20),Y`. -/
theorem test_L12_lda :
    after { code [0xB1, 0x20] [(0x0001, 0x11), (0x0020, 0xFF), (0x0021, 0xFF)] with
      y := 0x02 }
      (fun t => (t.a, statusByte t.flags)) =
      some (0x11, 0x30) := by decide

/-- L13: `LDA $C030`. -/
theorem test_L13_lda :
    after { code [0xAD, 0x30, 0xC0] [] with peer := [.ok 0xAB] } (fun t => (t.trace.map BusEvent.frame, t.a)) =
      some ([⟨4, .read, 0xC030, 0x00⟩], 0xAB) := by decide

/-- L18: `LDX $1234,Y`. -/
theorem test_L18_ldx :
    after { code [0xBE, 0x34, 0x12] [(0x1235, 0x35)] with y := 0x01 } (fun t => (t.x, statusByte t.flags)) =
      some (0x35, 0x30) := by decide

/-- L20: `LDY $10,X`. -/
theorem test_L20_ldy :
    after { code [0xB4, 0x10] [(0x0011, 0x00)] with x := 0x01 } (fun t => (t.y, statusByte t.flags)) =
      some (0x00, 0x32) := by decide

/-- L23: `STA $10,X`. -/
theorem test_L23_sta :
    after { code [0x95, 0x10] [] with a := 0x42, x := 0xF1 } (fun t => (t.byteAt 0x0001, statusByte t.flags)) =
      some (0x42, 0x30) := by decide

/-- L28: `STA ($20),Y`. -/
theorem test_L28_sta :
    after { code [0x91, 0x20] [(0x0020, 0x00), (0x0021, 0x12)] with
      a := 0x5A, y := 0x03 }
      (fun t => (t.byteAt 0x1203, statusByte t.flags)) =
      some (0x5A, 0x30) := by decide

/-- L29: `STA $0400`. -/
theorem test_L29_sta :
    after { code [0x8D, 0x00, 0x04] [] with a := 0xC1, peer := [.ok 0x00] } (fun t => t.trace.map BusEvent.frame) =
      some [⟨4, .write, 0x0400, 0xC1⟩] := by decide

/-- L31: `STA $D000`. -/
theorem test_L31_sta :
    after { code [0x8D, 0x00, 0xD0] [] with a := 0xC1 } (fun t => (t.byteAt 0xD000, t.trace)) =
      some (0x00, []) := by decide

/-- L33: `STA $C050`. -/
theorem test_L33_sta :
    after { code [0x8D, 0x50, 0xC0] [] with
      a := 0xC1, peer := [.ok 0x00], cfg := { Config.reference with forwardBusWindowWrites := true } }
      (fun t => t.trace.map BusEvent.frame) =
      some [⟨4, .write, 0xC050, 0xC1⟩] := by decide

/-- L36: `STX $10,Y`. -/
theorem test_L36_stx :
    after { code [0x96, 0x10] [] with x := 0x80, y := 0xF0 } (fun t => (t.byteAt 0x0000, statusByte t.flags)) =
      some (0x80, 0x30) := by decide

/-- L39: `STY $10,X`. -/
theorem test_L39_sty :
    after { code [0x94, 0x10] [] with x := 0xFF, y := 0x01 } (fun t => (t.byteAt 0x000F, statusByte t.flags)) =
      some (0x01, 0x30) := by decide

/-- M2: `ASL A`. -/
theorem test_M2_asl :
    after { code [0x0A] [] with
      a := 0x41, flags := { PowerOn.reference.flags with c := true } }
      (fun t => (t.a, statusByte t.flags)) =
      some (0x82, 0xB0) := by decide

/-- M4: `ASL $10,X`. -/
theorem test_M4_asl :
    after { code [0x16, 0x10] [(0x0011, 0xFF)] with x := 0x01 } (fun t => (t.byteAt 0x0011, statusByte t.flags)) =
      some (0xFE, 0xB1) := by decide

/-- M8: `LSR A`. -/
theorem test_M8_lsr :
    after { code [0x4A] [] with
      a := 0xFF, flags := { PowerOn.reference.flags with c := false } }
      (fun t => (t.a, statusByte t.flags)) =
      some (0x7F, 0x31) := by decide

/-- M12: `ROL $10`. -/
theorem test_M12_rol :
    after { code [0x26, 0x10] [(0x0010, 0xFF)] with
      flags := { PowerOn.reference.flags with c := true } }
      (fun t => (t.a, statusByte t.flags)) =
      some (0x00, 0xB1) := by decide

/-- M15: `ROR $10,X`. -/
theorem test_M15_ror :
    after { code [0x76, 0x10] [(0x0012, 0x00)] with
      x := 0x02, flags := { PowerOn.reference.flags with c := true } }
      (fun t => (t.byteAt 0x0012, statusByte t.flags)) =
      some (0x80, 0xB0) := by decide

/-- M18: `INC $1234,X`. -/
theorem test_M18_inc :
    after { code [0xFE, 0x34, 0x12] [(0x1235, 0x7F)] with
      x := 0x01 }
      (fun t => (t.byteAt 0x1235, statusByte t.flags)) =
      some (0x80, 0xB0) := by decide

/-- M20: `INC $C000`. -/
theorem test_M20_inc :
    after { code [0xEE, 0x00, 0xC0] [] with peer := [.ok 0x10] } (fun t => t.trace.map BusEvent.frame) =
      some [⟨6, .read, 0xC000, 0x00⟩] := by decide

/-- M21: `INC $C000`. -/
theorem test_M21_inc :
    after { code [0xEE, 0x00, 0xC0] [] with
      peer := [.ok 0x10, .ok 0x00], cfg := { Config.reference with forwardBusWindowWrites := true } }
      (fun t => t.trace.map BusEvent.frame) =
      some [⟨6, .read, 0xC000, 0x00⟩, ⟨6, .write, 0xC000, 0x11⟩] := by decide

/-- M24: `DEC $10,X`. -/
theorem test_M24_dec :
    after { code [0xD6, 0x10] [(0x0011, 0x01)] with x := 0x01 } (fun t => (t.byteAt 0x0011, statusByte t.flags)) =
      some (0x00, 0x32) := by decide

/-- M27: `INX`. -/
theorem test_M27_inx :
    after { code [0xE8] [] with x := 0x7F } (fun t => (t.x, statusByte t.flags)) =
      some (0x80, 0xB0) := by decide

/-- M28: `INY`. -/
theorem test_M28_iny :
    after { code [0xC8] [] with y := 0x7F } (fun t => (t.y, statusByte t.flags)) =
      some (0x80, 0xB0) := by decide

/-- M30: `DEX`. -/
theorem test_M30_dex :
    after { code [0xCA] [] with x := 0x00 } (fun t => (t.x, statusByte t.flags)) =
      some (0xFF, 0xB0) := by decide

/-- M32: `DEY`. -/
theorem test_M32_dey :
    after { code [0x88] [] with y := 0x01 } (fun t => (t.y, statusByte t.flags)) =
      some (0x00, 0x32) := by decide

/-- S1: `TAX`. -/
theorem test_S1_tax :
    after { code [0xAA] [] with a := 0x80 } (fun t => (t.x, statusByte t.flags)) =
      some (0x80, 0xB0) := by decide

/-- S2: `TAY`. -/
theorem test_S2_tay :
    after { code [0xA8] [] with a := 0x00, y := 0x12 } (fun t => (t.y, statusByte t.flags)) =
      some (0x00, 0x32) := by decide

/-- S3: `TXA`. -/
theorem test_S3_txa :
    after { code [0x8A] [] with a := 0x00, x := 0x7F } (fun t => (t.a, statusByte t.flags)) =
      some (0x7F, 0x30) := by decide

/-- S4: `TYA`. -/
theorem test_S4_tya :
    after { code [0x98] [] with y := 0xFF } (fun t => (t.a, statusByte t.flags)) =
      some (0xFF, 0xB0) := by decide

/-- S6: `TSX`. -/
theorem test_S6_tsx :
    after { code [0xBA] [] with sp := 0xFD } (fun t => (t.x, statusByte t.flags)) =
      some (0xFD, 0xB0) := by decide

/-- S7: `TXS`. -/
theorem test_S7_txs :
    after { code [0x9A] [] with
      x := 0x00, flags := { PowerOn.reference.flags with n := true, z := false } }
      (fun t => (t.sp, statusByte t.flags)) =
      some (0x00, 0xB0) := by decide

/-- S10: `PHA`. -/
theorem test_S10_pha :
    after { code [0x48] [] with a := 0x42, sp := 0x00 } (fun t => (t.byteAt 0x0100, t.sp)) =
      some (0x42, 0xFF) := by decide

/-- S11: `PHP`. -/
theorem test_S11_php :
    after { code [0x08] [] with
      flags := { PowerOn.reference.flags with n := true, c := true } }
      (fun t => (t.byteAt 0x01FF, t.sp)) =
      some (0xB1, 0xFE) := by decide

/-- S14: `PLA`. -/
theorem test_S14_pla :
    after { code [0x68] [(0x0100, 0x80)] with sp := 0xFF } (fun t => (t.a, t.sp)) =
      some (0x80, 0x00) := by decide

/-- S16: `PLP`. -/
theorem test_S16_plp :
    after { code [0x28] [(0x01FF, 0x00)] with
      sp := 0xFE, flags := { PowerOn.reference.flags with n := true, c := true } }
      (fun t => statusByte t.flags) =
      some 0x20 := by decide

/-- B1: `BCC $0305`. -/
theorem test_B1_bcc :
    after { code [0x90, 0x03] [] with
      flags := { PowerOn.reference.flags with c := false } }
      (fun t => (t.pc, t.cycles)) =
      some (0x0305, 3) := by decide

/-- B3: `BCS $0300`. -/
theorem test_B3_bcs :
    after { code [0xB0, 0xFE] [] with
      flags := { PowerOn.reference.flags with c := true } }
      (fun t => (t.pc, t.cycles)) =
      some (0x0300, 3) := by decide

/-- B5: `BEQ $0312`. -/
theorem test_B5_beq :
    after { code [0xF0, 0x10] [] with
      flags := { PowerOn.reference.flags with z := true } }
      (fun t => (t.pc, t.cycles)) =
      some (0x0312, 3) := by decide

/-- B6: `BMI $0282`. -/
theorem test_B6_bmi :
    after { code [0x30, 0x80] [] with
      flags := { PowerOn.reference.flags with n := true } }
      (fun t => (t.pc, t.cycles)) =
      some (0x0282, 3) := by decide

/-- B8: `BNE $0302`. -/
theorem test_B8_bne :
    after { code [0xD0, 0x00] [] with
      flags := { PowerOn.reference.flags with z := true } }
      (fun t => (t.pc, t.cycles)) =
      some (0x0302, 2) := by decide

/-- B10: `BPL $0381`. -/
theorem test_B10_bpl :
    after { code [0x10, 0x7F] [] with
      flags := { PowerOn.reference.flags with n := true } }
      (fun t => (t.pc, t.cycles)) =
      some (0x0302, 2) := by decide

/-- B11: `BVC $02F0`. -/
theorem test_B11_bvc :
    after { code [0x50, 0xEE] [] with
      flags := { PowerOn.reference.flags with v := false } }
      (fun t => (t.pc, t.cycles)) =
      some (0x02F0, 3) := by decide

/-- B12: `BVS $0302`. -/
theorem test_B12_bvs :
    after { code [0x70, 0x00] [] with
      flags := { PowerOn.reference.flags with v := true } }
      (fun t => (t.pc, t.cycles)) =
      some (0x0302, 3) := by decide

/-- B16: `JMP ($10FF)`. -/
theorem test_B16_jmp :
    after (code [0x6C, 0xFF, 0x10] [(0x1000, 0x12), (0x10FF, 0x34), (0x1100, 0x56)]) (fun t => t.pc) =
      some 0x1234 := by decide

/-- B18: `JMP ($C000)`. -/
theorem test_B18_jmp :
    after { code [0x6C, 0x00, 0xC0] [] with peer := [.ok 0x00, .ok 0x20] } (fun t => t.trace.map BusEvent.frame) =
      some [⟨4, .read, 0xC000, 0x00⟩, ⟨4, .read, 0xC001, 0x00⟩] := by decide

/-- B20: `JSR $2000`. -/
theorem test_B20_jsr :
    after { code [0x20, 0x00, 0x20] [] with sp := 0x00 } (fun t => (t.byteAt 0x0100, t.byteAt 0x01FF, t.sp)) =
      some (0x03, 0x02, 0xFE) := by decide

/-- B22: `RTS`. -/
theorem test_B22_rts :
    after { code [0x60] [(0x01FE, 0xFF), (0x01FF, 0xFF)] with sp := 0xFD } (fun t => t.pc) =
      some 0x0000 := by decide

/-- B25: `BRK`. -/
theorem test_B25_brk :
    after { code [0x00] [] with
      flags := { PowerOn.reference.flags with b := false, c := true } }
      (fun t => (t.byteAt 0x01FD, t.byteAt 0x01FE, t.byteAt 0x01FF, t.sp)) =
      some (0x21, 0x02, 0x03, 0xFC) := by decide

/-- B26: `BRK`. -/
theorem test_B26_brk :
    after { code [0x00] [] with
      flags := { PowerOn.reference.flags with b := true }, cfg := { Config.reference with brkSetsI := true } }
      (fun t => (t.flags.b, t.flags.i, t.pc)) =
      some (true, true, 0x0000) := by decide

/-- B27: `RTI`. -/
theorem test_B27_rti :
    after { code [0x40] [(0x01FD, 0xC3), (0x01FE, 0x02), (0x01FF, 0x03)] with
      sp := 0xFC }
      (fun t => (t.pc, statusByte t.flags, t.sp)) =
      some (0x0302, 0xE3, 0xFF) := by decide

/-- F1: `CLC`. -/
theorem test_F1_clc :
    after { code [0x18] [] with flags := { PowerOn.reference.flags with c := true } } (fun t => statusByte t.flags) =
      some 0x30 := by decide

/-- F2: `CLD`. -/
theorem test_F2_cld :
    after { code [0xD8] [] with flags := { PowerOn.reference.flags with d := true } } (fun t => statusByte t.flags) =
      some 0x30 := by decide

/-- F3: `CLI`. -/
theorem test_F3_cli :
    after { code [0x58] [] with flags := { PowerOn.reference.flags with i := true } } (fun t => statusByte t.flags) =
      some 0x30 := by decide

/-- F4: `CLV`. -/
theorem test_F4_clv :
    after { code [0xB8] [] with flags := { PowerOn.reference.flags with v := true } } (fun t => statusByte t.flags) =
      some 0x30 := by decide

/-- F5: `SEC`. -/
theorem test_F5_sec :
    after (code [0x38] []) (fun t => statusByte t.flags) =
      some 0x31 := by decide

/-- F6: `SED`. -/
theorem test_F6_sed :
    after (code [0xF8] []) (fun t => statusByte t.flags) =
      some 0x38 := by decide

/-- F7: `SEI`. -/
theorem test_F7_sei :
    after (code [0x78] []) (fun t => statusByte t.flags) =
      some 0x34 := by decide

/-- F8: `NOP`. -/
theorem test_F8_nop :
    after (code [0xEA] []) (fun t => (t.pc, t.cycles)) =
      some (0x0301, 2) := by decide

/-- A7: `ADC $10` with D = 1. -/
theorem test_A7_decimal :
    faultOf { code [0x65, 0x10] [(0x0010, 0x01)] with flags := { PowerOn.reference.flags with d := true } } =
      some (some (.decimalMode 0x0300 0x65), 3) := by decide

/-- A8: `ADC $C000` with D = 1: the operand is not read. -/
theorem test_A8_decimal :
    faultOf { code [0x6D, 0x00, 0xC0] [] with
      peer := [.ok 0x01], flags := { PowerOn.reference.flags with d := true } } =
      some (some (.decimalMode 0x0300 0x6D), 4) := by decide

/-- L15: `LDA $F000` with a ROM of 0x2000 bytes. -/
theorem test_L15_violation :
    faultOf { code [0xAD, 0x00, 0xF0] [] with cfg := { Config.reference with romSize := 0x2000 } } =
      some (some (.decodeViolation 0xF000 .read), 4) := by decide

/-- L34: `STA $F000` with a ROM of 0x2000 bytes. -/
theorem test_L34_violation :
    faultOf { code [0x8D, 0x00, 0xF0] [] with cfg := { Config.reference with romSize := 0x2000 } } =
      some (some (.decodeViolation 0xF000 .write), 4) := by decide

/-- A bus read whose exchange fails (20_memory.md R69). -/
theorem test_transport_failure :
    faultOf { code [0xAD, 0x30, 0xC0] [] with peer := [.fail] } =
      some (some (.transportFailure ⟨4, .read, 0xC030, 0x00⟩), 4) := by decide

/-- Q1: an Absent opcode halts. -/
theorem test_Q1_halt :
    after (code [0x02] []) (fun t => (t.pc, t.haltInfo, t.running, t.cycles)) =
      some (0x0301, some (0x0300, 0x02), false, 2) := by decide

/-- A frame on the wire (20_memory.md R66). -/
theorem test_frame_bytes :
    Frame.bytes ⟨0x01020304, .write, 0xC0A1, 0x7F⟩ = [0x04, 0x03, 0x02, 0x01, 0x01, 0xA1, 0xC0, 0x7F] := by decide

/-- The reset command while halted (70_reset_and_hazards.md R302). -/
theorem test_reset_command :
    after { code [0x02] [(0xFFFC, 0x34), (0xFFFD, 0x12)] with
      running := false, haltInfo := some (0x0300, 0x02), pending := [.reset] }
      (fun t => (t.pc, t.running, t.haltInfo)) = some (0x1234, true, none) := by decide

/-- The status command (60_exceptions.md R285): the status byte has B and bit 5 set (10_state.md R25). -/
theorem test_status_command :
    after { code [0xEA] [] with a := 0x12, running := false, pending := [.status] } (fun t => t.responses) =
      some [.status 0x12 0x00 0x00 0xFF 0x0300 0x30 0] := by decide

/-- Construction with empty images is the reset state (R300, R301). -/
theorem test_construct : construct Config.reference PowerOn.reference [] [] none = .next State.reset := rfl

/-- The host's placement: the next step runs the placed instruction. -/
theorem test_withFetchWord :
    after (State.reset.withFetchWord 16 0x40A9) (fun t => (t.a, t.pc)) = some (0x40, 0x0002) := by decide

/-! ### States that meet the hypotheses of the statements, clause by clause -/

/-- A machine with a hole: no region from 0xF000 up. -/
def hole : State := { State.reset with cfg := { Config.reference with romSize := 0x2000 } }

/-- A machine whose whole space is RAM and where nothing is forwarded. -/
def allRam : State :=
  { State.reset with
    cfg := { Config.reference with ramSize := 0x10000, romBase := 0x10000, romSize := 0, videoWindows := [] } }

theorem test_witness_EncodeOfDecode : decode [0x69, 0x40, 0xFF] = .ok (.adcImm 0x40, [0xFF]) := rfl

theorem test_witness_AbsentOpcodes :
    (0x02#8 ∈ absentOpcodes ∧ 0xFF#8 ∈ absentOpcodes) ∧ (0x00#8 ∉ absentOpcodes ∧ 0xFE#8 ∉ absentOpcodes) ∧
    decode [0x02, 0x00] = .error (.absentOpcode 0x02) := ⟨by decide, by decide, rfl⟩

/-- The first and last address of each region, and the first of the hole. -/
theorem test_witness_RegionPrecedence :
    (region Config.reference 0x0000 = .ram ∧ region Config.reference 0xBFFF = .ram) ∧
    (region Config.reference 0xC000 = .bus ∧ region Config.reference 0xCFFF = .bus) ∧
    (region Config.reference 0xD000 = .rom ∧ region Config.reference 0xFFFF = .rom) ∧
    (region hole.cfg 0xEFFF = .rom ∧ region hole.cfg 0xF000 = .unmapped) := by decide

theorem test_witness_MemReadByRegion :
    (region State.reset.cfg 0xBFFF = .ram ∨ region State.reset.cfg 0xBFFF = .rom) ∧
    (region State.reset.cfg 0xC000 = .bus ∧ nextExchange { State.reset with peer := [.ok 0xAB] } = (.ok 0xAB, [])) ∧
    (region State.reset.cfg 0xCFFF = .bus ∧ nextExchange { State.reset with peer := [.fail] } = (.fail, [])) ∧
    region hole.cfg 0xF000 = .unmapped := by decide

theorem test_witness_MemWriteByRegion :
    region hole.cfg 0xF000 = .unmapped ∧
    (region State.reset.cfg 0x03FF ≠ .unmapped ∧ forwarded State.reset.cfg 0x03FF = false) ∧
    (region State.reset.cfg 0xC000 ≠ .unmapped ∧ forwarded State.reset.cfg 0xC000 = false) ∧
    (region State.reset.cfg 0x0400 ≠ .unmapped ∧ forwarded State.reset.cfg 0x0400 = true ∧
      nextExchange { State.reset with peer := [.ok 0x00] } = (.ok 0x00, [])) ∧
    (region State.reset.cfg 0x0BFF ≠ .unmapped ∧ forwarded State.reset.cfg 0x0BFF = true ∧
      nextExchange { State.reset with peer := [.fail] } = (.fail, [])) := by decide

theorem test_witness_ReadAfterWrite : Memory.wf [(0x0000, 0x01), (0xFFFF, 0x02)] = true := by decide

/-- At the top of a page and at the top of the space. -/
theorem test_witness_WordReads :
    (∃ t, memRead 0x10FF State.reset = .ok (0x00, t) ∧ (∃ u, memRead (0x10FF + 1) t = .ok (0x00, u)) ∧
      ∃ u, memRead (if (0x10FF#16).setWidth 8 = 0xFF#8 then 0x10FF &&& 0xFF00 else 0x10FF + 1) t = .ok (0x00, u)) ∧
    (∃ t, memRead 0xFFFF State.reset = .ok (0x00, t) ∧ ∃ u, memRead (0xFFFF + 1) t = .ok (0x00, u)) :=
  ⟨⟨_, rfl, ⟨_, rfl⟩, _, rfl⟩, _, rfl, _, rfl⟩

/-- Vectors B16, L9 and L11: the three pointer reads. -/
theorem test_witness_EffectiveAddresses :
    (∃ t, readWordBug 0x10FF (code [] [(0x1000, 0x12), (0x10FF, 0x34), (0x1100, 0x56)]) = .ok (0x1234, t)) ∧
    (∃ t, readWordBug (BitVec.ofNat 16 ((0xFF + 0x00) % 256)) (code [] [(0x0000, 0x12)]) = .ok (0x1200, t)) ∧
    (∃ t, readWordBug (BitVec.ofNat 16 0xFF) (code [] [(0x0000, 0x12), (0x00FF, 0xFF)]) = .ok (0x12FF, t)) :=
  ⟨⟨_, rfl⟩, ⟨_, rfl⟩, ⟨_, rfl⟩⟩

theorem test_witness_OperandAccess :
    ∃ s1 s2, resolve (.absx 0xFFFF) { code [] [(0x0000, 0xAA)] with x := 0x01 } = .ok (0x0000, s1) ∧
      memRead 0x0000 (s1.plusCycles 0) = .ok (0xAA, s2) := ⟨_, _, rfl, rfl⟩

/-- SP at both ends of its range. -/
theorem test_witness_PushAndPull :
    (∃ t, memWrite (BitVec.ofNat 16 (0x100 + 0x00)) 0x42 { State.reset with sp := 0x00 } = .ok ((), t)) ∧
    (∃ t, memWrite (BitVec.ofNat 16 (0x100 + 0xFF)) 0x42 State.reset = .ok ((), t)) ∧
    (∃ t, memRead (BitVec.ofNat 16 (0x100 + 0x00)) { State.reset with sp := 0x00 } = .ok (0x00, t)) :=
  ⟨⟨_, rfl⟩, ⟨_, rfl⟩, ⟨_, rfl⟩⟩

theorem test_witness_StackIsRam : State.reset.StackIsRam ∧ Memory.wf State.reset.mem = true := by
  refine ⟨?_, rfl⟩
  unfold State.StackIsRam
  decide

/-- ADC: D = 1, D = 0 with the operand readable, and with it in the hole. -/
theorem test_witness_AdcResult :
    ((Instr.adcImm 0x01).mnemonic = .adc ∧ (Instr.adcImm 0x01).operand = some (.imm 0x01)) ∧
    (∃ ea t, resolve (.imm 0x01) { State.reset with flags := { PowerOn.reference.flags with d := true } } = .ok (ea, t)) ∧
    (∃ t, State.reset.flags.d = false ∧ loadOperand 0x69 (.imm 0x01) State.reset = .ok (0x01, t)) ∧
    (∃ e, hole.flags.d = false ∧ loadOperand 0x6D (.abs 0xF000) hole = .error e) :=
  ⟨⟨rfl, rfl⟩, ⟨_, _, rfl⟩, ⟨_, rfl, rfl⟩, _, rfl, rfl⟩

theorem test_witness_SbcResult :
    ((Instr.sbcAbs 0xF000).mnemonic = .sbc ∧ (Instr.sbcAbs 0xF000).operand = some (.abs 0xF000)) ∧
    (∃ ea t, resolve (.abs 0xF000) { hole with flags := { PowerOn.reference.flags with d := true } } = .ok (ea, t)) ∧
    (∃ t, State.reset.flags.d = false ∧ loadOperand 0xED (.abs 0xF000) State.reset = .ok (0x00, t)) ∧
    (∃ e, hole.flags.d = false ∧ loadOperand 0xED (.abs 0xF000) hole = .error e) :=
  ⟨⟨rfl, rfl⟩, ⟨_, _, rfl⟩, ⟨_, rfl, rfl⟩, _, rfl, rfl⟩

/-- The byte an operand load gives, none where it faults. -/
def loaded (r : Except Fault (Byte × State)) : Option Byte :=
  match r with
  | .ok (m, _) => some m
  | .error _ => none

/-- The statements about AND, ORA, EOR, CMP, CPX, CPY, BIT, LDA, LDX and LDY share these two states. -/
theorem test_witness_operand_results :
    ((Instr.andAbs 0xF000).operand = some (.abs 0xF000) ∧ (Instr.andAbs 0xF000).mnemonic = .and) ∧
    ((Instr.oraAbs 0xF000).operand = some (.abs 0xF000) ∧ (Instr.oraAbs 0xF000).mnemonic = .ora) ∧
    ((Instr.eorAbs 0xF000).operand = some (.abs 0xF000) ∧ (Instr.eorAbs 0xF000).mnemonic = .eor) ∧
    ((Instr.cmpAbs 0xF000).operand = some (.abs 0xF000) ∧ (Instr.cmpAbs 0xF000).mnemonic = .cmp) ∧
    ((Instr.cpxAbs 0xF000).operand = some (.abs 0xF000) ∧ (Instr.cpxAbs 0xF000).mnemonic = .cpx) ∧
    ((Instr.cpyAbs 0xF000).operand = some (.abs 0xF000) ∧ (Instr.cpyAbs 0xF000).mnemonic = .cpy) ∧
    ((Instr.bitAbs 0xF000).operand = some (.abs 0xF000) ∧ (Instr.bitAbs 0xF000).mnemonic = .bit) ∧
    ((Instr.ldaAbs 0xF000).operand = some (.abs 0xF000) ∧ (Instr.ldaAbs 0xF000).mnemonic = .lda) ∧
    ((Instr.ldxAbs 0xF000).operand = some (.abs 0xF000) ∧ (Instr.ldxAbs 0xF000).mnemonic = .ldx) ∧
    ((Instr.ldyAbs 0xF000).operand = some (.abs 0xF000) ∧ (Instr.ldyAbs 0xF000).mnemonic = .ldy) ∧
    (∀ op ∈ [0x2D, 0x0D, 0x4D, 0xCD, 0xEC, 0xCC, 0x2C, 0xAD, 0xAE, 0xAC],
      loaded (loadOperand op (.abs 0xF000) State.reset) = some 0x00 ∧
      loaded (loadOperand op (.abs 0xF000) hole) = none) := by decide

theorem test_witness_StoreResult :
    ∃ s1, resolve (.zpx 0x10) { State.reset with x := 0xF1 } = .ok (0x0001, s1) ∧
      ((Instr.staZpx 0x10).operand = some (.zpx 0x10) ∧ (Instr.staZpx 0x10).mnemonic = .sta ∧
        ∃ t, memWrite 0x0001 0x42 (s1.plusCycles (State.reset.cfg.extra 0x95)) = .ok ((), t)) ∧
      ((Instr.styZpx 0x10).operand = some (.zpx 0x10) ∧ (Instr.styZpx 0x10).mnemonic = .sty ∧
        ∃ t, memWrite 0x0001 0x42 (s1.plusCycles (State.reset.cfg.extra 0x94)) = .ok ((), t)) :=
  ⟨_, rfl, ⟨rfl, rfl, _, rfl⟩, rfl, rfl, _, rfl⟩

theorem test_witness_StoreResult_stx :
    ∃ s1, resolve (.zpy 0x10) { State.reset with y := 0xF0 } = .ok (0x0000, s1) ∧
      (Instr.stxZpy 0x10).operand = some (.zpy 0x10) ∧ (Instr.stxZpy 0x10).mnemonic = .stx ∧
        ∃ t, memWrite 0x0000 0x80 (s1.plusCycles (State.reset.cfg.extra 0x96)) = .ok ((), t) :=
  ⟨_, rfl, rfl, rfl, _, rfl⟩

/-- A read-modify-write in RAM, and one in the bus window with the write forwarded. -/
theorem test_witness_ReadModifyWriteResult :
    (Instr.incAbs 0xC000).operand = some (.abs 0xC000) ∧
    (Instr.incAbs 0xC000).mnemonic ∈ [Mnemonic.asl, .lsr, .rol, .ror, .inc, .dec] ∧
    (∃ s1 s2 t, resolve (.abs 0x1234) State.reset = .ok (0x1234, s1) ∧
      memRead 0x1234 (s1.plusCycles 2) = .ok (0x00, s2) ∧ memWrite 0x1234 0x01 s2 = .ok ((), t)) ∧
    (∃ s1 s2 t, resolve (.abs 0xC000) { State.reset with
        peer := [.ok 0x10, .ok 0x00], cfg := { Config.reference with forwardBusWindowWrites := true } } = .ok (0xC000, s1) ∧
      memRead 0xC000 (s1.plusCycles 2) = .ok (0x10, s2) ∧ memWrite 0xC000 0x11 s2 = .ok ((), t)) :=
  ⟨rfl, by decide, ⟨_, _, _, rfl, rfl, rfl⟩, _, _, _, rfl, rfl, rfl⟩

theorem test_witness_ShiftAccumulatorResult :
    Instr.rorAcc ∈ [Instr.aslAcc, .lsrAcc, .rolAcc, .rorAcc] := by decide

theorem test_witness_PushRegisterResult :
    (∃ t, memWrite (stackAddress 0x00) 0x42 (State.plusCycles { State.reset with sp := 0x00 } 1) = .ok ((), t)) ∧
    (∃ t, memWrite (stackAddress 0xFF) (statusByte State.reset.flags) (State.reset.plusCycles 1) = .ok ((), t)) :=
  ⟨⟨_, rfl⟩, ⟨_, rfl⟩⟩

theorem test_witness_PullRegisterResult :
    (∃ t, memRead (stackAddress (0xFF + 1)) { State.reset.plusCycles 2 with sp := 0xFF + 1 } = .ok (0x00, t)) ∧
    (∃ t, memRead (stackAddress (0xFE + 1)) { State.reset.plusCycles 2 with sp := 0xFE + 1 } = .ok (0x00, t)) :=
  ⟨⟨_, rfl⟩, ⟨_, rfl⟩⟩

/-- A branch taken and one not taken; both conditions of each flag are met by one of the two states. -/
theorem test_witness_BranchResult :
    (Instr.beq 0x80).operand = some (.rel 0x80) ∧ branchTaken .beq State.reset.flags = false ∧
    (Instr.bne 0x7F).operand = some (.rel 0x7F) ∧ branchTaken .bne State.reset.flags = true := by decide

/-- Vectors B16 and B14. -/
theorem test_witness_JumpResult :
    ((Instr.jmpInd 0x10FF).mnemonic = .jmp ∧ (Instr.jmpInd 0x10FF).operand = some (.ind 0x10FF) ∧
      ∃ t, resolve (.ind 0x10FF) (code [] [(0x1000, 0x12), (0x10FF, 0x34)]) = .ok (0x1234, t)) ∧
    ((Instr.jmpAbs 0x2000).mnemonic = .jmp ∧ (Instr.jmpAbs 0x2000).operand = some (.abs 0x2000) ∧
      ∃ t, resolve (.abs 0x2000) State.reset = .ok (0x2000, t)) := ⟨⟨rfl, rfl, _, rfl⟩, rfl, rfl, _, rfl⟩

theorem test_witness_CallAndReturnResult :
    (∃ t, pushWord (State.reset.pc - 1) (State.reset.plusCycles (State.reset.cfg.extra 0x20)) = .ok ((), t)) ∧
    (∃ t, pullWord (State.reset.plusCycles (State.reset.cfg.extra 0x60)) = .ok (0x0000, t)) := ⟨⟨_, rfl⟩, ⟨_, rfl⟩⟩

/-- With `BRK_SETS_I` off and on. -/
theorem test_witness_BrkResult :
    (∃ t u v, pushWord (State.reset.pc + 1) (State.reset.plusCycles (State.reset.cfg.extra 0x00)) = .ok ((), t) ∧
      push (statusByte State.reset.flags) t = .ok ((), u) ∧
      readWord 0xFFFE { u with flags := { State.reset.flags with
        b := true, i := State.reset.flags.i || State.reset.cfg.brkSetsI } } = .ok (0x0000, v)) ∧
    (let s := { State.reset with cfg := { Config.reference with brkSetsI := true } }
     ∃ t u v, pushWord (s.pc + 1) (s.plusCycles (s.cfg.extra 0x00)) = .ok ((), t) ∧
      push (statusByte s.flags) t = .ok ((), u) ∧
      readWord 0xFFFE { u with flags := { s.flags with b := true, i := s.flags.i || s.cfg.brkSetsI } } =
        .ok (0x0000, v)) := ⟨⟨_, _, _, rfl, rfl, rfl⟩, _, _, _, rfl, rfl, rfl⟩

theorem test_witness_RtiResult :
    ∃ t u, pull (State.reset.plusCycles (State.reset.cfg.extra 0x40)) = .ok (0x00, t) ∧
      pullWord { t with flags := setStatus 0x00 } = .ok (0x0000, u) := ⟨_, _, rfl, rfl⟩

/-- NOP completes and writes no register and no flag: it meets the frames' hypotheses. -/
theorem test_witness_RegisterFrame :
    ∃ t, exec .nop State.reset = .next t ∧ Reg.a ∉ Instr.nop.regsWritten ∧
      Flag.c ∉ Instr.nop.flagsWritten State.reset.cfg := ⟨_, rfl, by decide, by decide⟩

theorem test_witness_StoreMemoryFrame :
    ∃ s1 t, (Instr.staAbs 0x1234).storesOperand = true ∧ (Instr.staAbs 0x1234).operand = some (.abs 0x1234) ∧
      resolve (.abs 0x1234) State.reset = .ok (0x1234, s1) ∧ exec (.staAbs 0x1234) State.reset = .next t ∧
      (0x1235 : Word) ≠ 0x1234 := ⟨_, _, rfl, rfl, rfl, rfl, by decide⟩

theorem test_witness_PushMemoryFrame :
    ∃ t, Instr.brk.storesOperand = false ∧ exec .brk State.reset = .next t ∧
      ∀ k < Instr.brk.pushes, (0x01FC : Word) ≠ BitVec.ofNat 16 (0x100 + (State.reset.sp - BitVec.ofNat 8 k).toNat) :=
  ⟨_, rfl, rfl, by decide⟩

theorem test_witness_ControlStateFrame :
    ∃ t, exec .tax State.reset = .next t ∧
      Instr.tax.mnemonic ∉ [Mnemonic.bcc, .bcs, .beq, .bmi, .bne, .bpl, .bvc, .bvs, .jmp, .jsr, .rts, .brk, .rti] :=
  ⟨_, rfl, by decide⟩

theorem test_witness_DecimalModeOnlyFromAdcSbc :
    ∃ t, exec (.adcImm 0x01) { State.reset with
      pc := 0x0302, flags := { PowerOn.reference.flags with d := true } } = .fault (.decimalMode 0x0300 0x69 t) :=
  ⟨_, rfl⟩

/-- The vector in ROM. -/
theorem test_witness_RtiReversesBrk : State.reset.plain 0xFFFE = true ∧ State.reset.plain 0xFFFF = true := by decide

/-- At the end of the space, so that the operand bytes wrap to address 0. -/
theorem test_witness_StepRunsDecodedInstruction :
    let s := { code [] [(0xFFFF, 0xAD), (0x0000, 0x34), (0x0001, 0x12)] with pc := 0xFFFF }
    (s.fault = none ∧ s.quit = false ∧ s.running = true ∧ (s.pending = [] ∨ s.batchLeft ≠ 0)) ∧
    (∀ k < (Instr.ldaAbs 0x1234).length, s.plain (s.pc + BitVec.ofNat 16 k) = true) ∧
    decode [s.byteAt s.pc, s.byteAt (s.pc + 1), s.byteAt (s.pc + 2)] = .ok (.ldaAbs 0x1234, []) := ⟨by decide, by decide, rfl⟩

/-- The instruction's bytes from the peer; and a fetch in the hole. -/
theorem test_witness_StepIsFetchThenExec :
    (∃ t, fetch (State.countInstruction { State.reset with pc := 0xC000, peer := [.ok 0xEA] }) = .ok (some .nop, t)) ∧
    (∃ e, fetch (State.countInstruction { hole with pc := 0xF000 }) = .error e) := ⟨⟨_, rfl⟩, ⟨_, rfl⟩⟩

theorem test_witness_StepHaltsOnAbsentOpcode :
    let s := code [0xFF] []
    (s.fault = none ∧ s.quit = false ∧ s.running = true ∧ (s.pending = [] ∨ s.batchLeft ≠ 0)) ∧
    s.plain s.pc = true ∧ s.byteAt s.pc ∈ absentOpcodes := by decide

theorem test_witness_StepWhenNotEnabled :
    ({ State.reset with fault := some (.decimalMode 0x0300 0x69) } : State).fault = some (.decimalMode 0x0300 0x69) ∧
    (let s := { State.reset with quit := true }; s.fault = none ∧ s.quit = true) ∧
    (let s := { State.reset with running := false }; s.fault = none ∧ s.running = false ∧ s.pending = []) := by decide

/-- Halted with the vector readable, at a batch's end with the vector in a hole, and with a fault recorded. -/
theorem test_witness_ResetCommandEffect :
    (let s := { State.reset with pending := [.reset], running := false }
     (s.pending = .reset :: [] ∧ s.fault = none ∧ s.quit = false ∧ (s.running = false ∨ s.batchLeft = 0)) ∧
     ∃ t, readWord 0xFFFC { s with pending := [], batchLeft := 0 } = .ok (0x0000, t)) ∧
    (let s := { hole with pending := [.reset], batchLeft := 0 }
     (s.pending = .reset :: [] ∧ s.fault = none ∧ s.quit = false ∧ (s.running = false ∨ s.batchLeft = 0)) ∧
     ∃ e, readWord 0xFFFC { s with pending := [], batchLeft := 0 } = .error e) ∧
    (let s := { State.reset with pending := [.reset], fault := some (.decimalMode 0x0300 0x69) }
     s.pending = .reset :: [] ∧ s.fault = some (.decimalMode 0x0300 0x69)) :=
  ⟨⟨by decide, _, rfl⟩, ⟨by decide, _, rfl⟩, by decide⟩

/-- A memory read of one byte and of the last two, and a one-byte write. -/
theorem test_witness_HostCommandEffects :
    (let s := { State.reset with pending := [.readMemory 0xFFFE (0xFFFE + BitVec.ofNat 16 1)], running := false }
     s.fault = none ∧ s.quit = false ∧ (s.running = false ∨ s.batchLeft = 0) ∧ (0xFFFE#16).toNat + 1 < 0x10000 ∧
     ∀ k ≤ 1, s.plain (0xFFFE + BitVec.ofNat 16 k) = true) ∧
    ((0xFFFF#16).toNat + 0 < 0x10000 ∧ ∀ k ≤ 0, State.reset.plain (0xFFFF + BitVec.ofNat 16 k) = true) ∧
    (∃ t, memWrite 0x0300 0x42 { State.reset with batchLeft := 0 } = .ok ((), t)) :=
  ⟨by decide, by decide, _, rfl⟩

/-- JMP, the only instruction with a negative `OP_EXTRA`, and a taken branch. -/
theorem test_witness_CycleCost :
    (∃ u t, fetch (code [0x4C, 0x00, 0x20] []) = .ok (some (.jmpAbs 0x2000), u) ∧
      exec (.jmpAbs 0x2000) u = .next t ∧ 0 ≤ 2 + modeDelta .abs (indexedWrite .jmp .abs) + Config.reference.extra 0x4C) ∧
    (∃ u t, fetch (code [0xD0, 0x00] []) = .ok (some (.bne 0x00), u) ∧ exec (.bne 0x00) u = .next t ∧
      0 ≤ 2 + modeDelta .rel (indexedWrite .bne .rel) + Config.reference.extra 0xD0) :=
  ⟨⟨_, _, rfl, rfl, by decide⟩, _, _, rfl, rfl, by decide⟩

theorem test_witness_CyclesNeverDecrease :
    ∃ t, State.reset.cfg.opExtra = Config.referenceExtra ∧ step State.reset = .next t := ⟨_, rfl, rfl⟩

/-- The vector readable, and in a hole. -/
theorem test_witness_ConstructionState :
    (∃ t, readWord 0xFFFC (State.initial Config.reference PowerOn.reference []) = .ok (0x0000, t)) ∧
    (∃ e, readWord 0xFFFC (State.initial hole.cfg PowerOn.reference []) = .error e) := ⟨⟨_, rfl⟩, ⟨_, rfl⟩⟩

/-- The reset state steps, and meets the invariant: this serves the statements about every step. -/
theorem test_witness_InvariantKept : ∃ t, State.reset.Inv ∧ step State.reset = .next t := ⟨_, by decide, rfl⟩

/-- A halted state meets it too. -/
theorem test_witness_InvariantKept_halted :
    State.Inv { State.reset with running := false, haltInfo := some (0x0300, 0x02) } := by decide

theorem test_witness_RomNeverChanges :
    ∃ t, step (code [0x8D, 0x00, 0xD0] []) = .next t ∧ region State.reset.cfg 0xD000 = .rom := ⟨_, rfl, rfl⟩

theorem test_witness_EveryFaultIsRecorded : ∃ e, step { hole with pc := 0xF000 } = .fault e := ⟨_, rfl⟩

theorem test_witness_EveryInstructionCompletes :
    (∀ a, allRam.plain a = true ∧ forwarded allRam.cfg a = false) ∧ allRam.flags.d = false := by
  refine ⟨fun a => ?_, rfl⟩
  have h : region allRam.cfg a = .ram := by
    have hin : allRam.cfg.ramBase ≤ a.toNat ∧ a.toNat < allRam.cfg.ramBase + allRam.cfg.ramSize :=
      ⟨Nat.zero_le _, a.isLt⟩
    rw [region, if_pos hin]
  have hv : inVideo allRam.cfg a = false := rfl
  simp [State.plain, forwarded, hv, h]

/-! ### Where the accesses of a statement's fault clauses fail -/

/-- A machine with no region at all: every access is a decode violation. -/
def nowhere : State :=
  { State.reset with cfg := { Config.reference with ramSize := 0, romBase := 0, romSize := 0 } }

/-- A machine whose RAM is all bus window, so that the peer answers for the stack page too. -/
def peerRam (answers : List Exchange) : State :=
  { State.reset with peer := answers, cfg := { Config.reference with ramSize := 0 } }

/-- A machine whose stack page is a video window. -/
def videoStack (answers : List Exchange) : State :=
  { State.reset with peer := answers, cfg := { Config.reference with videoWindows := [(0x0100, 0x01FF)] } }

/-- Both ends of a window, and the addresses beside them; the bus window with its writes forwarded. -/
theorem test_forwarded :
    ([0x01FF, 0x0200].map (forwarded (videoStack []).cfg) = [true, false]) ∧
    ([0x00FF, 0x0100].map (forwarded (videoStack []).cfg) = [false, true]) ∧
    forwarded { Config.reference with forwardBusWindowWrites := true } 0xC000 = true := by decide

/-- The first and the second access of a word read. -/
theorem test_witness_WordReads_faults :
    (∃ t, memRead 0xEFFF hole = .ok (0x00, t) ∧ ∃ e, memRead (0xEFFF + 1) t = .error e) ∧
    (∃ t, memRead 0x00FF (peerRam [.ok 0x12, .fail]) = .ok (0x12, t) ∧
      ∃ e, memRead (if (0x00FF#16).setWidth 8 = 0xFF#8 then 0x00FF &&& 0xFF00 else 0x00FF + 1) t = .error e) ∧
    (∃ e, memRead 0xF000 hole = .error e) :=
  ⟨⟨_, rfl, _, rfl⟩, ⟨_, rfl, _, rfl⟩, _, rfl⟩

theorem test_witness_EffectiveAddresses_faults :
    ∃ e, readWordBug (BitVec.ofNat 16 0xFF) nowhere = .error e := ⟨_, rfl⟩

/-- The read after the resolver, and the resolver. -/
theorem test_witness_OperandAccess_faults :
    (∃ s1, resolve (.abs 0xF000) hole = .ok (0xF000, s1) ∧ ∃ e, memRead 0xF000 (s1.plusCycles 0) = .error e) ∧
    (∃ e, resolve (.indy 0xFF) nowhere = .error e) := ⟨⟨_, rfl, _, rfl⟩, _, rfl⟩

theorem test_witness_PushAndPull_words :
    (∃ t, push ((0x1234#16).extractLsb' 8 8) State.reset = .ok ((), t)) ∧
    (∃ e, push ((0x1234#16).extractLsb' 8 8) nowhere = .error e) ∧
    (∃ e, memWrite (BitVec.ofNat 16 (0x100 + 0xFF)) 0x42 nowhere = .error e) ∧
    (∃ t u, pull State.reset = .ok (0x00, t) ∧ pull t = .ok (0x00, u)) ∧
    (∃ e, pull nowhere = .error e) ∧
    (∃ t, pull (peerRam [.ok 0x12, .fail]) = .ok (0x12, t) ∧ ∃ e, pull t = .error e) :=
  ⟨⟨_, rfl⟩, ⟨_, rfl⟩, ⟨_, rfl⟩, ⟨_, _, rfl, rfl⟩, ⟨_, rfl⟩, _, rfl, _, rfl⟩

/-- ADC and SBC with D = 1 where the resolver's pointer is in no region. -/
theorem test_witness_decimal_resolver :
    let s := { nowhere with flags := { PowerOn.reference.flags with d := true } }
    ((Instr.adcIndx 0x10).mnemonic = .adc ∧ (Instr.adcIndx 0x10).operand = some (.indx 0x10)) ∧
    ((Instr.sbcIndx 0x10).mnemonic = .sbc ∧ (Instr.sbcIndx 0x10).operand = some (.indx 0x10)) ∧
    s.flags.d = true ∧ ∃ e, resolve (.indx 0x10) s = .error e := ⟨⟨rfl, rfl⟩, ⟨rfl, rfl⟩, rfl, _, rfl⟩

theorem test_witness_StoreResult_faults :
    ((Instr.staAbs 0xF000).operand = some (.abs 0xF000) ∧
      ∃ s1, resolve (.abs 0xF000) hole = .ok (0xF000, s1) ∧
        ∃ e, memWrite 0xF000 0x00 (s1.plusCycles (hole.cfg.extra 0x8D)) = .error e) ∧
    ((Instr.staIndy 0x10).operand = some (.indy 0x10) ∧ (Instr.staIndy 0x10).mnemonic ∈ [Mnemonic.sta, .stx, .sty] ∧
      ∃ e, resolve (.indy 0x10) nowhere = .error e) := ⟨⟨rfl, _, rfl, _, rfl⟩, rfl, by decide, _, rfl⟩

/-- The write fails after the read, and the read fails. -/
theorem test_witness_ReadModifyWriteResult_faults :
    (∃ s1 s2, resolve (.abs 0xC000) { State.reset with
        peer := [.ok 0x10, .fail], cfg := { Config.reference with forwardBusWindowWrites := true } } = .ok (0xC000, s1) ∧
      memRead 0xC000 (s1.plusCycles 2) = .ok (0x10, s2) ∧
      ∃ e, memWrite 0xC000 0x11 { s2 with flags := s2.flags.withNz 0x11 } = .error e) ∧
    (∃ s1, resolve (.abs 0xF000) hole = .ok (0xF000, s1) ∧
      ∃ e, memRead 0xF000 (s1.plusCycles (hole.cfg.extra 0xEE)) = .error e) :=
  ⟨⟨_, _, rfl, rfl, _, rfl⟩, _, rfl, _, rfl⟩

theorem test_witness_stack_faults :
    (∃ e, memWrite (stackAddress 0xFF) 0x00 (nowhere.plusCycles (nowhere.cfg.extra 0x48)) = .error e) ∧
    (∃ e, memWrite (stackAddress 0xFF) (statusByte nowhere.flags) (nowhere.plusCycles (nowhere.cfg.extra 0x08)) =
      .error e) ∧
    (∃ e, memRead (stackAddress (0xFF + 1)) { nowhere.plusCycles (nowhere.cfg.extra 0x68) with sp := 0xFF + 1 } =
      .error e) ∧
    (∃ e, memRead (stackAddress (0xFF + 1)) { nowhere.plusCycles (nowhere.cfg.extra 0x28) with sp := 0xFF + 1 } =
      .error e) ∧
    (∃ e, pushWord (nowhere.pc - 1) (nowhere.plusCycles (nowhere.cfg.extra 0x20)) = .error e) ∧
    (∃ e, pullWord (nowhere.plusCycles (nowhere.cfg.extra 0x60)) = .error e) :=
  ⟨⟨_, rfl⟩, ⟨_, rfl⟩, ⟨_, rfl⟩, ⟨_, rfl⟩, ⟨_, rfl⟩, _, rfl⟩

theorem test_witness_JumpResult_fault :
    (Instr.jmpInd 0x10FF).mnemonic = .jmp ∧ (Instr.jmpInd 0x10FF).operand = some (.ind 0x10FF) ∧
      ∃ e, resolve (.ind 0x10FF) nowhere = .error e := ⟨rfl, rfl, _, rfl⟩

/-- The pushes of the address, the push of the status byte after them, and the vector. -/
theorem test_witness_BrkResult_faults :
    (∃ e, pushWord (nowhere.pc + 1) (nowhere.plusCycles (nowhere.cfg.extra 0x00)) = .error e) ∧
    (let s := videoStack [.ok 0x00, .ok 0x00, .fail]
     ∃ t, pushWord (s.pc + 1) (s.plusCycles (s.cfg.extra 0x00)) = .ok ((), t) ∧
      ∃ e, push (statusByte s.flags) t = .error e) ∧
    (∃ t u, pushWord (hole.pc + 1) (hole.plusCycles (hole.cfg.extra 0x00)) = .ok ((), t) ∧
      push (statusByte hole.flags) t = .ok ((), u) ∧
      ∃ e, readWord 0xFFFE { u with flags := { hole.flags with b := true, i := hole.flags.i || hole.cfg.brkSetsI } } =
        .error e) := ⟨⟨_, rfl⟩, ⟨_, rfl, _, rfl⟩, _, _, rfl, rfl, _, rfl⟩

theorem test_witness_RtiResult_faults :
    (∃ e, pull (nowhere.plusCycles (nowhere.cfg.extra 0x40)) = .error e) ∧
    (let s := peerRam [.ok 0x12, .fail]
     ∃ t, pull (s.plusCycles (s.cfg.extra 0x40)) = .ok (0x12, t) ∧
      ∃ e, pullWord { t with flags := setStatus 0x12 } = .error e) := ⟨⟨_, rfl⟩, _, rfl, _, rfl⟩

/-- An Absent opcode from the peer, and an opcode in the hole. -/
theorem test_witness_halt_bus :
    (let s := { State.reset with pc := 0xC000, peer := [.ok 0x02] }
     (∃ t, fetch s.countInstruction = .ok (none, t)) ∧ 0x02 ∈ absentOpcodes ∧
     ∃ t, memRead s.pc { s with
       cycles := s.cycles + 2
       batchLeft := (if s.batchLeft = 0 then s.cfg.batch else s.batchLeft) - 1 } = .ok (0x02, t)) ∧
    (let s := { hole with pc := 0xF000 }
     ∃ e, memRead s.pc { s with
       cycles := s.cycles + 2
       batchLeft := (if s.batchLeft = 0 then s.cfg.batch else s.batchLeft) - 1 } = .error e) :=
  ⟨⟨⟨_, rfl⟩, by decide, _, rfl⟩, _, rfl⟩

/-- Block accesses that reach the peer, and that end in the hole. -/
theorem test_witness_HostCommandEffects_blocks :
    let reads := fun (a : Word) (n : Nat) => ((List.range (n + 1)).map fun k => a + BitVec.ofNat 16 k).mapM memRead
    let writes := fun (a : Word) (bytes : List Byte) => bytes.zipIdx.forM fun p => memWrite (a + BitVec.ofNat 16 p.2) p.1
    (∃ t, reads 0xBFFF 1 { State.reset with peer := [.ok 0x7F] } = .ok ([0x00, 0x7F], t)) ∧
    (∃ e, reads 0xEFFF 1 hole = .error e) ∧
    (∃ t, writes 0x0200 [0x01, 0x02] State.reset = .ok ((), t)) ∧
    (∃ e, writes 0xEFFF [0x01, 0x02] hole = .error e) ∧
    (∃ t, disassemble 1 0x0300 (code [0xA9, 0x40] []) = .ok ([(0x0300, some (.ldaImm 0x40))], t)) ∧
    (∃ e, disassemble 1 0xF000 hole = .error e) :=
  ⟨⟨_, rfl⟩, ⟨_, rfl⟩, ⟨_, rfl⟩, ⟨_, rfl⟩, ⟨_, rfl⟩, _, rfl⟩

/-- The accesses of one line, each in turn. -/
theorem test_witness_HostCommandEffects_lines :
    let operands := fun (a : Word) (n : Nat) => ((List.range n).map fun k => a + 1 + BitVec.ofNat 16 k).mapM memRead
    (∃ e, memRead 0xF000 hole = .error e) ∧
    (let s := { hole with mem := Memory.write [] 0xEFFF 0xA9 }
     ∃ t, memRead 0xEFFF s = .ok (0xA9, t) ∧ opcodeLength 0xA9 = some 2 ∧ ∃ e, operands 0xEFFF 1 t = .error e) ∧
    (let s := { hole with mem := Memory.write [] 0xEFFE 0xA9 }
     ∃ t, memRead 0xEFFE s = .ok (0xA9, t) ∧ ∃ v, operands 0xEFFE 1 t = .ok ([0x00], v) ∧
      ∃ e, disassemble 1 (0xEFFE + BitVec.ofNat 16 2) v = .error e) ∧
    (∃ t v w, memRead 0x0300 (code [0xA9, 0x40] []) = .ok (0xA9, t) ∧ operands 0x0300 1 t = .ok ([0x40], v) ∧
      disassemble 0 (0x0300 + BitVec.ofNat 16 2) v = .ok ([], w)) ∧
    (decode [0xA9, 0x40] = .ok (.ldaImm 0x40, []) ∧ 0x02 ∈ absentOpcodes) :=
  ⟨⟨_, rfl⟩, ⟨_, rfl, rfl, _, rfl⟩, ⟨_, rfl, _, rfl, _, rfl⟩, ⟨_, _, _, rfl, rfl, rfl⟩, rfl, by decide⟩

/-- An opcode in its group of the cycles column (30_encoding.md R96, JMP abs: 3). -/
theorem test_witness_CycleCost_column : ∃ p ∈ cyclesColumn, (Instr.jmpAbs 0x2000).opcode ∈ p.2 ∧ p.1 = 3 := by decide

/-- A preloaded RAM byte and the reset vector from a ROM image (R300). -/
theorem test_construct_images :
    let cfg := { Config.reference with ramBase := 0x0000, ramSize := 0x0200, romBase := 0xFFFC, romSize := 4 }
    cfg.wf = true ∧
    (match construct cfg PowerOn.reference [0x00, 0x42] [0x34, 0x12, 0x00, 0x00] none with
     | .next t => some (t.pc, t.byteAt 0x0001)
     | _ => none) = some (0x1234, 0x42) := by decide

theorem test_witness_TraceOnlyGrows :
    (∃ t, State.reset.plain 0xBFFF = true ∧ memRead 0xBFFF State.reset = .ok (0x00, t)) ∧
    (∃ t, forwarded State.reset.cfg 0xC000 = false ∧ memWrite 0xC000 0x42 State.reset = .ok ((), t)) :=
  ⟨⟨_, rfl, rfl⟩, _, rfl, rfl⟩

/-- A fault after the fetch and after the resolver; a read and a write that fail. -/
theorem test_witness_EveryFaultIsRecorded_precision :
    (let s := code [0xAD, 0x00, 0xC0] []
     ∃ u v, fetch (State.countInstruction { s with peer := [.fail] }) = .ok (some (.ldaAbs 0xC000), u) ∧
      (∃ f, step { s with peer := [.fail] } = .fault f) ∧ resolve (.abs 0xC000) u = .ok (0xC000, v)) ∧
    (∃ f, memRead 0xF000 hole = .error f) ∧ (∃ f, memWrite 0xF000 0x42 hole = .error f) :=
  ⟨⟨_, _, rfl, ⟨_, rfl⟩, rfl⟩, ⟨_, rfl⟩, _, rfl⟩

end Sys2Proof.Tests
end

section
/-! PROOF. The region decode (20_memory.md R51): one equation per outcome of `region`, in the order it tests them. -/

namespace Sys2Proof.Machine

section
variable {c : Config} {a : Word}

/-- The RAM window is asked first: nothing is said of the ROM. -/
theorem region_of_inRam (hram : c.ramBase ≤ a.toNat ∧ a.toNat < c.ramBase + c.ramSize) : region c a = .ram :=
  if_pos hram

theorem region_of_below_rom (hram : ¬ (c.ramBase ≤ a.toNat ∧ a.toNat < c.ramBase + c.ramSize))
    (hlo : a.toNat < c.romBase) : region c a = .bus := by
  rw [region, if_neg hram, if_pos hlo]

theorem region_of_in_rom (hram : ¬ (c.ramBase ≤ a.toNat ∧ a.toNat < c.ramBase + c.ramSize))
    (hlo : c.romBase ≤ a.toNat) (hhi : a.toNat < c.romBase + c.romSize) : region c a = .rom := by
  rw [region, if_neg hram, if_neg hlo.not_gt, if_pos hhi]

theorem region_of_past_rom (hram : ¬ (c.ramBase ≤ a.toNat ∧ a.toNat < c.ramBase + c.ramSize))
    (hlo : c.romBase ≤ a.toNat) (hhi : c.romBase + c.romSize ≤ a.toNat) : region c a = .unmapped := by
  rw [region, if_neg hram, if_neg hlo.not_gt, if_neg hhi.not_gt]

end

/-- The reference ROM ends at the top of the space, so no address is past it. -/
theorem region_reference (a : Word) :
    region Config.reference a = if a.toNat < 0xC000 then .ram else if a.toNat < 0xD000 then .bus else .rom := by
  have htop : a.toNat < 0xD000 + 0x3000 := a.isLt
  split_ifs with hram hbus
  · exact region_of_inRam ⟨Nat.zero_le _, hram⟩
  · exact region_of_below_rom (fun h => hram h.2) hbus
  · exact region_of_in_rom (fun h => hram h.2) (Nat.le_of_not_lt hbus) htop

/-- Settles O6: `region` tests RAM, the bus window and ROM in this order, and each clause is one outcome of it. -/
theorem regionPrecedence : Obligations.RegionPrecedence :=
  ⟨region_reference, fun _ _ => ⟨region_of_inRam, region_of_below_rom, region_of_in_rom, region_of_past_rom⟩⟩

end Sys2Proof.Machine
end

section
/-! PROOF. The flag engine (40_alu.md R140, R141): the result byte and its Z and N, of any integer. -/

namespace Sys2Proof.Machine

/-- `mod256` is the mathematical remainder, also of a negative integer. -/
theorem toNat_mod256 (v : Int) : ((mod256 v).toNat : Int) = v % 256 := by
  have hnonneg : 0 ≤ v % 256 := Int.emod_nonneg v (by decide)
  simpa [mod256, BitVec.toNat_ofInt] using hnonneg

theorem mod256_beq_zero (v : Int) : (mod256 v == 0) = decide (v % 256 = 0) := by
  rw [← toNat_mod256, beq_eq_decide, decide_eq_decide, ← BitVec.toNat_inj]
  exact Int.natCast_eq_zero.symm

/-- Bit 7 is the upper half of the byte. -/
theorem getLsbD_seven_mod256 (v : Int) : (mod256 v).getLsbD 7 = decide (128 ≤ v % 256) := by
  have hmsb : (mod256 v).getLsbD 7 = (mod256 v).msb := (BitVec.msb_eq_getLsbD_last _).symm
  rw [← toNat_mod256, hmsb, BitVec.msb_eq_decide, decide_eq_decide]
  exact Nat.cast_le.symm

theorem updateNz_snd (v : Int) (f : Flags) :
    (updateNz v f).2 = { f with z := decide (v % 256 = 0), n := decide (128 ≤ v % 256) } := by
  rw [← mod256_beq_zero, ← getLsbD_seven_mod256]
  rfl

/-- Settles O16: `updateNzc` is `updateNz` after setting C, so both rest on the value, zero test and bit 7 of `mod256`. -/
theorem updateNzArithmetic : Obligations.UpdateNzArithmetic :=
  fun v f => ⟨⟨toNat_mod256 v, updateNz_snd v f⟩, toNat_mod256 v, updateNz_snd v _⟩

end Sys2Proof.Machine
end

section
/-! PROOF. The compares and BIT (40_alu.md R148 to R151): their encodings, their flags, and their one operand load. -/

namespace Sys2Proof.Machine

variable {i : Instr} {o : Operand} {op m : Byte} {s t : State}

theorem mode_of_operand (ho : i.operand = some o) : i.mode = o.mode := by
  rw [Instr.mode, ho]

/-! ### Encodings -/

/-- The forms of CMP, CPX and CPY with their opcodes (30_encoding.md R95). -/
def compareForms : List (Mnemonic × Mode × Byte) :=
  [(.cmp, .imm, 0xC9), (.cmp, .zp, 0xC5), (.cmp, .zpx, 0xD5), (.cmp, .abs, 0xCD), (.cmp, .absx, 0xDD),
   (.cmp, .absy, 0xD9), (.cmp, .indx, 0xC1), (.cmp, .indy, 0xD1), (.cpx, .imm, 0xE0), (.cpx, .zp, 0xE4),
   (.cpx, .abs, 0xEC), (.cpy, .imm, 0xC0), (.cpy, .zp, 0xC4), (.cpy, .abs, 0xCC)]

theorem mem_compareForms (hm : i.mnemonic = .cmp ∨ i.mnemonic = .cpx ∨ i.mnemonic = .cpy) :
    (i.mnemonic, i.mode, i.opcode) ∈ compareForms :=
  instr_of_rows (P := fun op mn mode => mn = .cmp ∨ mn = .cpx ∨ mn = .cpy → (mn, mode, op) ∈ compareForms)
    (by decide +kernel) i hm

theorem mem_bitForms (hm : i.mnemonic = .bit) : (i.mode, i.opcode) ∈ [(.zp, 0x24), (.abs, 0x2C)] :=
  instr_of_rows (P := fun op mn mode => mn = .bit → (mode, op) ∈ [(Mode.zp, (0x24 : Byte)), (.abs, 0x2C)])
    (by decide +kernel) i hm

/-! ### Flags -/

/-- The byte of the raw difference is the difference of the bytes. -/
theorem mod256_toNat_sub (r m : Byte) : mod256 ((r.toNat : Int) - m.toNat) = r - m := by
  apply BitVec.eq_of_toNat_eq
  have hmod := toNat_mod256 ((r.toNat : Int) - m.toNat)
  have hm := m.isLt
  rw [BitVec.toNat_sub]
  omega

/-- No borrow exactly when the register is not below the operand; Z when the two are equal. -/
theorem compareFlags_eq (r m : Byte) (f : Flags) :
    compareFlags r m f =
      { f with c := decide (m.toNat ≤ r.toNat), z := decide (r = m), n := (r - m).getLsbD 7 } := by
  have hc : decide (0 ≤ (r.toNat : Int) - m.toNat) = decide (m.toNat ≤ r.toNat) := by
    rw [decide_eq_decide]
    omega
  have hz : (r - m == 0) = decide (r = m) := by
    rw [beq_eq_decide, decide_eq_decide, sub_eq_zero]
  simp only [compareFlags, updateNz, mod256_toNat_sub, hc, hz]

/-! ### The meanings, by how the operand load ends -/

/-- The register that a compare reads (R148 to R150). -/
def compareReg (mn : Mnemonic) (s : State) : Byte :=
  if mn = .cmp then s.a else if mn = .cpx then s.x else s.y

theorem instrAction_compare (ho : i.operand = some o)
    (hm : i.mnemonic = .cmp ∨ i.mnemonic = .cpx ∨ i.mnemonic = .cpy) :
    instrAction i = compare (compareReg i.mnemonic) i.opcode o := by
  rcases hm with hm | hm | hm <;> rw [instrAction, hm, ho] <;> rfl

theorem instrAction_bit (ho : i.operand = some o) (hm : i.mnemonic = .bit) :
    instrAction i = bitTest i.opcode o := by
  rw [instrAction, hm, ho]

theorem compareReg_of_onlyBus (h : OnlyBus s t) (mn : Mnemonic) : compareReg mn t = compareReg mn s := by
  rw [h]
  rfl

theorem a_of_onlyBus (h : OnlyBus s t) : t.a = s.a := by
  rw [h]

theorem flags_of_onlyBus (h : OnlyBus s t) : t.flags = s.flags := by
  rw [h]

theorem compare_of_load (reg : State → Byte) (h : loadOperand op o s = .ok (m, t)) :
    compare reg op o s = .ok ((), { t with flags := compareFlags (reg t) m t.flags }) :=
  act_bind_ok h _

theorem bitTest_of_load (h : loadOperand op o s = .ok (m, t)) :
    bitTest op o s = .ok ((), { t with flags := bitFlags t.a m t.flags }) :=
  act_bind_ok h _

/-- Settles O22: the opcode by the decode table, and the flags of the raw difference; the load changes no register, so
the register compared is the one before it. -/
theorem compareResult : Obligations.CompareResult := by
  intro i o s ho hm
  refine ⟨mode_of_operand ho ▸ mem_compareForms hm, fun m t h => ?_, fun e h => ?_⟩
  · have hb : OnlyBus s t := (loadOperand_ok h).1
    rw [exec_next, instrAction_compare ho hm, compare_of_load _ h, compareReg_of_onlyBus hb, flags_of_onlyBus hb,
      compareFlags_eq]
    rfl
  · rw [exec_fault, instrAction_compare ho hm]
    exact act_bind_error h _

/-- Settles O23: the opcode by the decode table, and `bitFlags` of A and the flags before the load. -/
theorem bitResult : Obligations.BitResult := by
  intro i o s hm ho
  refine ⟨mode_of_operand ho ▸ mem_bitForms hm, fun m t h => ?_, fun e h => ?_⟩
  · have hb : OnlyBus s t := (loadOperand_ok h).1
    rw [exec_next, instrAction_bit ho hm, bitTest_of_load h, a_of_onlyBus hb, flags_of_onlyBus hb]
    rfl
  · rw [exec_fault, instrAction_bit ho hm]
    exact act_bind_error h _

end Sys2Proof.Machine
end

section
/-! PROOF. The encoding (30_encoding.md sections 1 and 2): the encoder and the decoder undo each other, which opcodes
are Absent, and the lengths. -/

namespace Sys2Proof

/-! ### Operand bytes and rows -/

theorem length_bytes (o : Operand) : o.bytes.length = o.mode.operandBytes := by
  cases o <;> rfl

/-- An instruction has as many operand bytes as its mode says (R91). -/
theorem length_operandBytes (i : Instr) : i.operandBytes.length = i.mode.operandBytes := by
  rw [Instr.operandBytes, Instr.mode]
  cases i.operand with
  | some o => exact length_bytes o
  | none => cases i.mnemonic.isShift <;> rfl

/-- Exactly as many bytes as the mode says are taken, and the row builds of them. -/
theorem assemble_append {r : Row} {bytes : List Byte} (h : bytes.length = r.mode.operandBytes) (rest : List Byte) :
    r.assemble (bytes ++ rest) = .ok (r.build (bytes.getD 0 0) (bytes.getD 1 0), rest) := by
  have two : r.mode.operandBytes ≤ 2 := by cases r.mode <;> decide
  rw [← h] at two
  unfold Row.assemble
  rw [← h]
  match bytes, two with
  | [], _ | [_], _ | [_, _], _ => rfl

/-- The row of an instruction's opcode builds that instruction of its own operand bytes: where the operand is
a word, the row puts it together again. -/
theorem build_operandBytes_of_word {i : Instr} (h : i.mode.operandBytes = 2) :
    some i = (lookup i.opcode).map fun r => r.build (i.operandBytes.getD 0 0) (i.operandBytes.getD 1 0) := by
  have hw : ∀ (f : Word → Instr) (w : Word), some (f w) = some (f (word (loByte w) (hiByte w))) := fun f w => by
    rw [word_loByte_hiByte]
  cases i with
  | adcAbs w | adcAbsx w | adcAbsy w | sbcAbs w | sbcAbsx w | sbcAbsy w | andAbs w | andAbsx w | andAbsy w
  | oraAbs w | oraAbsx w | oraAbsy w | eorAbs w | eorAbsx w | eorAbsy w | cmpAbs w | cmpAbsx w | cmpAbsy w
  | cpxAbs w | cpyAbs w | bitAbs w | ldaAbs w | ldaAbsx w | ldaAbsy w | ldxAbs w | ldxAbsy w | ldyAbs w
  | ldyAbsx w | staAbs w | staAbsx w | staAbsy w | stxAbs w | styAbs w | aslAbs w | aslAbsx w | lsrAbs w
  | lsrAbsx w | rolAbs w | rolAbsx w | rorAbs w | rorAbsx w | incAbs w | incAbsx w | decAbs w | decAbsx w
  | jmpAbs w | jmpInd w | jsr w => exact hw _ w
  | _ => cases h

/-- Where it is a byte or nothing, there is nothing to put together. -/
theorem build_operandBytes_of_not_word {i : Instr} (h : i.mode.operandBytes ≠ 2) :
    some i = (lookup i.opcode).map fun r => r.build (i.operandBytes.getD 0 0) (i.operandBytes.getD 1 0) := by
  cases i <;> first | exact absurd rfl h | rfl

theorem build_operandBytes (i : Instr) :
    some i = (lookup i.opcode).map fun r => r.build (i.operandBytes.getD 0 0) (i.operandBytes.getD 1 0) :=
  (em (i.mode.operandBytes = 2)).elim build_operandBytes_of_word build_operandBytes_of_not_word

theorem decode_cons_of_lookup {op : Byte} {r : Row} (h : lookup op = some r) (bytes : List Byte) :
    decode (op :: bytes) = r.assemble bytes := by
  rw [decode, h]

/-- Settles O1: the row of the opcode takes exactly the operand bytes and builds the instruction again. -/
theorem decodeOfEncode : Obligations.DecodeOfEncode := by
  intro i rest
  obtain ⟨r, -, hl, -, hmode⟩ := row_of_instr i
  have hlen : i.operandBytes.length = r.mode.operandBytes := hmode ▸ length_operandBytes i
  have hbuild : r.build (i.operandBytes.getD 0 0) (i.operandBytes.getD 1 0) = i :=
    (Option.some.inj ((build_operandBytes i).trans (congrArg _ hl))).symm
  rw [encode, List.cons_append, decode_cons_of_lookup hl, assemble_append hlen, hbuild]

/-- What a row assembles, it builds of exactly the operand bytes taken. -/
theorem assemble_eq_ok {r : Row} {bytes rest : List Byte} {i : Instr} (h : r.assemble bytes = .ok (i, rest)) :
    ∃ lo hi, i = r.build lo hi ∧ bytes = [lo, hi].take r.mode.operandBytes ++ rest := by
  unfold Row.assemble at h
  split at h <;> rename_i hn
  · simp only [Except.ok.injEq, Prod.mk.injEq] at h
    exact ⟨0, 0, h.1.symm, by rw [hn, ← h.2]; rfl⟩
  · simp only [Except.ok.injEq, Prod.mk.injEq] at h
    exact ⟨_, _, h.1.symm, by rw [hn, ← h.2]; rfl⟩
  · simp only [Except.ok.injEq, Prod.mk.injEq] at h
    exact ⟨_, _, h.1.symm, by rw [hn, ← h.2]; rfl⟩
  · cases h

/-- The operand bytes a row builds of are those of what it builds. -/
theorem operandBytes_build {r : Row} (h : r ∈ decodeTable) (lo hi : Byte) :
    (r.build lo hi).operandBytes = [lo, hi].take r.mode.operandBytes := by
  revert h r
  unfold decodeTable decodeTable01 decodeTable23 decodeTable45 decodeTable67 decodeTable89 decodeTableAB decodeTableCD
    decodeTableEF
  simp only [List.cons_append, List.nil_append, List.forall_mem_cons, List.not_mem_nil,
    false_imp_iff, implies_true, and_true]
  simp [Instr.operandBytes, Instr.operand, Operand.bytes, Mode.operandBytes]

/-- Settles O2: the row found has the opcode byte, and the bytes it takes are the operand bytes of what it builds. -/
theorem encodeOfDecode : Obligations.EncodeOfDecode := by
  intro bytes rest i h
  obtain ⟨op, tail, r, rfl, hl, ha⟩ := decode_ok h
  obtain ⟨lo, hi, rfl, rfl⟩ := assemble_eq_ok ha
  obtain ⟨hr, hop⟩ := lookup_some hl
  rw [encode, (row_build hr lo hi).1, hop, operandBytes_build hr, List.cons_append]

/-! ### Absent opcodes -/

theorem assemble_ne_absentOpcode (r : Row) (bytes : List Byte) (op : Byte) :
    r.assemble bytes ≠ .error (.absentOpcode op) := by
  unfold Row.assemble
  split <;> simp

/-- A list of opcodes as the bits of one number, so that comparing two lists is one arithmetic fact. -/
def opcodeMask : List Byte → Nat
  | [] => 0
  | op :: ops => 2 ^ op.toNat ||| opcodeMask ops

theorem testBit_opcodeMask (op : Byte) : ∀ ops : List Byte, (opcodeMask ops).testBit op.toNat = decide (op ∈ ops)
  | [] => by simp [opcodeMask]
  | b :: ops => by
    have hb : decide (b.toNat = op.toNat) = decide (op = b) := by
      rw [decide_eq_decide, BitVec.toNat_inj, eq_comm]
    simp [opcodeMask, testBit_opcodeMask op ops, Nat.testBit_two_pow, hb]

/-- The listed Absent opcodes and the opcodes of the table are complementary. -/
theorem xor_opcodeMask :
    opcodeMask absentOpcodes ^^^ opcodeMask (decodeTable.map Row.opcode) = 2 ^ 256 - 1 := by
  decide +kernel

theorem lookup_eq_none_iff (op : Byte) : lookup op = none ↔ op ∈ absentOpcodes := by
  have hnone : lookup op = none ↔ op ∉ decodeTable.map Row.opcode := by
    simp [lookup]
  have hbit := congrArg (Nat.testBit · op.toNat) xor_opcodeMask
  have hlt : op.toNat < 256 := op.isLt
  simp only [Nat.testBit_xor, testBit_opcodeMask, Nat.testBit_two_pow_sub_one, hlt, decide_true] at hbit
  rw [hnone]
  by_cases hm : op ∈ absentOpcodes <;> simpa [hm] using hbit

/-- Settles O3: only a failed lookup is refused as Absent, and the lookup fails at exactly the listed bytes. -/
theorem absentOpcodesAreTheListed : Obligations.AbsentOpcodesAreTheListed := by
  intro op rest
  rw [← lookup_eq_none_iff, decode]
  cases lookup op with
  | none => simp
  | some r => simpa using assemble_ne_absentOpcode r rest op

/-- Settles O4: each of the words is decoded as it stands. -/
theorem specWordsDecode : Obligations.SpecWordsDecode :=
  ⟨rfl, rfl, rfl, rfl, rfl, rfl, rfl, rfl, rfl, rfl⟩

/-! ### Lengths -/

theorem length_encode (i : Instr) : (encode i).length = 1 + i.mode.operandBytes := by
  rw [encode, List.length_cons, length_operandBytes, Nat.add_comm]

/-- Settles O5: the row of the opcode has the instruction's mode. -/
theorem lengthFromOpcode : Obligations.LengthFromOpcode := by
  intro i
  obtain ⟨r, -, hl, -, hmode⟩ := row_of_instr i
  refine ⟨?_, length_encode i⟩
  rw [opcodeLength, hl, length_encode, ← hmode]
  rfl

end Sys2Proof
end

section
/-! PROOF. What every step keeps: ROM, the trace, the invariant and the order of `cycles` (10_state.md sections 4 and 6,
20_memory.md sections 2 and 8, 30_encoding.md section 4). Each is a relation that every kind of write keeps. -/

namespace Sys2Proof.Machine

variable {s t : State}

/-! ### ROM (20_memory.md R57) -/

/-- The parameters and every ROM byte are as before. -/
def RomKept (s t : State) : Prop :=
  t.cfg = s.cfg ∧ ∀ a, region s.cfg a = .rom → t.byteAt a = s.byteAt a

theorem romKept_of_mem (hc : t.cfg = s.cfg) (hm : t.mem = s.mem) : RomKept s t :=
  ⟨hc, fun a _ => byteAt_congr hm a⟩

theorem romKept_frameRel : FrameRel RomKept where
  trans h g := ⟨g.1.trans h.1, fun a ha => (g.2 a (h.1 ▸ ha)).trans (h.2 a ha)⟩
  bus h _ := romKept_of_mem (by rw [h]) (by rw [h])

/-- A store to RAM writes at a RAM address, a store elsewhere writes nothing. -/
theorem romKept_storeRam (s : State) (a : Word) (v : Byte) : RomKept s (s.storeRam a v) := by
  refine ⟨storeRam_cfg s a v, fun c hc => ?_⟩
  by_cases ha : region s.cfg a = .ram
  · refine storeRam_byteAt_other s v fun e => ?_
    rw [e, ha] at hc
    cases hc
  · rw [storeRam_of_not_ram ha]

theorem romKept_allKeep : AllKeep RomKept where
  a _ _ := romKept_of_mem rfl rfl
  x _ _ := romKept_of_mem rfl rfl
  y _ _ := romKept_of_mem rfl rfl
  sp _ _ := romKept_of_mem rfl rfl
  pc _ _ := romKept_of_mem rfl rfl
  flags _ _ := romKept_of_mem rfl rfl
  store := romKept_storeRam
  queue _ _ _ := romKept_of_mem rfl rfl
  responses _ _ := romKept_of_mem rfl rfl
  halt _ _ _ := romKept_of_mem rfl rfl
  reset _ _ := romKept_of_mem rfl rfl
  quit _ := romKept_of_mem rfl rfl

/-- Settles O57: only stores touch memory, and a store takes effect at a RAM address alone. -/
theorem romNeverChanges : Obligations.RomNeverChanges := by
  intro s t a h ha
  obtain ⟨hc, hm⟩ := step_keeps romKept_frameRel romKept_allKeep h
  exact ⟨hc ▸ ha, hm a ha⟩

/-! ### The trace and the parameters (20_memory.md R77) -/

/-- The trace only grows at its end, and the parameters are as before. -/
def TraceKept (s t : State) : Prop :=
  s.trace <+: t.trace ∧ t.cfg = s.cfg

theorem traceKept_of_eq (ht : t.trace = s.trace) (hc : t.cfg = s.cfg) : TraceKept s t :=
  ⟨ht ▸ List.prefix_refl _, hc⟩

theorem traceKept_frameRel : FrameRel TraceKept where
  trans h g := ⟨h.1.trans g.1, g.2.trans h.2⟩
  bus h ht := ⟨ht, by rw [h]⟩

theorem traceKept_allKeep : AllKeep TraceKept where
  a _ _ := traceKept_of_eq rfl rfl
  x _ _ := traceKept_of_eq rfl rfl
  y _ _ := traceKept_of_eq rfl rfl
  sp _ _ := traceKept_of_eq rfl rfl
  pc _ _ := traceKept_of_eq rfl rfl
  flags _ _ := traceKept_of_eq rfl rfl
  store s a v := traceKept_of_eq (storeRam_trace s a v) (storeRam_cfg s a v)
  queue _ _ _ := traceKept_of_eq rfl rfl
  responses _ _ := traceKept_of_eq rfl rfl
  halt _ _ _ := traceKept_of_eq rfl rfl
  reset _ _ := traceKept_of_eq rfl rfl
  quit _ := traceKept_of_eq rfl rfl

/-- A write that is not forwarded is its RAM side. -/
theorem memWrite_of_not_forwarded {a : Word} {v : Byte} (hr : region s.cfg a ≠ .unmapped)
    (hf : forwarded s.cfg a = false) : memWrite a v s = .ok ((), s.storeRam a v) := by
  simp [memWrite, hr, hf]

/-- Settles O58: no write of a step shortens the trace; a plain read is the byte alone, and a write that is
not forwarded the RAM side alone. -/
theorem traceOnlyGrows : Obligations.TraceOnlyGrows := by
  refine ⟨fun s t h => step_keeps traceKept_frameRel traceKept_allKeep h, fun s t a v hp h => ?_,
    fun s t a v hf h => ?_⟩
  · rw [memRead_plain hp, Except.ok.injEq, Prod.mk.injEq] at h
    rw [← h.2]
  · by_cases hr : region s.cfg a = .unmapped
    · rw [memWrite, if_pos hr] at h
      exact absurd h raise_ne_ok
    · rw [memWrite_of_not_forwarded hr hf, Except.ok.injEq, Prod.mk.injEq] at h
      rw [← h.2, storeRam_trace]

/-! ### The invariant -/

/-- What every write keeps of the invariant, with the parameters: the canonical form, the loop stopped exactly while a
halt is recorded, and the fault record. -/
def RunStateKept (s t : State) : Prop :=
  (Memory.wf s.mem = true → Memory.wf t.mem = true) ∧
    (s.running = s.haltInfo.isNone → t.running = t.haltInfo.isNone) ∧ t.fault = s.fault ∧ t.cfg = s.cfg

theorem runStateKept_frameRel : FrameRel RunStateKept where
  trans h g :=
    ⟨g.1 ∘ h.1, g.2.1 ∘ h.2.1, g.2.2.1.trans h.2.2.1, g.2.2.2.trans h.2.2.2⟩
  bus h _ := by
    rw [h]
    exact ⟨id, id, rfl, rfl⟩

theorem runStateKept_allKeep : AllKeep RunStateKept where
  a _ _ := ⟨id, id, rfl, rfl⟩
  x _ _ := ⟨id, id, rfl, rfl⟩
  y _ _ := ⟨id, id, rfl, rfl⟩
  sp _ _ := ⟨id, id, rfl, rfl⟩
  pc _ _ := ⟨id, id, rfl, rfl⟩
  flags _ _ := ⟨id, id, rfl, rfl⟩
  store s a v := ⟨fun h => storeRam_wf h a v, by simp, storeRam_fault s a v, storeRam_cfg s a v⟩
  queue _ _ _ := ⟨id, id, rfl, rfl⟩
  responses _ _ := ⟨id, id, rfl, rfl⟩
  halt _ _ _ := ⟨id, fun _ => rfl, rfl, rfl⟩
  reset _ _ := ⟨id, fun _ => rfl, rfl, rfl⟩
  quit _ := ⟨id, id, rfl, rfl⟩

/-- The batch count and the parameters are as before: of the writes of a step, only counting an instruction
and servicing a command set the count. -/
def BatchKept (s t : State) : Prop :=
  t.batchLeft = s.batchLeft ∧ t.cfg = s.cfg

theorem batchKept_frameRel : FrameRel BatchKept where
  trans h g := ⟨g.1.trans h.1, g.2.trans h.2⟩
  bus h _ := by
    rw [h]
    exact ⟨rfl, rfl⟩

theorem batchKept_storeRam (s : State) (a : Word) (v : Byte) : BatchKept s (s.storeRam a v) :=
  ⟨storeRam_batchLeft s a v, storeRam_cfg s a v⟩

theorem fetch_batchKept : fetch.Keeps BatchKept :=
  fetch_keeps batchKept_frameRel (fun _ _ => ⟨rfl, rfl⟩) fun _ _ _ => ⟨rfl, rfl⟩

theorem instrAction_batchKept (i : Instr) : (instrAction i).Keeps BatchKept :=
  instrAction_keeps batchKept_frameRel
    { a := fun _ _ _ => ⟨rfl, rfl⟩
      x := fun _ _ _ => ⟨rfl, rfl⟩
      y := fun _ _ _ => ⟨rfl, rfl⟩
      sp := fun _ _ _ => ⟨rfl, rfl⟩
      flags := fun _ _ _ => ⟨rfl, rfl⟩
      pc := fun _ _ _ => ⟨rfl, rfl⟩
      store := fun _ => batchKept_storeRam }

theorem runCommand_batchKept (c : HostCommand) : (runCommand c).Keeps BatchKept :=
  runCommand_keeps batchKept_frameRel batchKept_storeRam (fun _ _ => ⟨rfl, rfl⟩) (fun _ _ => ⟨rfl, rfl⟩)
    (fun _ => ⟨rfl, rfl⟩) c

/-- Counting an instruction leaves less than a batch, or nothing of an empty one. -/
theorem countInstruction_batchLeft_le (h : s.batchLeft ≤ s.cfg.batch) :
    s.countInstruction.batchLeft ≤ s.cfg.batch := by
  rw [State.countInstruction]
  dsimp only
  split <;> omega

/-- A step leaves at most a batch. -/
theorem step_batchLeft_le (hb : s.batchLeft ≤ s.cfg.batch) (h : step s = .next t) : t.batchLeft ≤ t.cfg.batch := by
  have hcount := countInstruction_batchLeft_le hb
  obtain ⟨-, rfl | ⟨-, hnone⟩ | ⟨-, i, u, hsome, hexec⟩ | ⟨c, rest, -, hcmd⟩⟩ := step_next h
  · exact hb
  · obtain ⟨e1, e2⟩ := fetch_batchKept _ _ _ hnone
    rw [e1, e2]
    exact hcount
  · obtain ⟨e1, e2⟩ := batchKept_frameRel.trans (fetch_batchKept _ _ _ hsome)
      (instrAction_batchKept i _ _ _ (exec_next.mp hexec))
    rw [e1, e2]
    exact hcount
  · obtain ⟨e1, -⟩ := runCommand_batchKept c _ _ _ hcmd
    rw [e1]
    exact Nat.zero_le _

/-- Settles O56: each write keeps the first three parts, and the batch count is set to 0 by a command and
counted down by an instruction. -/
theorem invariantKept : Obligations.InvariantKept := by
  intro s t ⟨hmem, hrun, hfault, hbatch⟩ h
  obtain ⟨kmem, krun, kfault, -⟩ := step_keeps runStateKept_frameRel runStateKept_allKeep h
  exact ⟨kmem hmem, krun hrun, kfault.trans hfault, step_batchLeft_le hbatch h⟩

/-- Settles O55: the reset state has empty memory, runs with no halt recorded, and has its whole batch before it. -/
theorem invariantAtReset : Obligations.InvariantAtReset :=
  ⟨⟨rfl, rfl, rfl, Nat.le_refl _⟩, rfl, rfl, rfl, rfl, rfl⟩

/-! ### Cycles -/

theorem costs_readAll : ∀ l : List Word, (readAll l).Costs none
  | [] => costs_pure _
  | a :: l => costs_bind (costs_memRead a) fun _ => costs_bind (costs_readAll l) fun _ => costs_pure _

theorem costs_writeAll : ∀ (bytes : List Byte) (a : Word), (writeAll a bytes).Costs none
  | [], _ => costs_pure _
  | b :: bytes, a => costs_bind (costs_memWrite a b) fun _ => costs_writeAll bytes (a + 1)

theorem costs_disassemble : ∀ (n : Nat) (a : Word), (disassemble n a).Costs none
  | 0, _ => costs_pure _
  | n + 1, a => costs_bind (costs_memRead a) fun op => costs_bind (costs_readAll _) fun bytes =>
      costs_bind (costs_disassemble n _) fun _ => by
        cases decode (op :: bytes) <;> exact costs_pure _

/-- A host command costs no cycle (R127). -/
theorem costs_runCommand (c : HostCommand) : (runCommand c).Costs none := by
  cases c with
  | status => exact costs_bind (costs_get _) fun _ => costs_update fun _ => ⟨rfl, rfl⟩
  | readMemory first last => exact costs_bind (costs_readAll _) fun _ => costs_update fun _ => ⟨rfl, rfl⟩
  | writeMemory first bytes => exact costs_writeAll bytes first
  | disassemble first count => exact costs_bind (costs_disassemble _ _) fun _ => costs_update fun _ => ⟨rfl, rfl⟩
  | reset => exact costs_bind (costs_readWord _) fun _ => costs_update fun _ => ⟨rfl, rfl⟩
  | quit => exact costs_update fun _ => ⟨rfl, rfl⟩

/-- `OP_EXTRA` depends on its own parameter alone. -/
theorem extra_congr {c d : Config} (h : c.opExtra = d.opExtra) (op : Byte) : c.extra op = d.extra op := by
  rw [Config.extra, h, Config.extra]

/-- With the default `OP_EXTRA` the three stages together cost something: JMP's -1 is less than its fetch. -/
theorem stages_nonneg (i : Instr) :
    0 ≤ 2 + modeDelta i.mode (indexedWrite i.mnemonic i.mode) + Config.reference.extra i.opcode :=
  instr_of_rows (P := fun op mn mode => 0 ≤ 2 + modeDelta mode (indexedWrite mn mode) + Config.reference.extra op)
    (by decide +kernel) i

/-- Settles O53: a halt adds 2, an instruction the non-negative sum of its stages, and a host command nothing. -/
theorem cyclesNeverDecrease : Obligations.CyclesNeverDecrease := by
  intro s t hx h
  obtain ⟨-, rfl | ⟨-, hnone⟩ | ⟨-, i, u, hsome, hexec⟩ | ⟨c, rest, -, hcmd⟩⟩ := step_next h
  · exact Nat.le_refl _
  · obtain ⟨_, -, -, hc⟩ := fetch_none hnone
    rw [hc, countInstruction_cycles]
    omega
  · obtain ⟨hbus, hfetch⟩ := fetch_some hsome
    have hcfg : u.cfg = s.cfg := by rw [hbus]; rfl
    have hextra : u.cfg.extra i.opcode = Config.reference.extra i.opcode := extra_congr (by rw [hcfg, hx]; rfl) _
    have hstages := stages_nonneg i
    have hexecCycles := (exec_cycles hexec).2
    rw [hfetch, hextra, countInstruction_cycles] at hexecCycles
    omega
  · exact (costs_runCommand c _ _ _ hcmd).2.ge

end Sys2Proof.Machine
end

section
/-! PROOF. The access primitives (20_memory.md sections 2 to 7): reads and writes by region, the two word
reads, the frame layout, and memory as it reads back. -/

namespace Sys2Proof

/-! ### Masks of an address -/

theorem getLsbD_pageMask : ∀ i < 16, (0xFF00 : Word).getLsbD i = decide (8 ≤ i) := by decide
theorem getLsbD_offsetMask : ∀ i < 16, (0x00FF : Word).getLsbD i = decide (i < 8) := by decide

/-- The page of one address with the offset in the page of another. -/
theorem page_or_offset (a b : Word) : (a &&& 0xFF00) ||| (b &&& 0x00FF) = word (loByte b) (hiByte a) := by
  refine BitVec.eq_of_getLsbD_eq fun i hi => ?_
  rw [BitVec.getLsbD_or, BitVec.getLsbD_and, BitVec.getLsbD_and, getLsbD_pageMask i hi, getLsbD_offsetMask i hi, word,
    BitVec.getLsbD_append]
  by_cases h : i < 8
  · simp [h, loByte]
  · have hlo : 8 + (i - 8) = i := by omega
    have hhi : i - 8 < 8 := by omega
    simp [h, hiByte, hlo, hhi, Nat.le_of_not_lt h]

end Sys2Proof

namespace Sys2Proof.Machine

variable {s t : State} {a : Word} {v : Byte}

/-! ### The exchange -/

/-- The peer's answer completes the exchange: the frame, with the reply of a read, ends the trace. -/
theorem exchange_of_ok {b : Byte} {rest : List Exchange} (h : nextExchange s = (.ok b, rest)) (f : Frame) :
    exchange f s = .ok (b, { s with
      peer := rest
      trace := s.trace ++ [{ frame := f, reply := if f.direction = .read then some b else none }] }) := by
  rw [exchange, h]

theorem exchange_of_fail {rest : List Exchange} (h : nextExchange s = (.fail, rest)) (f : Frame) :
    exchange f s = .error (.transportFailure f { s with fault := some (.transportFailure f) }) := by
  rw [exchange, h]
  rfl

/-- Which answer comes next does not depend on memory. -/
theorem nextExchange_storeRam (s : State) (a : Word) (v : Byte) : nextExchange (s.storeRam a v) = nextExchange s := by
  rw [nextExchange, nextExchange, storeRam_peer, storeRam_trace]

/-! ### Reads and writes by region -/

theorem memRead_of_bus (h : region s.cfg a = .bus) : memRead a s = exchange (readFrame s.cycles a) s := by
  rw [memRead, h]

theorem memRead_of_unmapped (h : region s.cfg a = .unmapped) :
    memRead a s = .error (.decodeViolation a .read { s with fault := some (.decodeViolation a .read) }) := by
  rw [memRead, h]
  rfl

/-- Settles O7: the read by region, and in the bus window by how the exchange ends. -/
theorem memReadByRegion : Obligations.MemReadByRegion :=
  fun s _ => ⟨fun h => memRead_plain ((plain_iff s).mpr h),
    fun _ _ h hx => (memRead_of_bus h).trans (exchange_of_ok hx _),
    fun _ h hx => (memRead_of_bus h).trans (exchange_of_fail hx _), memRead_of_unmapped⟩

theorem forwarded_iff {c : Config} {a : Word} : forwarded c a = true ↔
    (∃ w ∈ c.videoWindows, w.1.toNat ≤ a.toNat ∧ a.toNat ≤ w.2.toNat) ∨
      (region c a = .bus ∧ c.forwardBusWindowWrites = true) := by
  simp [forwarded, inVideo]

theorem memWrite_of_unmapped (h : region s.cfg a = .unmapped) :
    memWrite a v s = .error (.decodeViolation a .write { s with fault := some (.decodeViolation a .write) }) := by
  rw [memWrite, if_pos h]
  rfl

/-- A forwarded write: the RAM side, then the frame's exchange. -/
theorem memWrite_of_forwarded (hr : region s.cfg a ≠ .unmapped) (hf : forwarded s.cfg a = true) :
    memWrite a v s = (exchange (writeFrame s.cycles a v) (s.storeRam a v)).map fun p => ((), p.2) := by
  rw [memWrite, if_neg hr, if_pos hf]
  rcases exchange (writeFrame s.cycles a v) (s.storeRam a v) with e | ⟨_, _⟩ <;> rfl

/-- Settles O8: the forwarded addresses, and the write by whether it is forwarded and by how the exchange ends. -/
theorem memWriteByRegion : Obligations.MemWriteByRegion := by
  refine ⟨fun _ _ => forwarded_iff, fun s a v =>
    ⟨memWrite_of_unmapped, memWrite_of_not_forwarded, fun b rest hr hf hx => ?_, fun rest hr hf hx => ?_⟩⟩
  · rw [memWrite_of_forwarded hr hf, exchange_of_ok ((nextExchange_storeRam s a v).trans hx), storeRam_trace]
    rfl
  · rw [memWrite_of_forwarded hr hf, exchange_of_fail ((nextExchange_storeRam s a v).trans hx)]
    rfl

/-- Settles O9: the written address and every other one, in a canonical memory. -/
theorem readAfterWrite : Obligations.ReadAfterWrite := by
  refine fun m a c v hm => ⟨?_, memory_wf_write hm a v⟩
  split_ifs with hc
  · rw [hc]
    exact memory_read_write_same hm a.toNat v
  · exact memory_read_write_other m v fun e => hc (BitVec.eq_of_toNat_eq e)

/-! ### Word reads -/

theorem readWord_of_ok {lo hi : Byte} {u : State} (h1 : memRead a s = .ok (lo, t))
    (h2 : memRead (a + 1) t = .ok (hi, u)) :
    readWord a s = .ok (word lo hi, u) :=
  (act_bind_ok h1 _).trans (act_bind_ok h2 _)

theorem readWordBug_of_ok {lo hi : Byte} {u : State} (h1 : memRead a s = .ok (lo, t))
    (h2 : memRead (pageWrapNext a) t = .ok (hi, u)) : readWordBug a s = .ok (word lo hi, u) :=
  (act_bind_ok h1 _).trans (act_bind_ok h2 _)

/-- The page-wrapped successor differs from the next address only where the page ends. -/
theorem pageWrapNext_eq (a : Word) :
    pageWrapNext a = if a.setWidth 8 = 0xFF#8 then a &&& 0xFF00 else a + 1 := by
  have hlo : a.setWidth 8 = 0xFF#8 ↔ a.toNat % 256 = 255 := by
    rw [← BitVec.toNat_inj, BitVec.toNat_setWidth]; rfl
  have hpage : a &&& 0xFF00 = word (loByte 0#16) (hiByte a) := by
    rw [← page_or_offset, BitVec.zero_and, BitVec.or_zero]
  have hlt := a.isLt
  have hsucc : (a + 1).toNat = (a.toNat + 1) % 65536 := BitVec.toNat_add a 1
  rw [pageWrapNext, page_or_offset, hpage, ← BitVec.toNat_inj]
  split_ifs with h <;> rw [hlo] at h <;>
    simp only [toNat_word, toNat_loByte, toNat_hiByte, hsucc, BitVec.toNat_zero] <;> omega

/-- Settles O10: each word read is its two byte reads in order, the second at the next or the page-wrapped address. -/
theorem wordReads : Obligations.WordReads := by
  intro s a
  dsimp only
  rw [← pageWrapNext_eq]
  exact ⟨fun lo t h =>
    ⟨fun hi u g => readWord_of_ok h g, fun e g => (act_bind_ok h _).trans (act_bind_error g _),
      fun hi u g => readWordBug_of_ok h g, fun e g => (act_bind_ok h _).trans (act_bind_error g _)⟩,
    fun e h => ⟨act_bind_error h _, act_bind_error h _⟩⟩

/-! ### Frames -/

/-- Settles O15: byte `k` of the cycle stamp is the stamp shifted down by `8 * k`, and the address is its two bytes. -/
theorem frameLayout : Obligations.FrameLayout := by
  intro f
  have hc := f.cycle.isLt
  have ha := f.address.isLt
  refine ⟨rfl, ?_, ?_, ?_, rfl⟩
  · apply BitVec.eq_of_toNat_eq
    simp only [Frame.bytes, List.cons_append, List.nil_append, List.take_succ_cons, List.take_zero,
      List.foldr_cons, List.foldr_nil, BitVec.toNat_ofNat,
      BitVec.toNat_setWidth, BitVec.toNat_ushiftRight, Nat.shiftRight_eq_div_pow]
    omega
  · cases h : f.direction <;> simp [Frame.bytes, h]
  · apply BitVec.eq_of_toNat_eq
    simp only [Frame.bytes, List.cons_append, List.nil_append, List.drop_succ_cons, List.drop_zero,
      List.take_succ_cons, List.take_zero, List.foldr_cons,
      List.foldr_nil, BitVec.toNat_ofNat, toNat_loByte, toNat_hiByte]
    omega

end Sys2Proof.Machine
end

section
/-! PROOF. The resolver, the operand access and the stack primitives (30_encoding.md section 3, 41_load_store.md section
3, 20_memory.md section 4). -/

namespace Sys2Proof.Machine

variable {s t u : State} {o : Operand} {op v : Byte} {w ea : Word} {e : Fault}

/-! ### Effective addresses -/

theorem zeroPage_eq (b : Byte) : zeroPage b = BitVec.ofNat 16 b.toNat := by
  apply BitVec.eq_of_toNat_eq
  rw [zeroPage, BitVec.toNat_setWidth, BitVec.toNat_ofNat]

/-- A zero-page sum wraps in the page. -/
theorem zeroPage_add (b x : Byte) : zeroPage (b + x) = BitVec.ofNat 16 ((b.toNat + x.toNat) % 256) := by
  rw [zeroPage_eq, BitVec.toNat_add]

theorem add_zeroPage (w : Word) (x : Byte) : w + x.setWidth 16 = BitVec.ofNat 16 (w.toNat + x.toNat) := by
  apply BitVec.eq_of_toNat_eq
  have := x.isLt
  rw [BitVec.toNat_add, BitVec.toNat_setWidth, BitVec.toNat_ofNat, Nat.mod_eq_of_lt (a := x.toNat) (by omega)]

/-- The branch target: PC plus the signed offset modulo 2^16. -/
theorem add_sext (w : Word) (off : Byte) : w + sext off = BitVec.ofInt 16 (w.toNat + off.toInt) := by
  rw [BitVec.ofInt_add, sext, BitVec.signExtend, BitVec.ofInt_natCast, BitVec.ofNat_toNat, BitVec.setWidth_eq]

/-- The indirect-indexed mode: the pointer, then Y. -/
theorem resolve_indy (b : Byte) (s : State) :
    resolve (.indy b) s = (readWordBug (zeroPage b) >>= fun base => pure (base + s.y.setWidth 16)) s := rfl

/-- Settles O11: the sums of bytes and words by their values, and the pointer reads as they are. -/
theorem effectiveAddresses : Obligations.EffectiveAddresses := by
  intro s b v w
  rw [← zeroPage_eq, ← zeroPage_add, ← zeroPage_add, ← add_zeroPage, ← add_zeroPage, ← add_sext]
  refine ⟨rfl, rfl, rfl, rfl, rfl, rfl, rfl, rfl, rfl, rfl, fun p t h => ?_, fun e h => ?_⟩
  · rw [← add_zeroPage, resolve_indy, act_bind_ok h]
    rfl
  · rw [resolve_indy]
    exact act_bind_error h _

/-! ### Operand accesses -/

theorem resolve_cfg (h : resolve o s = .ok (ea, t)) : t.cfg = s.cfg := by
  rw [(resolve_ok h).1]

/-- After the resolver, `OP_EXTRA` is counted and the rest runs. -/
theorem resolve_extra_bind {α : Type} (h : resolve o s = .ok (ea, t)) (k : Word → Act α) :
    (resolve o >>= fun ea => addExtra op >>= fun _ => k ea) s = k ea (t.plusCycles (s.cfg.extra op)) := by
  rw [act_bind_ok h, ← resolve_cfg h]
  rfl

/-- Settles O12: the operand load is the resolver, `OP_EXTRA` and one read. -/
theorem operandAccess : Obligations.OperandAccess :=
  fun _ _ _ => ⟨fun _ _ h =>
    ⟨fun _ _ hm => (resolve_extra_bind h _).trans (readOperand_of_memRead hm),
      fun _ hm => (resolve_extra_bind h _).trans (act_bind_error hm _)⟩,
    fun _ h => act_bind_error h _⟩

/-! ### The stack -/

theorem stackAddress_eq (sp : Byte) : stackAddress sp = BitVec.ofNat 16 (0x100 + sp.toNat) := by
  apply BitVec.eq_of_toNat_eq
  have := sp.isLt
  rw [toNat_stackAddress, BitVec.toNat_ofNat]
  omega

theorem push_of_write (h : memWrite (stackAddress s.sp) v s = .ok ((), t)) :
    push v s = .ok ((), { t with sp := s.sp - 1 }) :=
  push_eq_ok.mpr ⟨t, h, rfl⟩

theorem push_of_error (h : memWrite (stackAddress s.sp) v s = .error e) : push v s = .error e :=
  (act_bind_ok (act_get _) _).trans (act_bind_error h _)

/-- Raising and lowering SP modulo 256, as sums of its value. -/
theorem sp_succ (sp : Byte) : BitVec.ofNat 8 (sp.toNat + 1) = sp + 1 := by
  rw [BitVec.ofNat_add, BitVec.ofNat_toNat, BitVec.setWidth_eq]
  rfl

theorem sp_pred (sp : Byte) : BitVec.ofNat 8 (sp.toNat + 255) = sp - 1 := by
  bv_omega

theorem pullWord_of_error (h : pull s = .error e ∨ ∃ lo t, pull s = .ok (lo, t) ∧ pull t = .error e) :
    pullWord s = .error e := by
  rcases h with h | ⟨lo, t, h1, h2⟩
  · exact act_bind_error h _
  · exact (act_bind_ok h1 _).trans (act_bind_error h2 _)

theorem hiByte_eq_extractLsb' (w : Word) : hiByte w = w.extractLsb' 8 8 := by
  apply BitVec.eq_of_toNat_eq
  rw [toNat_hiByte, BitVec.extractLsb'_toNat, Nat.shiftRight_eq_div_pow]
  omega

theorem loByte_eq_extractLsb' (w : Word) : loByte w = w.extractLsb' 0 8 := by
  apply BitVec.eq_of_toNat_eq
  rw [toNat_loByte, BitVec.extractLsb'_toNat, Nat.shiftRight_zero]

/-- Settles O13: each primitive's access at the stack byte's address, and the two halves of a word in order. -/
theorem pushAndPull : Obligations.PushAndPull := by
  intro s v w
  dsimp only
  rw [sp_succ, sp_pred, ← stackAddress_eq, ← stackAddress_eq, ← hiByte_eq_extractLsb', ← loByte_eq_extractLsb']
  exact ⟨fun t h => push_of_write h, fun e h => push_of_error h, pull_eq, fun t h => act_bind_ok h _,
    fun e h => act_bind_error h _, fun lo t hi u h1 h2 => pullWord_eq_ok.mpr ⟨lo, t, hi, h1, h2, rfl⟩,
    fun e => pullWord_of_error⟩

/-- A pushed byte is the byte above SP. -/
theorem push_bytes (hs : s.StackIsRam) (hm : Memory.wf s.mem = true) (h : push v s = .ok ((), t)) :
    t.sp = s.sp - 1 ∧ t.byteAt (stackAddress s.sp) = v ∧ Memory.wf t.mem = true := by
  rw [push_ram hs, Except.ok.injEq, Prod.mk.injEq] at h
  obtain ⟨-, rfl⟩ := h
  exact ⟨rfl, memory_read_write_same hm _ _, memory_wf_write hm _ _⟩

/-- A push leaves the byte of any other stack address. -/
theorem push_byteAt_other_sp {sp : Byte} (hs : s.StackIsRam) (h : push v s = .ok ((), t)) (hsp : sp ≠ s.sp) :
    t.byteAt (stackAddress sp) = s.byteAt (stackAddress sp) := by
  rw [push_ram hs, Except.ok.injEq, Prod.mk.injEq] at h
  obtain ⟨-, rfl⟩ := h
  exact memory_read_write_other _ _ (stackAddress_ne hsp)

theorem push_cfg (h : push v s = .ok ((), t)) : t.cfg = s.cfg := by
  rw [push_ok h]
  exact storeRam_cfg _ _ _

theorem push_flags (h : push v s = .ok ((), t)) : t.flags = s.flags := by
  rw [push_ok h]
  exact storeRam_flags _ _ _

theorem pushWord_cfg (h : pushWord w s = .ok ((), t)) : t.cfg = s.cfg := by
  obtain ⟨u, h1, h2⟩ := pushWord_eq_ok.mp h
  exact (push_cfg h2).trans (push_cfg h1)

theorem pushWord_flags (h : pushWord w s = .ok ((), t)) : t.flags = s.flags := by
  obtain ⟨u, h1, h2⟩ := pushWord_eq_ok.mp h
  exact (push_flags h2).trans (push_flags h1)

/-- A pushed word is the two bytes above SP, its high byte the upper one. -/
theorem pushWord_bytes (hs : s.StackIsRam) (hm : Memory.wf s.mem = true) (h : pushWord w s = .ok ((), t)) :
    t.sp = s.sp - 1 - 1 ∧ t.byteAt (stackAddress s.sp) = hiByte w ∧ t.byteAt (stackAddress (s.sp - 1)) = loByte w ∧
      Memory.wf t.mem = true := by
  obtain ⟨u, hu, ht⟩ := pushWord_eq_ok.mp h
  have hsu : u.StackIsRam := stackIsRam_congr hs (push_cfg hu)
  obtain ⟨hspu, hhi, hmu⟩ := push_bytes hs hm hu
  obtain ⟨hspt, hlo, hmt⟩ := push_bytes hsu hmu ht
  have hother := push_byteAt_other_sp (sp := s.sp) hsu ht (by rw [hspu]; bv_omega)
  exact ⟨hspt.trans (by rw [hspu]), hother.trans hhi, hspu ▸ hlo, hmt⟩

/-- A pull reads the byte above SP. -/
theorem pull_bytes {sp : Byte} (hs : s.StackIsRam) (hsp : s.sp = sp - 1) (hv : s.byteAt (stackAddress sp) = v) :
    pull s = .ok (v, { s with sp := sp }) := by
  rw [pull_ram hs, hsp, sub_add_cancel, hv]

theorem pullWord_bytes {sp : Byte} (hs : s.StackIsRam) (hsp : s.sp = sp - 1 - 1)
    (hhi : s.byteAt (stackAddress sp) = hiByte w) (hlo : s.byteAt (stackAddress (sp - 1)) = loByte w) :
    pullWord s = .ok (w, { s with sp := sp }) := by
  rw [pullWord_ram hs, hsp, sub_add_cancel, sub_add_cancel, hhi, hlo, word_loByte_hiByte]

/-- Settles O14: both pushes complete, and the pulls read the two bytes back. -/
theorem pullWordUndoesPushWord : Obligations.PullWordUndoesPushWord := by
  intro s w hs hm
  obtain ⟨hsp, hhi, hlo, -⟩ := pushWord_bytes hs hm (pushWord_ram hs w)
  exact ⟨_, _, pushWord_ram hs w, by bv_omega, pullWord_bytes hs hsp hhi hlo, rfl, rfl⟩

end Sys2Proof.Machine
end

section
/-! PROOF. ADC, SBC and the logic instructions (40_alu.md sections 1 to 3). -/

namespace Sys2Proof.Machine

variable {i : Instr} {o : Operand} {op : Byte} {s t : State} {e : Fault}

/-! ### The computations -/

theorem bitInt_eq_toNat (b : Bool) : bitInt b = (b.toNat : Int) := by
  cases b <;> rfl

theorem signedOverflow_eq (v : Int) : signedOverflow v = decide (v > 127 ∨ v < -128) :=
  (Bool.decide_or _ _).symm

/-- ADC's sum and flags over natural numbers: the unsigned trial is not negative. -/
theorem adcResult_eq (a m : Byte) (f : Flags) :
    adcResult a m f = (BitVec.ofNat 8 (a.toNat + m.toNat + f.c.toNat), { f with
      c := decide (a.toNat + m.toNat + f.c.toNat > 255)
      v := decide (a.toInt + m.toInt + (f.c.toNat : Int) > 127 ∨ a.toInt + m.toInt + (f.c.toNat : Int) < -128)
      z := decide (BitVec.ofNat 8 (a.toNat + m.toNat + f.c.toNat) = 0)
      n := (BitVec.ofNat 8 (a.toNat + m.toNat + f.c.toNat)).getLsbD 7 }) := by
  have hu : (a.toNat : Int) + m.toNat + f.c.toNat = (a.toNat + m.toNat + f.c.toNat : Nat) := by push_cast; rfl
  have hc : decide (255 < ((a.toNat + m.toNat + f.c.toNat : Nat) : Int)) =
      decide (a.toNat + m.toNat + f.c.toNat > 255) := by
    rw [decide_eq_decide]
    omega
  simp only [adcResult, updateNzc, updateNz, mod256, signedOverflow_eq, bitInt_eq_toNat, hu, hc, BitVec.ofInt_natCast,
    beq_eq_decide]

theorem sbcResult_eq (a m : Byte) (f : Flags) :
    sbcResult a m f = (BitVec.ofInt 8 ((a.toNat : Int) - m.toNat - (1 - (f.c.toNat : Int))), { f with
      c := decide ((a.toNat : Int) - m.toNat - (1 - (f.c.toNat : Int)) ≥ 0)
      v := decide (a.toInt - m.toInt - (1 - (f.c.toNat : Int)) > 127 ∨
        a.toInt - m.toInt - (1 - (f.c.toNat : Int)) < -128)
      z := decide (BitVec.ofInt 8 ((a.toNat : Int) - m.toNat - (1 - (f.c.toNat : Int))) = 0)
      n := (BitVec.ofInt 8 ((a.toNat : Int) - m.toNat - (1 - (f.c.toNat : Int)))).getLsbD 7 }) := by
  simp only [sbcResult, updateNz, mod256, signedOverflow_eq, bitInt_eq_toNat, beq_eq_decide, ge_iff_le]

theorem getLsbD_seven (b : Byte) : b.getLsbD 7 = decide (128 ≤ b.toNat) :=
  (BitVec.msb_eq_getLsbD_last b).symm.trans (BitVec.msb_eq_decide b)

theorem toInt_eq (b : Byte) : b.toInt = if b.toNat < 128 then (b.toNat : Int) else b.toNat - 256 := by
  rw [BitVec.toInt_eq_toNat_cond]
  have := b.isLt
  split_ifs <;> omega

/-- Two bytes differ in bit 7 where one is in the upper half and the other is not. -/
theorem getLsbD_seven_xor (x y : Byte) : (x ^^^ y).getLsbD 7 = true ↔ ¬ (128 ≤ x.toNat ↔ 128 ≤ y.toNat) := by
  rw [BitVec.getLsbD_xor, getLsbD_seven, getLsbD_seven, bne_iff_ne, ne_eq, decide_eq_decide]

/-- Settles O20: signs are the upper halves of the bytes, and each trial is off its byte by a multiple of 256. -/
theorem overflowByBits : Obligations.OverflowByBits := by
  intro a m f
  have ha := a.isLt
  have hm := m.isLt
  have hc : f.c.toNat < 2 := f.c.toNat_lt
  refine ⟨?_, ?_⟩
  · have hr := BitVec.toNat_ofNat (w := 8) (x := a.toNat + m.toNat + f.c.toNat)
    rw [adcResult_eq, Bool.eq_iff_iff, BitVec.getLsbD_and, Bool.and_eq_true, getLsbD_seven_xor, getLsbD_seven_xor,
      decide_eq_true_eq, toInt_eq, toInt_eq]
    dsimp only
    split_ifs <;> omega
  · have hr := toNat_mod256 ((a.toNat : Int) - m.toNat - (1 - (f.c.toNat : Int)))
    rw [mod256] at hr
    rw [sbcResult_eq, Bool.eq_iff_iff, BitVec.getLsbD_and, Bool.and_eq_true, getLsbD_seven_xor, getLsbD_seven_xor,
      decide_eq_true_eq, toInt_eq, toInt_eq]
    dsimp only
    split_ifs <;> omega

/-! ### ADC and SBC -/

/-- ADC and SBC but for their computation. -/
def arith (f : Byte → Byte → Flags → Byte × Flags) (op : Byte) (o : Operand) : Act Unit := do
  let ea ← resolve o
  decimalGuard op o
  addExtra op
  let m ← readOperand o ea
  let s ← Act.get id
  setAWith (f s.a m s.flags)

theorem instrAction_adc (hm : i.mnemonic = .adc) (ho : i.operand = some o) :
    instrAction i = arith adcResult i.opcode o := by
  rw [instrAction, hm, ho]
  rfl

theorem instrAction_sbc (hm : i.mnemonic = .sbc) (ho : i.operand = some o) :
    instrAction i = arith sbcResult i.opcode o := by
  rw [instrAction, hm, ho]
  rfl

/-- The address of the opcode is the instruction's length before PC (R23). -/
theorem opcodeAddress_eq (ho : i.operand = some o) (pc : Word) :
    opcodeAddress pc o = pc - BitVec.ofNat 16 i.length := by
  rw [opcodeAddress, Instr.length, mode_of_operand ho]

theorem decimalGuard_eq (op : Byte) (o : Operand) (s : State) : decimalGuard op o s =
    if s.flags.d then raise (.decimalMode (opcodeAddress s.pc o) op) s else .ok ((), s) := by
  rw [decimalGuard, act_bind_ok (act_get _), act_bind_ok (act_get _)]
  cases s.flags.d <;> rfl

section arithmetic

variable {f : Byte → Byte → Flags → Byte × Flags} {ea : Word} {m : Byte}

theorem arith_of_resolve_error (h : resolve o s = .error e) : arith f op o s = .error e :=
  act_bind_error h _

/-- With D = 1 the guard is the last thing that happens. -/
theorem arith_of_decimal (hd : s.flags.d = true) (h : resolve o s = .ok (ea, t)) :
    arith f op o s = .error (.decimalMode (opcodeAddress s.pc o) op
      { t with fault := some (.decimalMode (opcodeAddress s.pc o) op) }) := by
  have hb := (resolve_ok h).1
  have hguard : decimalGuard op o t = raise (.decimalMode (opcodeAddress t.pc o) op) t := by
    rw [decimalGuard_eq, flags_of_onlyBus hb, if_pos hd]
  have hpc : t.pc = s.pc := by rw [hb]
  rw [arith, act_bind_ok h, act_bind_error (hguard.trans rfl), hpc]
  rfl

/-- With D = 0 the guard does nothing: the operand load, then the computation. -/
theorem arith_of_not_decimal (hd : s.flags.d = false) : arith f op o s =
    (loadOperand op o >>= fun m => Act.get id >>= fun s => setAWith (f s.a m s.flags)) s := by
  rcases h : resolve o s with e | ⟨ea, t⟩
  · exact (arith_of_resolve_error h).trans (act_bind_error (act_bind_error h _) _).symm
  · have hguard : decimalGuard op o t = .ok ((), t) := by
      rw [decimalGuard_eq, flags_of_onlyBus (resolve_ok h).1, hd]
      rfl
    have hload : loadOperand op o s = readOperand o ea (t.plusCycles (s.cfg.extra op)) := resolve_extra_bind h _
    rw [arith, act_bind_ok h, act_bind_ok hguard, act_bind (loadOperand op o), hload, ← resolve_cfg h, addExtra,
      act_bind_ok (act_update _), act_bind]

theorem arith_of_load (hd : s.flags.d = false) (h : loadOperand op o s = .ok (m, t)) :
    arith f op o s = .ok ((), { t with a := (f s.a m s.flags).1, flags := (f s.a m s.flags).2 }) := by
  have hb := (loadOperand_ok h).1
  rw [arith_of_not_decimal hd, act_bind_ok h, ← a_of_onlyBus hb, ← flags_of_onlyBus hb]
  rfl

theorem arith_of_load_error (hd : s.flags.d = false) (h : loadOperand op o s = .error e) :
    arith f op o s = .error e := by
  rw [arith_of_not_decimal hd]
  exact act_bind_error h _

end arithmetic

/-! ### AND, ORA and EOR -/

theorem mod256_toNat (b : Byte) : mod256 b.toNat = b := by
  rw [mod256, BitVec.ofInt_natCast, BitVec.ofNat_toNat, BitVec.setWidth_eq]

/-- A byte that is loaded, transferred or computed whole: itself, with its N and Z. -/
theorem loadResult_eq (m : Byte) (f : Flags) : loadResult m f = (m, f.withNz m) := by
  simp only [loadResult, updateNz, mod256_toNat, Flags.withNz]

/-- The bitwise operation of a logic instruction (R145 to R147). -/
def logicOp (mn : Mnemonic) (a m : Byte) : Byte :=
  if mn = .and then a &&& m else if mn = .ora then a ||| m else a ^^^ m

theorem instrAction_logic (ho : i.operand = some o) (hm : i.mnemonic = .and ∨ i.mnemonic = .ora ∨ i.mnemonic = .eor) :
    instrAction i = logic (logicOp i.mnemonic) i.opcode o := by
  rcases hm with hm | hm | hm <;> rw [instrAction, hm, ho] <;> rfl

theorem logic_of_load {f : Byte → Byte → Byte} {m : Byte} (h : loadOperand op o s = .ok (m, t)) :
    logic f op o s = .ok ((), { t with a := f s.a m, flags := s.flags.withNz (f s.a m) }) := by
  have hb := (loadOperand_ok h).1
  rw [logic, act_bind_ok h, act_bind_ok (act_get _), setAWith, act_update, loadResult_eq, id, a_of_onlyBus hb,
    flags_of_onlyBus hb]

/-- Settles O21: the operation on A and the loaded operand, both as they were before the load. -/
theorem logicResult : Obligations.LogicResult := by
  intro i o s ho hm
  simp only [exec_next, exec_fault, instrAction_logic ho hm]
  exact ⟨fun m t h => logic_of_load h, fun e h => act_bind_error h _⟩

end Sys2Proof.Machine

namespace Sys2Proof

open Machine

/-- Settles O18: the guard after the resolver, and with D = 0 `adcResult` of the loaded operand. -/
theorem adcResult : Obligations.AdcResult := by
  intro i o s hm ho
  simp only [exec_next, exec_fault, instrAction_adc hm ho, ← opcodeAddress_eq ho]
  refine ⟨fun ea t hd h => arith_of_decimal hd h, fun e _ h => arith_of_resolve_error h, fun m t hd h => ?_,
    fun e hd h => arith_of_load_error hd h⟩
  rw [arith_of_load hd h, adcResult_eq]

/-- Settles O19: as for ADC, with `sbcResult`. -/
theorem sbcResult : Obligations.SbcResult := by
  intro i o s hm ho
  simp only [exec_next, exec_fault, instrAction_sbc hm ho, ← opcodeAddress_eq ho]
  refine ⟨fun ea t hd h => arith_of_decimal hd h, fun e _ h => arith_of_resolve_error h, fun m t hd h => ?_,
    fun e hd h => arith_of_load_error hd h⟩
  rw [arith_of_load hd h, sbcResult_eq]

end Sys2Proof
end

section
/-! PROOF. The loads and stores, the read-modify-writes, the register counts and the transfers (41_load_store.md,
42_rmw.md, 43_transfer_stack.md section 1). -/

namespace Sys2Proof.Machine

variable {i : Instr} {o : Operand} {op m v : Byte} {s t : State} {e : Fault} {ea : Word}

/-! ### Loads and stores -/

theorem lda_of_load (h : loadOperand op o s = .ok (m, t)) :
    lda op o s = .ok ((), { t with a := m, flags := s.flags.withNz m }) := by
  rw [lda, act_bind_ok h, act_bind_ok (act_get _), loadResult_eq, flags_of_onlyBus (loadOperand_ok h).1]
  rfl

theorem ldx_of_load (h : loadOperand op o s = .ok (m, t)) :
    ldx op o s = .ok ((), { t with x := m, flags := s.flags.withNz m }) := by
  rw [ldx, act_bind_ok h, act_bind_ok (act_get _), loadResult_eq, flags_of_onlyBus (loadOperand_ok h).1]
  rfl

theorem ldy_of_load (h : loadOperand op o s = .ok (m, t)) :
    ldy op o s = .ok ((), { t with y := m, flags := s.flags.withNz m }) := by
  rw [ldy, act_bind_ok h, act_bind_ok (act_get _), loadResult_eq, flags_of_onlyBus (loadOperand_ok h).1]
  rfl

theorem instrAction_lda (ho : i.operand = some o) (hm : i.mnemonic = .lda) : instrAction i = lda i.opcode o := by
  rw [instrAction, hm, ho]

theorem instrAction_ldx (ho : i.operand = some o) (hm : i.mnemonic = .ldx) : instrAction i = ldx i.opcode o := by
  rw [instrAction, hm, ho]

theorem instrAction_ldy (ho : i.operand = some o) (hm : i.mnemonic = .ldy) : instrAction i = ldy i.opcode o := by
  rw [instrAction, hm, ho]

/-- The register that a store writes out (R173 to R175). -/
def storeReg (mn : Mnemonic) (s : State) : Byte :=
  if mn = .sta then s.a else if mn = .stx then s.x else s.y

theorem instrAction_store (ho : i.operand = some o) (hm : i.mnemonic ∈ [.sta, .stx, .sty]) :
    instrAction i = store (storeReg i.mnemonic) i.opcode o := by
  simp only [List.mem_cons, List.not_mem_nil, or_false] at hm
  rcases hm with hm | hm | hm <;> rw [instrAction, hm, ho] <;> rfl

/-- A store reads its register before anything else. -/
theorem store_eq (reg : State → Byte) (op : Byte) (o : Operand) (s : State) :
    store reg op o s = (resolve o >>= fun ea => addExtra op >>= fun _ => memWrite ea (reg s)) s := rfl

/-- Settles O25: the resolver, `OP_EXTRA`, and one write of the register as it was before. -/
theorem storeResult : Obligations.StoreResult := by
  intro i o s ho hm
  simp only [exec_next, exec_fault, instrAction_store ho hm, store_eq]
  exact ⟨fun ea s1 h => ⟨fun t hw => (resolve_extra_bind h _).trans hw, fun e hw => (resolve_extra_bind h _).trans hw⟩,
    fun e h => act_bind_error h _⟩

/-! ### The computations of 42_rmw.md -/

theorem mod256_natCast (n : Nat) : mod256 (n : Int) = BitVec.ofNat 8 n :=
  BitVec.ofInt_natCast 8 n

theorem ofNat_mul_two (b : Byte) : BitVec.ofNat 8 (b.toNat * 2) = b <<< 1 := by
  apply BitVec.eq_of_toNat_eq
  rw [BitVec.toNat_ofNat, BitVec.toNat_shiftLeft, Nat.shiftLeft_eq]

theorem ofNat_div_two (b : Byte) : BitVec.ofNat 8 (b.toNat / 2) = b >>> 1 := by
  apply BitVec.eq_of_toNat_eq
  have := b.isLt
  rw [BitVec.toNat_ofNat, BitVec.toNat_ushiftRight, Nat.shiftRight_eq_div_pow]
  omega

theorem getLsbD_zero_eq (b : Byte) : b.getLsbD 0 = decide (b.toNat % 2 = 1) := by
  rw [BitVec.getLsbD, Nat.testBit_zero]

/-- Setting a bit that is clear adds it. -/
theorem or_twoPow_eq_add {b : Byte} {k : Nat} (h : b.getLsbD k = false) :
    b ||| BitVec.twoPow 8 k = b + BitVec.twoPow 8 k :=
  (BitVec.add_eq_or_of_and_eq_zero _ _ (by rw [BitVec.and_twoPow, h]; rfl)).symm
/-- The carry rotated into bit 0. -/
theorem ofNat_mul_two_add (b : Byte) (c : Bool) :
    BitVec.ofNat 8 (b.toNat * 2 + c.toNat) = (b <<< 1) ||| (if c then 0x01 else 0x00) := by
  rw [BitVec.ofNat_add, ofNat_mul_two]
  cases c with
  | false => rw [Bool.toNat_false, BitVec.add_zero]; exact BitVec.or_zero.symm
  | true => exact (or_twoPow_eq_add (k := 0) (by simp)).symm

/-- The carry rotated into bit 7. -/
theorem ofNat_div_two_add (b : Byte) (c : Bool) :
    BitVec.ofNat 8 ((b.toNat + c.toNat * 256) / 2) = (b >>> 1) ||| (if c then 0x80 else 0x00) := by
  have hdiv : (b.toNat + c.toNat * 256) / 2 = b.toNat / 2 + c.toNat * 128 := by omega
  rw [hdiv, BitVec.ofNat_add, ofNat_div_two]
  cases c with
  | false => rw [Bool.toNat_false, Nat.zero_mul, BitVec.add_zero]; exact BitVec.or_zero.symm
  | true => exact (or_twoPow_eq_add (k := 7) (by simp)).symm

theorem carry_of_double (b : Byte) (c : Bool) : decide (255 < ((b.toNat * 2 + c.toNat : Nat) : Int)) = b.getLsbD 7 := by
  have := c.toNat_lt
  rw [getLsbD_seven, decide_eq_decide]
  omega

theorem ofNat_succ (b : Byte) : mod256 ((b.toNat : Int) + 1) = b + 1 := by
  have : mod256 ((b.toNat : Int) + 1) = BitVec.ofNat 8 (b.toNat + 1) := mod256_natCast (b.toNat + 1)
  rw [this, sp_succ]

theorem ofInt_pred (b : Byte) : mod256 ((b.toNat : Int) - 1) = b - 1 :=
  mod256_toNat_sub b 1

/-- The computation of a read-modify-write mnemonic (R191 to R196). -/
def rmwResult (mn : Mnemonic) : Byte → Flags → Byte × Flags :=
  match mn with
  | .asl => aslResult
  | .lsr => lsrResult
  | .rol => rolResult
  | .ror => rorResult
  | .inc => incResult
  | _ => decResult

/-- The new value with its N and Z, and the bit shifted out. -/
theorem rmwResult_eq {mn : Mnemonic} (hm : mn ∈ [.asl, .lsr, .rol, .ror, .inc, .dec]) (b : Byte) (f : Flags) :
    rmwResult mn b f =
      (rmwValue mn b f.c, Flags.withNz { f with c := rmwCarry mn b f.c } (rmwValue mn b f.c)) := by
  simp only [List.mem_cons, List.not_mem_nil, or_false] at hm
  rcases hm with rfl | rfl | rfl | rfl | rfl | rfl
  · have hc := carry_of_double b false
    simp only [Bool.toNat_false, Nat.add_zero] at hc
    simp only [rmwResult, aslResult, updateNzc, updateNz, mod256_natCast, ofNat_mul_two, hc, rmwValue, rmwCarry,
      Flags.withNz]
  · simp only [rmwResult, lsrResult, updateNz, mod256_natCast, ofNat_div_two, rmwValue, rmwCarry, Flags.withNz]
  · simp only [rmwResult, rolResult, updateNzc, updateNz, mod256_natCast, ofNat_mul_two_add, carry_of_double, rmwValue,
      rmwCarry, Flags.withNz]
  · have hc : decide ((b.toNat + f.c.toNat * 256) % 2 = 1) = b.getLsbD 0 := by
      rw [getLsbD_zero_eq, decide_eq_decide]
      omega
    simp only [rmwResult, rorResult, updateNz, mod256_natCast, ofNat_div_two_add, hc, rmwValue, rmwCarry, Flags.withNz]
  · simp only [rmwResult, incResult, updateNz, ofNat_succ, rmwValue, rmwCarry, Flags.withNz]
  · simp only [rmwResult, decResult, updateNz, ofInt_pred, rmwValue, rmwCarry, Flags.withNz]

/-! ### Read-modify-writes -/

theorem instrAction_modifyOperand (ho : i.operand = some o) (hm : i.mnemonic ∈ [.asl, .lsr, .rol, .ror, .inc, .dec]) :
    instrAction i = modifyOperand i.opcode o (rmwResult i.mnemonic) := by
  simp only [List.mem_cons, List.not_mem_nil, or_false] at hm
  rcases hm with hm | hm | hm | hm | hm | hm <;> rw [instrAction, hm, ho] <;> rfl

/-- After the resolver and the read, one write of the new value, with the new flags in place. -/
theorem modifyOperand_of_read {f : Byte → Flags → Byte × Flags} {s1 s2 : State} (h : resolve o s = .ok (ea, s1))
    (hm : memRead ea (s1.plusCycles (s.cfg.extra op)) = .ok (m, s2)) :
    modifyOperand op o f s = memWrite ea (f m s.flags).1 { s2 with flags := (f m s.flags).2 } := by
  have hb := onlyBus_trans (resolve_ok h).1 (onlyBus_trans (onlyBus_plusCycles s1 _) (memRead_onlyBus hm))
  rw [modifyOperand, resolve_extra_bind h, act_bind_ok hm, act_bind_ok (act_get _), flags_of_onlyBus hb]
  rfl

/-- Settles O26: the read, then the write of `rmwResult` of the byte read and the flags before it. -/
theorem readModifyWriteResult : Obligations.ReadModifyWriteResult := by
  intro i o s s1 ea ho hmn h
  simp only [exec_next, exec_fault, instrAction_modifyOperand ho hmn]
  refine ⟨fun m s2 hm => ?_, fun e hm => (resolve_extra_bind h _).trans (act_bind_error hm _)⟩
  rw [modifyOperand_of_read h hm, rmwResult_eq hmn]
  exact ⟨fun t hw => hw, fun e hw => hw⟩

theorem shiftA_eq (f : Byte → Flags → Byte × Flags) (op : Byte) (s : State) : shiftA f op s =
    .ok ((), { s.plusCycles (s.cfg.extra op) with a := (f s.a s.flags).1, flags := (f s.a s.flags).2 }) := rfl

theorem modifyX_eq (f : Byte → Flags → Byte × Flags) (op : Byte) (s : State) : modifyX f op s =
    .ok ((), { s.plusCycles (s.cfg.extra op) with x := (f s.x s.flags).1, flags := (f s.x s.flags).2 }) := rfl

theorem modifyY_eq (f : Byte → Flags → Byte × Flags) (op : Byte) (s : State) : modifyY f op s =
    .ok ((), { s.plusCycles (s.cfg.extra op) with y := (f s.y s.flags).1, flags := (f s.y s.flags).2 }) := rfl

/-- The accumulator forms are the shifts without an operand. -/
theorem instrAction_shiftA (hi : i ∈ [.aslAcc, .lsrAcc, .rolAcc, .rorAcc]) :
    i.mnemonic ∈ [.asl, .lsr, .rol, .ror, .inc, .dec] ∧ instrAction i = shiftA (rmwResult i.mnemonic) i.opcode := by
  simp only [List.mem_cons, List.not_mem_nil, or_false] at hi
  rcases hi with rfl | rfl | rfl | rfl <;> exact ⟨by decide, rfl⟩

/-- Settles O27: `rmwResult` of A and the flags. -/
theorem shiftAccumulatorResult : Obligations.ShiftAccumulatorResult := by
  intro i s hi
  obtain ⟨hmn, hact⟩ := instrAction_shiftA hi
  rw [exec_next, hact, shiftA_eq, rmwResult_eq hmn]

/-- Settles O28: `rmwResult` of INC and DEC, on X and Y. -/
theorem countRegisterResult : Obligations.CountRegisterResult := by
  have hinc : ∀ b f, incResult b f = (b + 1, f.withNz (b + 1)) := fun b f => rmwResult_eq (mn := .inc) (by decide) b f
  have hdec : ∀ b f, decResult b f = (b - 1, f.withNz (b - 1)) := fun b f => rmwResult_eq (mn := .dec) (by decide) b f
  intro s
  simp only [exec_next]
  refine ⟨(modifyX_eq incResult 0xE8 s).trans ?_, (modifyY_eq incResult 0xC8 s).trans ?_,
    (modifyX_eq decResult 0xCA s).trans ?_, (modifyY_eq decResult 0x88 s).trans ?_⟩
  · rw [hinc]
  · rw [hinc]
  · rw [hdec]
  · rw [hdec]

/-! ### Transfers -/

theorem transferToA_eq (src : State → Byte) (op : Byte) (s : State) : transferToA src op s =
    .ok ((), { s.plusCycles (s.cfg.extra op) with
      a := src (s.plusCycles (s.cfg.extra op)), flags := s.flags.withNz (src (s.plusCycles (s.cfg.extra op))) }) := by
  rw [transferToA, addExtra, act_bind_ok (act_update _), act_bind_ok (act_get _), loadResult_eq]
  rfl

theorem transferToX_eq (src : State → Byte) (op : Byte) (s : State) : transferToX src op s =
    .ok ((), { s.plusCycles (s.cfg.extra op) with
      x := src (s.plusCycles (s.cfg.extra op)), flags := s.flags.withNz (src (s.plusCycles (s.cfg.extra op))) }) := by
  rw [transferToX, addExtra, act_bind_ok (act_update _), act_bind_ok (act_get _), loadResult_eq]
  rfl

theorem transferToY_eq (src : State → Byte) (op : Byte) (s : State) : transferToY src op s =
    .ok ((), { s.plusCycles (s.cfg.extra op) with
      y := src (s.plusCycles (s.cfg.extra op)), flags := s.flags.withNz (src (s.plusCycles (s.cfg.extra op))) }) := by
  rw [transferToY, addExtra, act_bind_ok (act_update _), act_bind_ok (act_get _), loadResult_eq]
  rfl

/-- Settles O29: `OP_EXTRA` changes none of the registers that are copied, and TXS only writes SP. -/
theorem transferResult : Obligations.TransferResult := by
  intro s
  simp only [exec_next]
  exact ⟨transferToX_eq State.a 0xAA s, transferToY_eq State.a 0xA8 s, transferToA_eq State.x 0x8A s,
    transferToA_eq State.y 0x98 s, transferToX_eq State.sp 0xBA s, rfl⟩

end Sys2Proof.Machine

namespace Sys2Proof

open Machine

/-- Settles O24: the loaded operand and the flags as they were before the load. -/
theorem loadResult : Obligations.LoadResult := by
  intro i o s ho
  simp only [exec_next, exec_fault]
  refine ⟨fun m t h => ⟨fun hm => ?_, fun hm => ?_, fun hm => ?_⟩, fun e hm h => ?_⟩
  · rw [instrAction_lda ho hm, lda_of_load h]
  · rw [instrAction_ldx ho hm, ldx_of_load h]
  · rw [instrAction_ldy ho hm, ldy_of_load h]
  · rcases hm with hm | hm | hm
    · rw [instrAction_lda ho hm]
      exact act_bind_error h _
    · rw [instrAction_ldx ho hm]
      exact act_bind_error h _
    · rw [instrAction_ldy ho hm]
      exact act_bind_error h _

end Sys2Proof
end

section
/-! PROOF. The stack instructions, the control transfers, the flag instructions and NOP (43_transfer_stack.md section 2,
44_control.md, 45_flags_nop.md). -/

namespace Sys2Proof.Machine

variable {i : Instr} {o : Operand} {op v m p : Byte} {s t u : State} {e : Fault} {w ea target : Word}

/-! ### PHA, PHP, PLA and PLP -/

/-! The actions of the instructions that have one form each. -/

theorem instrAction_pha : instrAction .pha = pushByte State.a 0x48 := rfl

theorem instrAction_php : instrAction .php = pushByte (fun s => statusByte s.flags) 0x08 := rfl

theorem instrAction_jsr (w : Word) : instrAction (.jsr w) = callSubroutine 0x20 (.abs w) := rfl

theorem instrAction_brk : instrAction .brk = softwareBreak 0x00 := rfl

theorem pushByte_eq (src : State → Byte) (op : Byte) (s : State) : pushByte src op s =
    push (src (s.plusCycles (s.cfg.extra op))) (s.plusCycles (s.cfg.extra op)) := rfl

/-- Settles O30: after `OP_EXTRA`, one push of A or of the status byte, neither of which it changes. -/
theorem pushRegisterResult : Obligations.PushRegisterResult := by
  intro s
  simp only [exec_next, exec_fault]
  exact ⟨fun t h => (pushByte_eq _ _ s).trans (push_of_write h), fun e h => (pushByte_eq _ _ s).trans (push_of_error h),
    fun t h => (pushByte_eq _ _ s).trans (push_of_write h), fun e h => (pushByte_eq _ _ s).trans (push_of_error h)⟩

/-- After `OP_EXTRA` the rest of an action runs on the counted state. -/
theorem extra_bind {α : Type} (op : Byte) (k : Unit → Act α) (s : State) :
    (addExtra op >>= k) s = k () (s.plusCycles (s.cfg.extra op)) := rfl

theorem pla_of_pull (h : pull (s.plusCycles (s.cfg.extra op)) = .ok (m, t)) :
    pla op s = .ok ((), { t with a := m, flags := s.flags.withNz m }) := by
  have hflags : t.flags = s.flags := by rw [pull_ok h, plusCycles_flags]
  rw [pla, extra_bind, act_bind_ok h, act_bind_ok (act_get _), loadResult_eq, hflags]
  rfl

theorem plp_of_pull (h : pull (s.plusCycles (s.cfg.extra op)) = .ok (m, t)) :
    plp op s = .ok ((), { t with flags := setStatus m }) := by
  rw [plp, extra_bind, act_bind_ok h]
  rfl

theorem pla_of_pull_error (h : pull (s.plusCycles (s.cfg.extra op)) = .error e) : pla op s = .error e := by
  rw [pla, extra_bind, act_bind_error h]

theorem plp_of_pull_error (h : pull (s.plusCycles (s.cfg.extra op)) = .error e) : plp op s = .error e := by
  rw [plp, extra_bind, act_bind_error h]

/-- Settles O31: after `OP_EXTRA`, one pull, then the byte in A with its N and Z, or in all seven flags. -/
theorem pullRegisterResult : Obligations.PullRegisterResult := by
  intro s
  simp only [exec_next, exec_fault]
  exact ⟨fun m t h => pla_of_pull h, fun e h => pla_of_pull_error h, fun m t h => plp_of_pull h,
    fun e h => plp_of_pull_error h⟩

/-! ### Branches and jumps -/

/-- Settles O32: `exec_branch`, with the target as a sum modulo 2^16 and the taken branch's one cycle. -/
theorem branchResult : Obligations.BranchResult := by
  intro i off s ho
  rw [exec_branch ho s, add_sext]
  refine ⟨fun h => ?_, fun h => ?_⟩
  · rw [if_pos h]
    rfl
  · rw [h]
    rfl

theorem instrAction_jmp (hm : i.mnemonic = .jmp) (ho : i.operand = some o) : instrAction i = jump i.opcode o := by
  rw [instrAction, hm, ho]

/-- Settles O33: the resolver, `OP_EXTRA`, and PC. -/
theorem jumpResult : Obligations.JumpResult := by
  intro i o s hm ho
  simp only [exec_next, exec_fault, instrAction_jmp hm ho]
  refine ⟨fun ea t h => ?_, fun e h => act_bind_error h _⟩
  rw [jump, resolve_extra_bind h]
  rfl

/-! ### Calls and returns -/

/-- JSR's operand is absolute, so its resolver does nothing. -/
theorem callSubroutine_abs (op : Byte) (w : Word) (s : State) : callSubroutine op (.abs w) s =
    (pushWord (s.pc - 1) >>= fun _ => setPc w) (s.plusCycles (s.cfg.extra op)) := rfl

theorem returnFromSubroutine_eq (op : Byte) (s : State) : returnFromSubroutine op s =
    (pullWord >>= fun w => setPc (w + 1)) (s.plusCycles (s.cfg.extra op)) := rfl

/-- Settles O34: the pushes or pulls, then PC. -/
theorem callAndReturnResult : Obligations.CallAndReturnResult := by
  intro s w
  simp only [exec_next, exec_fault]
  exact ⟨fun t h => (callSubroutine_abs 0x20 w s).trans (act_bind_ok h _),
    fun e h => (callSubroutine_abs 0x20 w s).trans (act_bind_error h _),
    fun t h => (returnFromSubroutine_eq 0x60 s).trans (act_bind_ok h _),
    fun e h => (returnFromSubroutine_eq 0x60 s).trans (act_bind_error h _)⟩

/-! ### BRK and RTI -/

theorem softwareBreak_eq (op : Byte) (s : State) :
    softwareBreak op s = enterTrap (s.pc + 1) (s.plusCycles (s.cfg.extra op)) := rfl

/-- The trap with its return address saved: the status byte as it was, then the vector under the new flags. -/
theorem enterTrap_of_pushWord (h : pushWord w s = .ok ((), t)) : enterTrap w s =
    (push (statusByte s.flags) >>= fun _ => Act.get State.cfg >>= fun c => setFlags (brkFlags c s.flags) >>= fun _ =>
      readWord brkVector >>= setPc) t := by
  rw [enterTrap, act_bind_ok h, act_bind_ok (act_get _), pushWord_flags h]

/-- With all three bytes saved, the flags and then the vector. -/
theorem enterTrap_of_push (h1 : pushWord w s = .ok ((), t)) (h2 : push (statusByte s.flags) t = .ok ((), u)) :
    enterTrap w s = (readWord brkVector >>= setPc) { u with flags := brkFlags s.cfg s.flags } := by
  have hcfg : u.cfg = s.cfg := (push_cfg h2).trans (pushWord_cfg h1)
  have hflags : brkFlags u.cfg s.flags = brkFlags s.cfg s.flags := by rw [hcfg]
  rw [enterTrap_of_pushWord h1, act_bind_ok h2, act_bind_ok (act_get _), hflags]
  rfl

/-- Settles O35: the trap entry, by which of its accesses is the first to fail. -/
theorem brkResult : Obligations.BrkResult := by
  intro s
  simp only [exec_next, exec_fault]
  refine ⟨fun t h1 => ⟨fun u h2 => ?_, fun e h2 => ?_⟩,
    fun e h1 => (softwareBreak_eq 0x00 s).trans (act_bind_error h1 _)⟩
  · have htrap := (softwareBreak_eq 0x00 s).trans (enterTrap_of_push h1 h2)
    exact ⟨fun target v h3 => htrap.trans (act_bind_ok h3 _), fun e h3 => htrap.trans (act_bind_error h3 _)⟩
  · exact (softwareBreak_eq 0x00 s).trans ((enterTrap_of_pushWord h1).trans (act_bind_error h2 _))

theorem returnFromBreak_eq (op : Byte) (s : State) :
    returnFromBreak op s = returnFromTrap (s.plusCycles (s.cfg.extra op)) := rfl

theorem returnFromTrap_of_pull (h : pull s = .ok (p, t)) :
    returnFromTrap s = (pullWord >>= setPc) { t with flags := setStatus p } :=
  act_bind_ok h _

/-- Settles O36: the status byte's pull, then the word's under the pulled flags. -/
theorem rtiResult : Obligations.RtiResult := by
  intro s
  simp only [exec_next, exec_fault]
  refine ⟨fun p t h => ?_, fun e h => (returnFromBreak_eq 0x40 s).trans (act_bind_error h _)⟩
  have htrap := (returnFromBreak_eq 0x40 s).trans (returnFromTrap_of_pull h)
  exact ⟨fun target u hw => htrap.trans (act_bind_ok hw _), fun e hw => htrap.trans (act_bind_error hw _)⟩

/-! ### Flags and NOP -/

/-- Settles O37: `OP_EXTRA`, and the one flag. -/
theorem flagInstructionResult : Obligations.FlagInstructionResult :=
  fun _ => ⟨rfl, rfl, rfl, rfl, rfl, rfl, rfl, rfl⟩

/-! ### The status byte (10_state.md R25) -/

theorem toNat_append_ofBool {n : Nat} (x : BitVec n) (b : Bool) :
    (x ++ BitVec.ofBool b).toNat = 2 * x.toNat + b.toNat := by
  rw [BitVec.toNat_append, BitVec.toNat_ofBool, ← Nat.shiftLeft_add_eq_or_of_lt (by simpa using b.toNat_lt),
    Nat.shiftLeft_eq]
  omega

theorem getLsbD_append_ofBool {n : Nat} (x : BitVec n) (b : Bool) (k : Nat) :
    (x ++ BitVec.ofBool b).getLsbD k = if k = 0 then b else x.getLsbD (k - 1) := by
  rw [BitVec.getLsbD_append]
  cases k <;> simp

/-- Bit 5 is a bit like the others, always set. -/
theorem statusByte_eq (f : Flags) : statusByte f = BitVec.ofBool f.n ++ BitVec.ofBool f.v ++ BitVec.ofBool true ++
    BitVec.ofBool f.b ++ BitVec.ofBool f.d ++ BitVec.ofBool f.i ++ BitVec.ofBool f.z ++ BitVec.ofBool f.c := rfl

theorem statusByte_toNat (f : Flags) : (statusByte f).toNat =
    f.c.toNat + 2 * f.z.toNat + 4 * f.i.toNat + 8 * f.d.toNat + 16 * f.b.toNat + 32 + 64 * f.v.toNat +
      128 * f.n.toNat := by
  simp only [statusByte_eq, toNat_append_ofBool, BitVec.toNat_ofBool, Bool.toNat_true]
  omega

theorem setStatus_statusByte (f : Flags) : setStatus (statusByte f) = f := by
  simp only [setStatus, statusByte_eq, getLsbD_append_ofBool]
  simp

theorem statusByte_setStatus (p : Byte) : statusByte (setStatus p) = p ||| 0x20 := by
  refine BitVec.eq_of_getLsbD_eq fun k hk => ?_
  rw [BitVec.getLsbD_or]
  interval_cases k <;> simp only [setStatus, statusByte_eq, getLsbD_append_ofBool] <;> simp

/-- Settles O17: the byte appends its bits one by one, and each flag is read from its own. -/
theorem statusBytePacking : Obligations.StatusBytePacking :=
  ⟨statusByte_toNat, setStatus_statusByte, statusByte_setStatus⟩

end Sys2Proof.Machine
end

section
/-! PROOF. What instructions leave unchanged (10_state.md sections 1 to 4, 20_memory.md sections 2 and 4): registers,
flags, memory, and the control state. -/

namespace Sys2Proof.Machine

variable {i : Instr} {o : Operand} {op v : Byte} {s t u : State} {w ea a : Word}

/-! ### Registers and flags -/

/-- A register other than the one written keeps its value. -/
def RegKept (r : Reg) (s t : State) : Prop :=
  t.reg r = s.reg r

theorem regKept_frameRel (r : Reg) : FrameRel (RegKept r) where
  trans h g := g.trans h
  bus h _ := by
    rw [RegKept, h]
    cases r <;> rfl

theorem regKept_writes {r : Reg} (hr : r ∉ i.regsWritten) : WritesKeep (RegKept r) i where
  a h s v := by
    cases r with
    | a => exact absurd h hr
    | x | y | sp => rfl
  x h s v := by
    cases r with
    | x => exact absurd h hr
    | a | y | sp => rfl
  y h s v := by
    cases r with
    | y => exact absurd h hr
    | a | x | sp => rfl
  sp h s v := by
    cases r with
    | sp => exact absurd h hr
    | a | x | y => rfl
  flags _ _ _ := by cases r <;> rfl
  pc _ _ _ := by cases r <;> rfl
  store _ s a v := by cases r <;> simp [RegKept, State.reg]

/-- Settles O38: the only register writes of an instruction are of the registers listed. -/
theorem registerFrame : Obligations.RegisterFrame :=
  fun _ s t r h hr => instrAction_keeps (regKept_frameRel r) (regKept_writes hr) s () t (exec_next.mp h)

/-- The parameters are as before, and with them each flag the instruction does not write. -/
def FlagKept (i : Instr) (f : Flag) (s t : State) : Prop :=
  t.cfg = s.cfg ∧ (f ∉ i.flagsWritten s.cfg → t.flags.get f = s.flags.get f)

theorem flagKept_of_eq (i : Instr) (f : Flag) (hc : t.cfg = s.cfg) (hf : t.flags = s.flags) : FlagKept i f s t :=
  ⟨hc, fun _ => by rw [hf]⟩

theorem flagKept_frameRel (i : Instr) (f : Flag) : FrameRel (FlagKept i f) where
  trans h g := ⟨g.1.trans h.1, fun hf => (g.2 (h.1 ▸ hf)).trans (h.2 hf)⟩
  bus h _ := flagKept_of_eq i f (by rw [h]) (by rw [h])

theorem flagKept_writes (i : Instr) (f : Flag) : WritesKeep (FlagKept i f) i where
  a _ _ _ := flagKept_of_eq i f rfl rfl
  x _ _ _ := flagKept_of_eq i f rfl rfl
  y _ _ _ := flagKept_of_eq i f rfl rfl
  sp _ _ _ := flagKept_of_eq i f rfl rfl
  flags _ _ h := ⟨rfl, h f⟩
  pc _ _ _ := flagKept_of_eq i f rfl rfl
  store _ s a v := flagKept_of_eq i f (storeRam_cfg s a v) (storeRam_flags s a v)

/-- Settles O39: a flag write leaves the flags that are not listed. -/
theorem flagFrame : Obligations.FlagFrame :=
  fun i s t f h hf => (instrAction_keeps (flagKept_frameRel i f) (flagKept_writes i f) s () t (exec_next.mp h)).2 hf

/-! ### The control state -/

/-- The run-control bits, the records, the host's queue and the parameters are as before. -/
def ControlKept (s t : State) : Prop :=
  t.running = s.running ∧ t.quit = s.quit ∧ t.haltInfo = s.haltInfo ∧ t.fault = s.fault ∧ t.pending = s.pending ∧
    t.responses = s.responses ∧ t.batchLeft = s.batchLeft ∧ t.cfg = s.cfg

theorem controlKept_frameRel : FrameRel ControlKept where
  trans := fun ⟨a1, a2, a3, a4, a5, a6, a7, a8⟩ ⟨b1, b2, b3, b4, b5, b6, b7, b8⟩ =>
    ⟨b1.trans a1, b2.trans a2, b3.trans a3, b4.trans a4, b5.trans a5, b6.trans a6, b7.trans a7, b8.trans a8⟩
  bus h _ := by
    rw [h]
    exact ⟨rfl, rfl, rfl, rfl, rfl, rfl, rfl, rfl⟩

theorem controlKept_writes (i : Instr) : WritesKeep ControlKept i where
  a _ _ _ := ⟨rfl, rfl, rfl, rfl, rfl, rfl, rfl, rfl⟩
  x _ _ _ := ⟨rfl, rfl, rfl, rfl, rfl, rfl, rfl, rfl⟩
  y _ _ _ := ⟨rfl, rfl, rfl, rfl, rfl, rfl, rfl, rfl⟩
  sp _ _ _ := ⟨rfl, rfl, rfl, rfl, rfl, rfl, rfl, rfl⟩
  flags _ _ _ := ⟨rfl, rfl, rfl, rfl, rfl, rfl, rfl, rfl⟩
  pc _ _ _ := ⟨rfl, rfl, rfl, rfl, rfl, rfl, rfl, rfl⟩
  store _ s a v := by simp [ControlKept]

/-- PC is as before. -/
def PcKept (s t : State) : Prop :=
  t.pc = s.pc

theorem pcKept_frameRel : FrameRel PcKept where
  trans h g := g.trans h
  bus h _ := by rw [PcKept, h]

theorem pcKept_writes
    (hi : i.mnemonic ∉ [.bcc, .bcs, .beq, .bmi, .bne, .bpl, .bvc, .bvs, .jmp, .jsr, .rts, .brk, .rti]) :
    WritesKeep PcKept i where
  a _ _ _ := rfl
  x _ _ _ := rfl
  y _ _ _ := rfl
  sp _ _ _ := rfl
  flags _ _ _ := rfl
  pc h := absurd h hi
  store _ s a v := storeRam_pc s a v

/-- Settles O42: no kind of write an instruction makes is to the control state, and only a control transfer's
is to PC. -/
theorem controlStateFrame : Obligations.ControlStateFrame := by
  intro i s t h
  have hrun := exec_next.mp h
  obtain ⟨h1, h2, h3, h4, h5, h6, h7, h8⟩ := instrAction_keeps controlKept_frameRel (controlKept_writes i) s () t hrun
  exact ⟨h1, h2, h3, h4, h5, h6, h7, h8, fun hi => instrAction_keeps pcKept_frameRel (pcKept_writes hi) s () t hrun⟩

/-! ### Memory -/

theorem memWrite_byteAt_other (h : memWrite ea v s = .ok ((), t)) (hne : a ≠ ea) : t.byteAt a = s.byteAt a := by
  rw [memWrite_ok h]
  exact storeRam_byteAt_other s v hne

theorem byteAt_of_onlyBus (h : OnlyBus s t) (a : Word) : t.byteAt a = s.byteAt a :=
  byteAt_congr (by rw [h]) a

theorem mnemonic_of_storesOperand (hs : i.storesOperand = true) :
    i.mnemonic ∈ [.sta, .stx, .sty] ∨ i.mnemonic ∈ [.asl, .lsr, .rol, .ror, .inc, .dec] := by
  revert hs
  unfold Instr.storesOperand
  cases i.mnemonic <;> simp

/-- A store or read-modify-write changes no byte but the one at its effective address. -/
theorem store_byteAt_other {reg : State → Byte} {s1 : State} (hr : resolve o s = .ok (ea, s1))
    (h : store reg op o s = .ok ((), t)) (hne : a ≠ ea) : t.byteAt a = s.byteAt a := by
  rw [store_eq, resolve_extra_bind hr] at h
  exact (memWrite_byteAt_other h hne).trans (byteAt_of_onlyBus (resolve_ok hr).1 a)

theorem modifyOperand_byteAt_other {f : Byte → Flags → Byte × Flags} {s1 : State} (hr : resolve o s = .ok (ea, s1))
    (h : modifyOperand op o f s = .ok ((), t)) (hne : a ≠ ea) : t.byteAt a = s.byteAt a := by
  rcases hm : memRead ea (s1.plusCycles (s.cfg.extra op)) with e | ⟨m, s2⟩
  · rw [modifyOperand, resolve_extra_bind hr, act_bind_error hm] at h
    cases h
  · rw [modifyOperand_of_read hr hm] at h
    refine (memWrite_byteAt_other h hne).trans ?_
    exact (byteAt_of_onlyBus (memRead_onlyBus hm) a).trans (byteAt_of_onlyBus (resolve_ok hr).1 a)

/-- Settles O40: the one write is at the resolved address, and the accesses before it change no byte. -/
theorem storeMemoryFrame : Obligations.StoreMemoryFrame := by
  intro i o s s1 t ea a hs ho hr h hne
  have hrun := exec_next.mp h
  rcases mnemonic_of_storesOperand hs with hm | hm
  · rw [instrAction_store ho hm] at hrun
    exact store_byteAt_other hr hrun hne
  · rw [instrAction_modifyOperand ho hm] at hrun
    exact modifyOperand_byteAt_other hr hrun hne

/-- A push changes no byte but the one SP designates. -/
theorem push_byteAt_other (h : push v s = .ok ((), t)) (hne : a ≠ stackAddress s.sp) :
    t.byteAt a = s.byteAt a ∧ t.sp = s.sp - 1 := by
  obtain ⟨u, hu, rfl⟩ := push_eq_ok.mp h
  exact ⟨memWrite_byteAt_other (t := u) hu hne, rfl⟩

theorem pushWord_byteAt_other (h : pushWord w s = .ok ((), t)) (h0 : a ≠ stackAddress s.sp)
    (h1 : a ≠ stackAddress (s.sp - 1)) : t.byteAt a = s.byteAt a ∧ t.sp = s.sp - 2 := by
  obtain ⟨u, hu, ht⟩ := pushWord_eq_ok.mp h
  obtain ⟨hb, hsp⟩ := push_byteAt_other hu h0
  obtain ⟨hb', hsp'⟩ := push_byteAt_other ht (hsp ▸ h1)
  exact ⟨hb'.trans hb, by rw [hsp', hsp]; bv_omega⟩

/-- Memory is as before, byte for byte. -/
def MemKept (s t : State) : Prop :=
  t.mem = s.mem

theorem memKept_frameRel : FrameRel MemKept where
  trans h g := g.trans h
  bus h _ := by rw [MemKept, h]

theorem memKept_writes (hs : i.storesOperand = false) (hp : i.pushes = 0) : WritesKeep MemKept i where
  a _ _ _ := rfl
  x _ _ _ := rfl
  y _ _ _ := rfl
  sp _ _ _ := rfl
  flags _ _ _ := rfl
  pc _ _ _ := rfl
  store h := by
    rcases h with h | h
    · rw [hs] at h
      cases h
    · exact absurd hp h

theorem memKept_setPc (pc : Word) : (setPc pc).Keeps MemKept :=
  keeps_update fun _ => rfl

/-- The trap entry changes no byte but the three it pushes. -/
theorem enterTrap_byteAt_other (h : enterTrap w s = .ok ((), t)) (h0 : a ≠ stackAddress s.sp)
    (h1 : a ≠ stackAddress (s.sp - 1)) (h2 : a ≠ stackAddress (s.sp - 2)) : t.byteAt a = s.byteAt a := by
  rcases hw : pushWord w s with e | ⟨_, u⟩
  · rw [enterTrap, act_bind_error hw] at h
    cases h
  · obtain ⟨hbu, hsp⟩ := pushWord_byteAt_other hw h0 h1
    rcases hp : push (statusByte s.flags) u with e | ⟨_, v⟩
    · rw [enterTrap_of_pushWord hw, act_bind_error hp] at h
      cases h
    · rw [enterTrap_of_push hw hp] at h
      have hvector : (readWord brkVector >>= setPc).Keeps MemKept :=
        memKept_frameRel.bind (memKept_frameRel.readWord brkVector) memKept_setPc
      exact (byteAt_congr (hvector _ _ _ h) a).trans ((push_byteAt_other hp (hsp ▸ h2)).1.trans hbu)

/-- The instructions that push: PHA, PHP, BRK and JSR. -/
theorem pushing_cases (i : Instr) : i.pushes = 0 ∨ i = .pha ∨ i = .php ∨ i = .brk ∨ ∃ w, i = .jsr w := by
  cases i <;> simp [Instr.pushes, Instr.mnemonic]

/-- Settles O41: what does not push writes no byte; each push writes the byte SP designates and lowers SP. -/
theorem pushMemoryFrame : Obligations.PushMemoryFrame := by
  intro i s t a hs h ha
  simp only [← stackAddress_eq] at ha
  have ha0 (hp : 0 < i.pushes) : a ≠ stackAddress s.sp := by
    simpa using ha 0 hp
  have hrun := exec_next.mp h
  rcases pushing_cases i with hp | rfl | rfl | rfl | ⟨w, rfl⟩
  · exact byteAt_congr (instrAction_keeps memKept_frameRel (memKept_writes hs hp) s () t hrun) a
  · rw [instrAction_pha, pushByte_eq] at hrun
    exact (push_byteAt_other hrun (ha0 (by decide))).1
  · rw [instrAction_php, pushByte_eq] at hrun
    exact (push_byteAt_other hrun (ha0 (by decide))).1
  · rw [instrAction_brk, softwareBreak_eq] at hrun
    exact (enterTrap_byteAt_other hrun (ha0 (by decide)) (ha 1 (by decide)) (ha 2 (by decide))).trans
      (byteAt_congr (plusCycles_mem s _) a)
  · rw [instrAction_jsr, callSubroutine_abs] at hrun
    obtain ⟨_, u, hu, hpc⟩ := act_bind_eq_ok.mp hrun
    exact (byteAt_congr (memKept_setPc w _ _ _ hpc) a).trans
      (pushWord_byteAt_other hu (ha0 Nat.two_pos) (ha 1 Nat.one_lt_two)).1

end Sys2Proof.Machine
end

section
/-! PROOF. Rules over several instructions (44_control.md, 60_exceptions.md section 1, 30_encoding.md section 4): calls
and their returns, where DecimalMode comes from, and the cost of an instruction. -/

namespace Sys2Proof.Machine

variable {i : Instr} {o : Operand} {op : Byte} {s t u : State} {w : Word}

/-! ### Calls and returns -/

theorem exec_jsr_of_pushWord (h : pushWord (s.pc - 1) (s.plusCycles (s.cfg.extra 0x20)) = .ok ((), t)) (w : Word) :
    exec (.jsr w) s = .next { t with pc := w } :=
  (callAndReturnResult s w).1 t h

theorem exec_rts_of_pullWord (h : pullWord (s.plusCycles (s.cfg.extra 0x60)) = .ok (w, t)) :
    exec .rts s = .next { t with pc := w + 1 } :=
  (callAndReturnResult s w).2.2.1 t h

theorem pushWord_completes (hs : s.StackIsRam) (w : Word) : ∃ t, pushWord w s = .ok ((), t) :=
  ⟨_, pushWord_ram hs w⟩

theorem push_completes (hs : s.StackIsRam) (v : Byte) : ∃ t, push v s = .ok ((), t) :=
  ⟨_, push_ram hs v⟩

/-- Settles O44: JSR leaves its word above SP, and RTS reads it there. -/
theorem rtsReturnsFromJsr : Obligations.RtsReturnsFromJsr := by
  intro s w hs hm
  have hs0 : (s.plusCycles (s.cfg.extra 0x20)).StackIsRam := stackIsRam_congr hs rfl
  obtain ⟨t, hpush⟩ := pushWord_completes hs0 (s.pc - 1)
  obtain ⟨hsp, hhi, hlo, -⟩ := pushWord_bytes hs0 hm hpush
  have hst : (State.plusCycles { t with pc := w } (t.cfg.extra 0x60)).StackIsRam :=
    stackIsRam_congr hs0 (pushWord_cfg (t := t) hpush)
  have hpull := pullWord_bytes hst hsp hhi hlo
  exact ⟨_, _, exec_jsr_of_pushWord hpush w, rfl, exec_rts_of_pullWord hpull, sub_add_cancel s.pc 1, rfl⟩

theorem readWord_plain {a : Word} (h0 : s.plain a = true) (h1 : s.plain (a + 1) = true) :
    readWord a s = .ok (word (s.byteAt a) (s.byteAt (a + 1)), s) :=
  readWord_of_ok (memRead_plain h0) (memRead_plain h1)

theorem exec_brk_of_ok {t u v : State} (h1 : pushWord (s.pc + 1) (s.plusCycles (s.cfg.extra 0x00)) = .ok ((), t))
    (h2 : push (statusByte s.flags) t = .ok ((), u))
    (h3 : readWord brkVector { u with flags := brkFlags s.cfg s.flags } = .ok (w, v)) :
    exec .brk s = .next { v with pc := w } :=
  (((brkResult s).1 t h1).1 u h2).1 w v h3

theorem exec_rti_of_ok {p : Byte} (h1 : pull (s.plusCycles (s.cfg.extra 0x40)) = .ok (p, t))
    (h2 : pullWord { t with flags := setStatus p } = .ok (w, u)) : exec .rti s = .next { u with pc := w } :=
  ((rtiResult s).1 p t h1).1 w u h2

/-- What BRK leaves with the stack page and the vector in plain memory: PC at the vector, its flags, and the
three bytes it pushed, the status byte below the word. -/
theorem exec_brk_ram (hs : s.StackIsRam) (hm : Memory.wf s.mem = true) (hv0 : s.plain brkVector = true)
    (hv1 : s.plain (brkVector + 1) = true) :
    ∃ t, exec .brk s = .next t ∧ t.pc = word (t.byteAt brkVector) (t.byteAt (brkVector + 1)) ∧
      t.flags = brkFlags s.cfg s.flags ∧ t.cfg = s.cfg ∧ t.sp = s.sp - 1 - 1 - 1 ∧
      t.byteAt (stackAddress s.sp) = hiByte (s.pc + 1) ∧ t.byteAt (stackAddress (s.sp - 1)) = loByte (s.pc + 1) ∧
      t.byteAt (stackAddress (s.sp - 1 - 1)) = statusByte s.flags := by
  have hs0 : (s.plusCycles (s.cfg.extra 0x00)).StackIsRam := stackIsRam_congr hs rfl
  obtain ⟨t, h1⟩ := pushWord_completes hs0 (s.pc + 1)
  obtain ⟨hsp1, hhi, hlo, hm1⟩ := pushWord_bytes hs0 hm h1
  simp only [plusCycles_sp] at hsp1 hhi hlo
  have hct : t.cfg = s.cfg := (pushWord_cfg h1).trans (plusCycles_cfg s _)
  have hst : t.StackIsRam := stackIsRam_congr hs hct
  obtain ⟨u, h2⟩ := push_completes hst (statusByte s.flags)
  obtain ⟨hsp2, hstatus, -⟩ := push_bytes hst hm1 h2
  have hcu : u.cfg = s.cfg := (push_cfg h2).trans hct
  have hhi2 := push_byteAt_other_sp (sp := s.sp) hst h2 (by rw [hsp1]; bv_omega)
  have hlo2 := push_byteAt_other_sp (sp := s.sp - 1) hst h2 (by rw [hsp1]; bv_omega)
  rw [hsp1] at hsp2 hstatus
  have h3 := readWord_plain (s := { u with flags := brkFlags s.cfg s.flags }) (a := brkVector)
    ((plain_congr hcu _).trans hv0) ((plain_congr hcu _).trans hv1)
  exact ⟨_, exec_brk_of_ok h1 h2 h3, rfl, rfl, hcu, hsp2, hhi2.trans hhi, hlo2.trans hlo, hstatus⟩

/-- What RTI restores of three such bytes. -/
theorem exec_rti_ram {sp : Byte} {f : Flags} (hs : s.StackIsRam) (hsp : s.sp = sp - 1 - 1 - 1)
    (hhi : s.byteAt (stackAddress sp) = hiByte w) (hlo : s.byteAt (stackAddress (sp - 1)) = loByte w)
    (hstatus : s.byteAt (stackAddress (sp - 1 - 1)) = statusByte f) :
    ∃ u, exec .rti s = .next u ∧ u.flags = f ∧ u.pc = w ∧ u.sp = sp := by
  have hs0 : (s.plusCycles (s.cfg.extra 0x40)).StackIsRam := stackIsRam_congr hs rfl
  have h1 := pull_bytes hs0 hsp hstatus
  have hs1 : State.StackIsRam { s.plusCycles (s.cfg.extra 0x40) with
      sp := sp - 1 - 1, flags := setStatus (statusByte f) } := stackIsRam_congr hs rfl
  have h2 := pullWord_bytes hs1 rfl hhi hlo
  exact ⟨_, exec_rti_of_ok h1 h2, setStatus_statusByte f, rfl, rfl⟩

/-- Settles O45: RTI reads the three bytes where BRK left them. -/
theorem rtiReversesBrk : Obligations.RtiReversesBrk := by
  intro s hs hm hv0 hv1
  obtain ⟨t, hbrk, hpc, hflags, hcfg, hsp, hhi, hlo, hstatus⟩ := exec_brk_ram hs hm hv0 hv1
  obtain ⟨u, hrti, hf, hpc', hsp'⟩ := exec_rti_ram (stackIsRam_congr hs hcfg) hsp hhi hlo hstatus
  exact ⟨t, u, hbrk, hpc, by rw [hflags]; rfl, by rw [hflags]; rfl, hrti, hf, hpc', hsp'⟩

/-! ### The decimal-mode fault -/

/-- ADC and SBC always have an operand. -/
theorem operand_of_arith (hm : i.mnemonic = .adc ∨ i.mnemonic = .sbc) : ∃ o, i.operand = some o := by
  cases i <;> first | exact ⟨_, rfl⟩ | (simp [Instr.mnemonic] at hm)

/-- The decimal-mode fault of ADC and SBC is their guard's. -/
theorem arith_decimal {f : Byte → Byte → Flags → Byte × Flags} {a0 : Word} {p : Byte}
    (h : arith f op o s = .error (.decimalMode a0 p t)) :
    s.flags.d = true ∧ a0 = opcodeAddress s.pc o ∧ p = op := by
  cases hd : s.flags.d with
  | false =>
    rw [arith_of_not_decimal hd] at h
    have hnever := neverDecimal_bind (neverDecimal_loadOperand op o) fun m =>
      neverDecimal_bind (neverDecimal_get id) fun s => neverDecimal_update
        (fun u => { u with a := (f s.a m s.flags).1, flags := (f s.a m s.flags).2 })
    exact absurd h (hnever.not_error _ _ _ _)
  | true =>
    rcases hr : resolve o s with e | ⟨ea, u⟩
    · rw [arith_of_resolve_error hr] at h
      exact absurd (hr.trans (congrArg _ (Except.error.inj h))) ((neverDecimal_resolve o).not_error _ _ _ _)
    · rw [arith_of_decimal hd hr, Except.error.injEq, Fault.decimalMode.injEq] at h
      exact ⟨rfl, h.1.symm, h.2.1.symm⟩

/-- Settles O43: no other meaning raises it, and those two raise it in their guard alone. -/
theorem decimalModeOnlyFromAdcSbc : Obligations.DecimalModeOnlyFromAdcSbc := by
  intro i s t a0 op h
  have hrun := exec_fault.mp h
  by_cases hm : i.mnemonic = .adc ∨ i.mnemonic = .sbc
  · obtain ⟨o, ho⟩ := operand_of_arith hm
    rw [← opcodeAddress_eq ho]
    refine ⟨hm, ?_⟩
    rcases hm with hm | hm
    · rw [instrAction_adc hm ho] at hrun
      exact arith_decimal hrun
    · rw [instrAction_sbc hm ho] at hrun
      exact arith_decimal hrun
  · rw [not_or] at hm
    exact absurd hrun ((instrAction_neverDecimal hm.1 hm.2).not_error _ _ _ _)

/-! ### The cost of an instruction -/

theorem modeDelta_nonneg (i : Instr) : 0 ≤ modeDelta i.mode (indexedWrite i.mnemonic i.mode) :=
  instr_of_rows (P := fun _ mn mode => 0 ≤ modeDelta mode (indexedWrite mn mode))
    (fun _ hr => row_delta_nonneg hr) i

/-- The three stages add up: no stage before the operation stage takes the counter below 0. -/
theorem fetch_exec_cycles (h1 : fetch s = .ok (some i, u)) (h2 : exec i u = .next t)
    (h0 : 0 ≤ 2 + modeDelta i.mode (indexedWrite i.mnemonic i.mode) + s.cfg.extra i.opcode) :
    (t.cycles : Int) = s.cycles + 2 + modeDelta i.mode (indexedWrite i.mnemonic i.mode) + s.cfg.extra i.opcode +
      (branchTaken i.mnemonic s.flags).toNat := by
  obtain ⟨hbus, hfetch⟩ := fetch_some h1
  have hcfg : u.cfg = s.cfg := by rw [hbus]
  have hflags : u.flags = s.flags := by rw [hbus]
  have hexec := (exec_cycles h2).2
  have hdelta := modeDelta_nonneg i
  rw [hfetch, hcfg, hflags] at hexec
  omega

/-- The opcodes whose mode stage has the indexed-write flag (R92). -/
theorem indexedWrite_iff (i : Instr) : indexedWrite i.mnemonic i.mode = true ↔
    i.opcode ∈ [0x1E, 0x3E, 0x5E, 0x7E, 0x91, 0x99, 0x9D, 0xDE, 0xFE] :=
  instr_of_rows (P := fun op mn mode => indexedWrite mn mode = true ↔
    op ∈ [0x1E, 0x3E, 0x5E, 0x7E, 0x91, 0x99, 0x9D, 0xDE, 0xFE]) (by decide +kernel) i

theorem exists_cyclesColumn (i : Instr) : ∃ p ∈ cyclesColumn, i.opcode ∈ p.2 :=
  instr_of_rows (P := fun op _ _ => ∃ p ∈ cyclesColumn, op ∈ p.2) (by decide +kernel) i

/-- Every total of the cycles column is the sum of the stages (R96). -/
theorem cyclesColumn_sum (i : Instr) : ∀ p ∈ cyclesColumn, i.opcode ∈ p.2 →
    2 + modeDelta i.mode (indexedWrite i.mnemonic i.mode) + Config.reference.extra i.opcode = p.1 :=
  instr_of_rows (P := fun op mn mode => ∀ p ∈ cyclesColumn, op ∈ p.2 →
    2 + modeDelta mode (indexedWrite mn mode) + Config.reference.extra op = p.1) (by decide +kernel) i

/-- Settles O52: the stages' sum, and the tables by the rows of the decode table. -/
theorem cycleCost : Obligations.CycleCost := by
  refine ⟨fun s u t i h1 h2 h0 => fetch_exec_cycles h1 h2 h0, by decide, indexedWrite_iff, fun i => ?_,
    fun i n ops hp => cyclesColumn_sum i (n, ops) hp⟩
  obtain ⟨⟨n, ops⟩, hp, hop⟩ := exists_cyclesColumn i
  exact ⟨n, ops, hp, hop⟩

end Sys2Proof.Machine
end

section
/-! PROOF. The sequencer (30_encoding.md section 4, 60_exceptions.md sections 1 and 3, 70_reset_and_hazards.md
section 1): a step by what it fetches, the halt, and the steps of a machine that is not enabled. -/

namespace Sys2Proof.Machine

variable {i : Instr} {s t u : State}

/-! ### A step and its stages -/

theorem runInstruction_of_some (h : fetch s.countInstruction = .ok (some i, t)) : runInstruction s = exec i t := by
  rw [runInstruction, h]

theorem runInstruction_of_none (h : fetch s.countInstruction = .ok (none, t)) : runInstruction s = .next t := by
  rw [runInstruction, h]

theorem runInstruction_of_error {e : Fault} (h : fetch s.countInstruction = .error e) :
    runInstruction s = .fault e := by
  rw [runInstruction, h]

/-- Settles O46: the fetch and mode stages over plain bytes. -/
theorem stepRunsDecodedInstruction : Obligations.StepRunsDecodedInstruction := by
  intro s i rest hf hq hr hp hplain hd
  rw [step_running hf hq hr hp, runInstruction_of_some (fetch_plain (s := s.countInstruction) hplain hd)]
  rfl

/-- Settles O47: the three ways the fetch and mode stages end. -/
theorem stepIsFetchThenExec : Obligations.StepIsFetchThenExec := by
  intro s hf hq hr hp
  rw [step_running hf hq hr hp]
  exact ⟨fun i t h => runInstruction_of_some h, fun t h => runInstruction_of_none h,
    fun e h => runInstruction_of_error h⟩

/-! ### The unknown-opcode halt -/

/-- The state of the opcode read: 2 cycles and one instruction counted. -/
theorem countInstruction_plusCycles (s : State) : s.countInstruction.plusCycles 2 = { s with
    cycles := s.cycles + 2
    batchLeft := (if s.batchLeft = 0 then s.cfg.batch else s.batchLeft) - 1 } := by
  have h : ((s.cycles : Int) + 2).toNat = s.cycles + 2 := by omega
  simp only [State.plusCycles, State.countInstruction, h]

theorem fetchByte_of_ok {b : Byte} (h : memRead s.pc s = .ok (b, t)) :
    fetchByte s = .ok (b, { t with pc := s.pc + 1 }) := by
  rw [fetchByte, act_bind_ok (act_get _), act_bind_ok h]
  rfl

theorem fetchByte_of_error {e : Fault} (h : memRead s.pc s = .error e) : fetchByte s = .error e := by
  rw [fetchByte, act_bind_ok (act_get _), act_bind_error h]

theorem fetch_of_absent {op : Byte} (h : memRead s.pc (s.plusCycles 2) = .ok (op, t)) (hop : op ∈ absentOpcodes) :
    fetch s = .ok (none, { t with pc := s.pc + 1, haltInfo := some (s.pc, op), running := false }) := by
  have hbyte := fetchByte_of_ok (s := s.plusCycles 2) h
  rw [fetch, act_bind_ok (act_get _), addCycles, act_bind_ok (act_update _), act_bind_ok hbyte,
    (lookup_eq_none_iff op).mpr hop]
  rfl

theorem fetch_of_error {e : Fault} (h : memRead s.pc (s.plusCycles 2) = .error e) : fetch s = .error e := by
  have hbyte := fetchByte_of_error (s := s.plusCycles 2) h
  rw [fetch, act_bind_ok (act_get _), addCycles, act_bind_ok (act_update _), act_bind_error hbyte]

/-- Settles O48: the opcode read, then the halt. -/
theorem stepHaltsOnAbsentOpcode : Obligations.StepHaltsOnAbsentOpcode := by
  intro s hf hq hr hp
  dsimp only
  rw [step_running hf hq hr hp, ← countInstruction_plusCycles]
  refine ⟨fun op t h hop => runInstruction_of_none (fetch_of_absent h hop), fun hplain hop => ?_,
    fun e h => runInstruction_of_error (fetch_of_error h)⟩
  rw [runInstruction_of_none (fetch_of_absent (s := s.countInstruction) (memRead_plain hplain) hop),
    countInstruction_plusCycles]
  rfl

/-! ### Not enabled -/

theorem step_of_fault {r : FaultRecord} (h : s.fault = some r) : step s = .fault (r.toFault s) := by
  rw [step, h]

theorem step_of_quit (hf : s.fault = none) (hq : s.quit = true) : step s = .next s := by
  rw [step, hf, if_pos hq]

theorem step_of_idle (hf : s.fault = none) (hr : s.running = false) (hp : s.pending = []) : step s = .next s := by
  cases hq : s.quit with
  | true => exact step_of_quit hf hq
  | false => simp [step, hf, hq, hp, runOrIdle, hr]

/-- Settles O49: the three tests a step makes before it looks at the sequencer. -/
theorem stepWhenNotEnabled : Obligations.StepWhenNotEnabled :=
  fun _ => ⟨fun _ => step_of_fault, step_of_quit, step_of_idle⟩

/-! ### The reset command -/

theorem resetCommand_of_ok {w : Word} (h : readWord resetVector s = .ok (w, t)) :
    resetCommand s = .ok ((), { t with pc := w, running := true, haltInfo := none }) :=
  act_bind_ok h _

/-- Settles O50: the vector's read at a service point, then the three writes. -/
theorem resetCommandEffect : Obligations.ResetCommandEffect := by
  refine fun s rest hp => ⟨fun w t hf hq hs h => ?_, fun e hf hq hs h => ?_, fun r => step_of_fault⟩
  · rw [step_service hf hq hs hp]
    exact act_outcome_next.mpr (resetCommand_of_ok h)
  · rw [step_service hf hq hs hp]
    exact act_outcome_fault.mpr (act_bind_error h _)

end Sys2Proof.Machine
end

section
/-! PROOF. The host's commands at a service point, and construction (60_exceptions.md section 7, 70_reset_and_hazards.md
section 1). -/

namespace Sys2Proof.Machine

variable {s t u : State} {a : Word} {e : Fault}

/-! ### Block reads and writes -/

/-- The addresses of a memory read whose last address is `n` past its first. -/
theorem addressesFrom_range {n : Nat} (h : a.toNat + n < 0x10000) :
    addressesFrom a ((a + BitVec.ofNat 16 n).toNat + 1 - a.toNat) =
      (List.range (n + 1)).map fun k => a + BitVec.ofNat 16 k := by
  have hlast : (a + BitVec.ofNat 16 n).toNat = a.toNat + n := by
    rw [BitVec.toNat_add, BitVec.toNat_ofNat]
    omega
  have hcount : (a + BitVec.ofNat 16 n).toNat + 1 - a.toNat = n + 1 := by omega
  rw [hcount, addressesFrom]

/-- A block of plain memory is its bytes, and reading it changes nothing. -/
theorem mapM_memRead_plain {n : Nat} (h : ∀ k ≤ n, s.plain (a + BitVec.ofNat 16 k) = true) :
    (((List.range (n + 1)).map fun k => a + BitVec.ofNat 16 k).mapM memRead) s =
      .ok ((List.range (n + 1)).map fun k => s.byteAt (a + BitVec.ofNat 16 k), s) := by
  have hall : ∀ b ∈ (List.range (n + 1)).map fun k => a + BitVec.ofNat 16 k, s.plain b = true := by
    intro b hb
    obtain ⟨k, hk, rfl⟩ := List.mem_map.mp hb
    exact h k (Nat.le_of_lt_succ (List.mem_range.mp hk))
  rw [← readAll_eq_mapM, readAll_plain _ hall, List.map_map]
  rfl

theorem runCommand_readMemory {first last : Word} : runCommand (.readMemory first last) =
    ((addressesFrom first (last.toNat + 1 - first.toNat)).mapM memRead >>= fun bytes => respond (.memory bytes)) := by
  rw [runCommand, readAll_eq_mapM]

theorem runCommand_writeMemory (a : Word) (bytes : List Byte) : runCommand (.writeMemory a bytes) =
    bytes.zipIdx.forM fun p => memWrite (a + BitVec.ofNat 16 p.2) p.1 := by
  rw [← writeAll_eq_forM, BitVec.add_zero]
  rfl

/-! ### Disassembly -/

theorem disassemble_succ (n : Nat) (a : Word) (s : State) : disassemble (n + 1) a s =
    (memRead a >>= fun op =>
      ((List.range ((opcodeLength op).getD 1 - 1)).map fun k => a + 1 + BitVec.ofNat 16 k).mapM memRead >>= fun bytes =>
        disassemble n (a + BitVec.ofNat 16 ((opcodeLength op).getD 1)) >>= fun lines =>
          match decode (op :: bytes) with
          | .ok (i, _) => pure ((a, some i) :: lines)
          | .error _ => pure ((a, none) :: lines)) s := by
  simp only [← readAll_eq_mapM]
  rfl

/-- The accesses of one line of a listing complete, and then the rest of the listing: the line is the decoder's. -/
theorem disassemble_of_ok {n : Nat} {op : Byte} {bytes : List Byte} {lines : List (Word × Option Instr)} {v w : State}
    (h1 : memRead a s = .ok (op, t))
    (h2 : (((List.range ((opcodeLength op).getD 1 - 1)).map fun k => a + 1 + BitVec.ofNat 16 k).mapM memRead) t =
      .ok (bytes, v))
    (h3 : disassemble n (a + BitVec.ofNat 16 ((opcodeLength op).getD 1)) v = .ok (lines, w)) :
    disassemble (n + 1) a s = .ok ((a, (decode (op :: bytes)).toOption.map Prod.fst) :: lines, w) := by
  rw [disassemble_succ, act_bind_ok h1, act_bind_ok h2, act_bind_ok h3]
  cases decode (op :: bytes) <;> rfl

/-! ### Answers -/

/-- A command that computes an answer and returns it. -/
theorem respond_outcome_next {α : Type} {m : Act α} {v : α} (h : m s = .ok (v, t)) (f : α → HostResponse) :
    (m >>= fun v => respond (f v)).outcome s = .next { t with responses := t.responses ++ [f v] } :=
  act_outcome_next.mpr (act_bind_ok h _)

theorem respond_outcome_fault {α : Type} {m : Act α} (h : m s = .error e) (f : α → HostResponse) :
    (m >>= fun v => respond (f v)).outcome s = .fault e :=
  act_outcome_fault.mpr (act_bind_error h _)

/-- Settles O51: a service point runs the command; each is its accesses in order and then its answer. -/
theorem hostCommandEffects : Obligations.HostCommandEffects := by
  refine ⟨fun s c rest hp hf hq hs => ?_, fun s a => rfl, fun s a n => ⟨fun e h => ?_, fun op t h1 =>
    ⟨fun e h2 => ?_, fun bytes v h2 => ⟨fun e h3 => ?_, fun lines w h3 => ⟨fun i hd => ?_, fun hop => ?_⟩⟩⟩⟩⟩
  · rw [step_service hf hq hs hp]
    refine ⟨?_, fun a n hc hn => ?_, fun a bytes hc => ?_, fun a n hc => ?_, ?_⟩
    · rintro rfl
      rfl
    · rw [hc, runCommand_readMemory, addressesFrom_range hn]
      refine ⟨fun bytes t h => respond_outcome_next h _, fun e h => respond_outcome_fault h _, fun hplain => ?_⟩
      exact respond_outcome_next (mapM_memRead_plain (s := { s with pending := rest, batchLeft := 0 }) hplain) _
    · rw [hc, runCommand_writeMemory]
      exact ⟨fun t h => act_outcome_next.mpr h, fun e h => act_outcome_fault.mpr h⟩
    · rw [hc]
      exact ⟨fun lines t h => respond_outcome_next h _, fun e h => respond_outcome_fault h _⟩
    · rintro rfl
      rfl
  · rw [disassemble_succ, act_bind_error h]
  · rw [disassemble_succ, act_bind_ok h1, act_bind_error h2]
  · rw [disassemble_succ, act_bind_ok h1, act_bind_ok h2, act_bind_error h3]
  · rw [disassemble_of_ok h1 h2 h3, hd]
    rfl
  · rw [disassemble_of_ok h1 h2 h3, (absentOpcodesAreTheListed op bytes).mpr hop]
    rfl

/-! ### Construction -/

/-- What memory holds at construction (R300). -/
def constructedMemory (cfg : Config) (ram rom : List Byte) : List Host.Cell :=
  Memory.load (Memory.load [] cfg.romBase (rom.take cfg.romSize)) cfg.ramBase (ram.take cfg.ramSize)

theorem byteAt_ofNat {n : Nat} (h : n < 0x10000) : s.byteAt (BitVec.ofNat 16 n) = Memory.read s.mem n := by
  rw [State.byteAt, BitVec.toNat_ofNat, Nat.mod_eq_of_lt h]

/-- Settles O54: the state before PC is loaded, its memory the two images, and then PC. -/
theorem constructionState : Obligations.ConstructionState := by
  intro cfg power ram rom
  refine ⟨State.initial cfg power (constructedMemory cfg ram rom), rfl, rfl, rfl, rfl, rfl, rfl, rfl, rfl,
    rfl, rfl, rfl,
    rfl, fun hwf => ?_, fun pc => rfl, fun w t h => act_outcome_next.mpr (act_bind_ok h _),
    fun e h => act_outcome_fault.mpr (act_bind_error h _)⟩
  obtain ⟨hram, hrom⟩ := construct_memory hwf ram rom
  simp only [Config.wf, Config.ramBelowRom, Config.romFits, Bool.and_eq_true, decide_eq_true_eq] at hwf
  refine ⟨fun k hk => ?_, fun k hk => ?_⟩
  · rw [byteAt_ofNat (by omega)]
    exact hram k hk
  · rw [byteAt_ofNat (by omega)]
    exact hrom k hk

end Sys2Proof.Machine
end

section
/-! PROOF. Every fault is recorded, and every instruction completes on plain memory (60_exceptions.md sections
1 and 5). -/

namespace Sys2Proof.Machine

variable {α β : Type} {i : Instr} {o : Operand} {s t u : State} {a : Word} {v : Byte} {f : Fault}

/-! ### Fault records -/

/-- The state that a fault carries is its own. -/
theorem toFault_state_inj {r r' : FaultRecord} (h : r.toFault s = r'.toFault t) : s = t := by
  cases r <;> cases r' <;> simp [FaultRecord.toFault] at h <;> simp [h]

theorem memRead_error (h : memRead a s = .error f) : ∃ r, f = FaultRecord.toFault r { s with fault := some r } := by
  cases hr : region s.cfg a with
  | ram =>
    rw [memRead_plain ((plain_iff s).mpr (.inl hr))] at h
    cases h
  | rom =>
    rw [memRead_plain ((plain_iff s).mpr (.inr hr))] at h
    cases h
  | bus =>
    rw [memRead_of_bus hr] at h
    exact ⟨.transportFailure _, exchange_error h⟩
  | unmapped =>
    rw [memRead_of_unmapped hr, Except.error.injEq] at h
    exact ⟨.decodeViolation a .read, h.symm⟩

/-- A failing write has stored its byte where it is forwarded from RAM. -/
theorem memWrite_error (h : memWrite a v s = .error f) :
    ∃ r t, f = FaultRecord.toFault r t ∧ t.fault = some r ∧ t.trace = s.trace := by
  by_cases hr : region s.cfg a = .unmapped
  · rw [memWrite_of_unmapped hr, Except.error.injEq] at h
    exact ⟨.decodeViolation a .write, _, h.symm, rfl, rfl⟩
  · cases hf : forwarded s.cfg a with
    | false =>
      rw [memWrite_of_not_forwarded hr hf] at h
      cases h
    | true =>
      rw [memWrite_of_forwarded hr hf] at h
      cases hx : exchange (writeFrame s.cycles a v) (s.storeRam a v) with
      | ok p =>
        rw [hx] at h
        cases h
      | error e =>
        rw [hx] at h
        exact ⟨.transportFailure _, _, (Except.error.inj h).symm.trans (exchange_error hx), rfl, storeRam_trace s a v⟩

/-- What `EveryFaultIsRecorded` says of a fault after a state. -/
def RecordedAfter (s : State) (f : Fault) : Prop :=
  ∃ r t, f = FaultRecord.toFault r t ∧ t.fault = some r ∧ s.trace <+: t.trace

theorem recordedAfter_of_prefix (hp : s.trace <+: u.trace) (h : RecordedAfter u f) : RecordedAfter s f := by
  obtain ⟨r, t, hf, hr, ht⟩ := h
  exact ⟨r, t, hf, hr, hp.trans ht⟩

theorem step_recorded (h : step s = .fault f) : RecordedAfter s f := by
  obtain ⟨r, hr, rfl⟩ | ⟨-, hfetch | ⟨i, u, hsome, hexec⟩ | ⟨c, rest, -, hcmd⟩⟩ := step_fault h
  · exact ⟨r, s, rfl, hr, List.prefix_refl _⟩
  · have hrec : RecordedAfter s.countInstruction f := fetch_traced.records _ _ hfetch
    exact hrec
  · have hgrows : s.countInstruction.trace <+: u.trace := fetch_traced.grows _ _ _ hsome
    exact recordedAfter_of_prefix hgrows ((instrAction_traced i).records _ _ (exec_fault.mp hexec))
  · have hrec : RecordedAfter { s with pending := rest, batchLeft := 0 } f := (runCommand_traced c).records _ _ hcmd
    exact hrec

/-- The resolver's frames are in the state the fault carries, whichever way that state was found. -/
theorem exec_recorded (h : exec i u = .fault f) : ∃ r t, f = FaultRecord.toFault r t ∧ t.fault = some r ∧
    u.trace <+: t.trace ∧ ∀ o ea v, i.operand = some o → resolve o u = .ok (ea, v) → v.trace <+: t.trace := by
  have hrun := exec_fault.mp h
  obtain ⟨r, t, hf, hr, ht⟩ := (instrAction_traced i).records _ _ hrun
  refine ⟨r, t, hf, hr, ht, fun o ea v ho hv => ?_⟩
  obtain ⟨r', t', hf', -, ht'⟩ := (instrAction_resolves ho u ea v hv).2 f hrun
  rwa [toFault_state_inj (hf.symm.trans hf')]

/-- Settles O59: of a step by its parts, of an instruction by its resolver, of an access exactly. -/
theorem everyFaultIsRecorded : Obligations.EveryFaultIsRecorded := by
  refine ⟨fun s f h => step_recorded h, fun s u i f hf hq hr hp hfetch h => ?_, fun s a f h => ?_,
    fun s a v f h => memWrite_error h⟩
  · rw [step_running hf hq hr hp, runInstruction_of_some hfetch] at h
    exact exec_recorded h
  · obtain ⟨r, hr⟩ := memRead_error h
    exact ⟨r, _, hr, rfl, rfl⟩

/-! ### Completion on plain memory -/

/-- Every address is RAM or ROM, and none is forwarded. -/
def AllPlain (s : State) : Prop :=
  ∀ a, s.plain a = true ∧ forwarded s.cfg a = false

/-- Where every address is plain, the action completes, and every address still is. -/
def Act.Completes (m : Act α) : Prop :=
  ∀ s, AllPlain s → ∃ v t, m s = .ok (v, t) ∧ AllPlain t

theorem allPlain_congr (hs : AllPlain s) (h : t.cfg = s.cfg) : AllPlain t := fun a => by
  rw [plain_congr h, h]
  exact hs a

theorem completes_bind {m : Act α} {k : α → Act β} (hm : m.Completes) (hk : ∀ v, (k v).Completes) :
    (m >>= k).Completes := by
  intro s hs
  obtain ⟨v, t, h1, ht⟩ := hm s hs
  obtain ⟨w, u, h2, hu⟩ := hk v t ht
  exact ⟨w, u, (act_bind_ok h1 k).trans h2, hu⟩

theorem completes_pure (v : α) : (pure v : Act α).Completes := fun s hs => ⟨v, s, rfl, hs⟩

theorem completes_get (f : State → α) : (Act.get f).Completes := fun s hs => ⟨f s, s, rfl, hs⟩

theorem completes_update {f : State → State} (h : ∀ s, (f s).cfg = s.cfg) : (Act.update f).Completes :=
  fun s hs => ⟨(), f s, rfl, allPlain_congr hs (h s)⟩

theorem completes_memRead (a : Word) : (memRead a).Completes := fun s hs => ⟨_, s, memRead_plain (hs a).1, hs⟩

theorem completes_memWrite (a : Word) (v : Byte) : (memWrite a v).Completes := by
  intro s hs
  have hr : region s.cfg a ≠ .unmapped := by
    rcases (plain_iff s).mp (hs a).1 with h | h <;> rw [h] <;> decide
  exact ⟨(), _, memWrite_of_not_forwarded hr (hs a).2, allPlain_congr hs (storeRam_cfg s a v)⟩

theorem completes_addExtra (op : Byte) : (addExtra op).Completes := completes_update fun _ => rfl

theorem completes_setPc (pc : Word) : (setPc pc).Completes := completes_update fun _ => rfl

theorem completes_setFlags (f : Flags) : (setFlags f).Completes := completes_update fun _ => rfl

theorem completes_readWord (a : Word) : (readWord a).Completes :=
  completes_bind (completes_memRead a) fun _ => completes_bind (completes_memRead _) fun _ => completes_pure _

theorem completes_readWordBug (a : Word) : (readWordBug a).Completes :=
  completes_bind (completes_memRead a) fun _ => completes_bind (completes_memRead _) fun _ => completes_pure _

theorem completes_resolve (o : Operand) : (resolve o).Completes := by
  refine completes_bind (completes_get _) fun _ => completes_bind (completes_get _) fun _ =>
    completes_bind (completes_get _) fun _ => ?_
  cases o
  case ind => exact completes_readWordBug _
  case indx => exact completes_readWordBug _
  case indy => exact completes_bind (completes_readWordBug _) fun _ => completes_pure _
  all_goals exact completes_pure _

theorem completes_loadOperand (op : Byte) (o : Operand) : (loadOperand op o).Completes :=
  completes_bind (completes_resolve o) fun ea => completes_bind (completes_addExtra op) fun _ =>
    completes_bind (completes_memRead ea) fun _ => by cases o <;> exact completes_pure _

theorem completes_push (v : Byte) : (push v).Completes :=
  completes_bind (completes_get _) fun _ => completes_bind (completes_memWrite _ v) fun _ =>
    completes_update fun _ => rfl

theorem completes_pull : pull.Completes :=
  completes_bind (completes_get _) fun _ => completes_bind (completes_update fun _ => rfl) fun _ => completes_memRead _

theorem completes_pushWord (w : Word) : (pushWord w).Completes :=
  completes_bind (completes_push _) fun _ => completes_push _

theorem completes_pullWord : pullWord.Completes :=
  completes_bind completes_pull fun _ => completes_bind completes_pull fun _ => completes_pure _

theorem completes_enterTrap (w : Word) : (enterTrap w).Completes :=
  completes_bind (completes_pushWord w) fun _ => completes_bind (completes_get _) fun _ =>
    completes_bind (completes_push _) fun _ => completes_bind (completes_get _) fun _ =>
      completes_bind (completes_setFlags _) fun _ => completes_bind (completes_readWord _) completes_setPc

theorem completes_returnFromTrap : returnFromTrap.Completes :=
  completes_bind completes_pull fun _ => completes_bind (completes_setFlags _) fun _ =>
    completes_bind completes_pullWord completes_setPc

theorem completes_branch (cond : Flags → Bool) (op off : Byte) : (branch cond op off).Completes :=
  completes_bind (completes_resolve _) fun ea => completes_bind (completes_addExtra op) fun _ =>
    completes_bind (completes_get _) fun f => by
      cases cond f
      · exact completes_pure _
      · exact completes_bind (completes_update fun _ => rfl) fun _ => completes_setPc ea

/-- Reading something of the state and then one write of registers and flags. -/
theorem completes_get_update (f : State → α) {g : α → State → State} (hg : ∀ v s, (g v s).cfg = s.cfg) :
    (Act.get f >>= fun v => Act.update (g v)).Completes :=
  completes_bind (completes_get f) fun v => completes_update (hg v)

/-- With D = 0 the guard of ADC and SBC passes, and the rest completes. -/
theorem arith_completes {f : Byte → Byte → Flags → Byte × Flags} (hs : AllPlain s) (hd : s.flags.d = false) (op : Byte)
    (o : Operand) : ∃ t, arith f op o s = .ok ((), t) := by
  have hrest : (loadOperand op o >>= fun m => Act.get id >>= fun s => setAWith (f s.a m s.flags)).Completes :=
    completes_bind (completes_loadOperand op o) fun _ => completes_get_update id fun _ _ => rfl
  obtain ⟨_, t, h, -⟩ := hrest s hs
  exact ⟨t, (arith_of_not_decimal hd).trans h⟩

/-- Every meaning but ADC's and SBC's completes. -/
theorem instrAction_completes (h1 : i.mnemonic ≠ .adc) (h2 : i.mnemonic ≠ .sbc) : (instrAction i).Completes := by
  unfold instrAction
  split
  all_goals try have hm := ‹i.mnemonic = _›
  · exact absurd hm h1
  · exact absurd hm h2
  iterate 7
    exact completes_bind (completes_loadOperand _ _) fun m => completes_get_update id fun _ _ => rfl
  iterate 3
    exact completes_bind (completes_loadOperand _ _) fun m => completes_get_update State.flags fun _ _ => rfl
  iterate 3
    exact completes_bind (completes_get _) fun v => completes_bind (completes_resolve _) fun ea =>
      completes_bind (completes_addExtra _) fun _ => completes_memWrite ea v
  iterate 6
    exact completes_bind (completes_resolve _) fun ea => completes_bind (completes_addExtra _) fun _ =>
      completes_bind (completes_memRead ea) fun m => completes_bind (completes_get _) fun f =>
        completes_bind (completes_setFlags _) fun _ => completes_memWrite ea _
  iterate 13
    exact completes_bind (completes_addExtra _) fun _ => completes_get_update id fun _ _ => rfl
  · exact completes_bind (completes_addExtra _) fun _ => completes_get_update State.x fun _ _ => rfl
  iterate 2
    exact completes_bind (completes_addExtra _) fun _ => completes_bind (completes_get _) completes_push
  · exact completes_bind (completes_addExtra _) fun _ => completes_bind completes_pull fun m =>
      completes_get_update State.flags fun _ _ => rfl
  · exact completes_bind (completes_addExtra _) fun _ => completes_bind completes_pull fun m => completes_setFlags _
  iterate 8 exact completes_branch _ _ _
  · exact completes_bind (completes_resolve _) fun ea => completes_bind (completes_addExtra _) fun _ =>
      completes_setPc ea
  · exact completes_bind (completes_resolve _) fun ea => completes_bind (completes_addExtra _) fun _ =>
      completes_bind (completes_get _) fun pc => completes_bind (completes_pushWord _) fun _ => completes_setPc ea
  · exact completes_bind (completes_addExtra _) fun _ => completes_bind completes_pullWord fun w => completes_setPc _
  · exact completes_bind (completes_addExtra _) fun _ => completes_bind (completes_get _) fun pc =>
      completes_enterTrap _
  · exact completes_bind (completes_addExtra _) fun _ => completes_returnFromTrap
  iterate 7 exact completes_bind (completes_addExtra _) fun _ => completes_update fun _ => rfl
  · exact completes_addExtra _

theorem exec_completes (hs : AllPlain s) (hd : s.flags.d = false ∨ (i.mnemonic ≠ .adc ∧ i.mnemonic ≠ .sbc)) :
    ∃ t, exec i s = .next t := by
  simp only [exec_next]
  by_cases hm : i.mnemonic = .adc ∨ i.mnemonic = .sbc
  · have hd0 : s.flags.d = false := hd.resolve_right fun hne => hm.elim hne.1 hne.2
    obtain ⟨o, ho⟩ := operand_of_arith hm
    rcases hm with hm | hm
    · rw [instrAction_adc hm ho]
      exact arith_completes hs hd0 _ _
    · rw [instrAction_sbc hm ho]
      exact arith_completes hs hd0 _ _
  · rw [not_or] at hm
    obtain ⟨_, t, h, -⟩ := instrAction_completes hm.1 hm.2 s hs
    exact ⟨t, h⟩

theorem exec_not_refused (i : Instr) (s : State) (r : Refusal) : exec i s ≠ .refused r := by
  rw [exec_eq_action]
  exact act_outcome_not_refused

theorem runInstruction_not_refused (s : State) (r : Refusal) : runInstruction s ≠ .refused r := by
  unfold runInstruction
  split
  · simp
  · simp
  · exact exec_not_refused _ _ r

theorem step_not_refused (s : State) (r : Refusal) : step s ≠ .refused r := by
  cases hf : s.fault with
  | some e => simp [step_of_fault hf]
  | none =>
    rcases step_cases hf with h | ⟨-, h⟩ | ⟨c, rest, -, h⟩ <;> rw [h]
    · simp
    · exact runInstruction_not_refused s r
    · exact act_outcome_not_refused

/-- Settles O60: each family's action completes, and every meaning and command is an action run to its end. -/
theorem everyInstructionCompletes : Obligations.EveryInstructionCompletes :=
  ⟨fun _ _ hs hd => exec_completes hs hd, step_not_refused⟩

end Sys2Proof.Machine
end
